-- ==== Sys2Proof/Word.lean ====
section
/-! DEFINITION. The plain data of the engine: words, samples, and the closed sets of names the spec gives
(transform kinds, phases, fatal causes, memory spaces). No meaning stands here. -/

namespace Sys2Proof

/-- The command byte `CMD` (R60). -/
abbrev Byte := BitVec 8

/-- A size operand or size register: `SIZE_W = 32` bits, unsigned (R6, R7). -/
abbrev Word := BitVec 32

/-- The bit pattern of a 64-bit floating literal, the operand of `Num.ofF64` (R8). -/
abbrev F64 := BitVec 64

/-- ComplexSample: "pair (re, im) of RealScalar" (R41, R80), over any carrier `R`. -/
structure Sample (R : Type) where
  re : R
  im : R
deriving DecidableEq, Repr, Inhabited

/-- A value of the machine's open carrier `R` (R8), held as its code: one natural number for each value.
No rule looks at a code; only the operations of `Config.num` act on it. DESIGN CHOICE, log 1. -/
structure RealScalar where
  code : Nat
deriving DecidableEq, Repr, Inhabited

/-- A value of the trigonometric evaluator's open carrier `T` (R88), held as its code. DESIGN CHOICE, log 1. -/
structure TrigScalar where
  code : Nat
deriving DecidableEq, Repr, Inhabited

/-- TransformKind, the "closed set" of R66 in the order it is listed. -/
inductive Kind where
  | fft | ifft | uifft | sfft | sifft
deriving DecidableEq, Repr, Inhabited

/-- The sequencer position `PHASE` (R14). The reserved codes 12, 13, 14 are never entered and have no name here
(I13; log 17). -/
inductive Phase where
  | uncon | cXgen | cWgen | cWfwdF | cWfwdI | idle
  | tMod | tZpad | tIfwd | tFmul | tIinv | tDemod | fatal
deriving DecidableEq, Repr, Inhabited

/-- The value of `FCODE` (R20, R186): no fatal stop, or one of the seven causes. Codes 8 to 15 are never written. -/
inductive FatalCode where
  | noStop | lengthMismatch | innerSizeMismatch | reentrant
  | badSize | notConstructed | alreadyConstructed | illegalCmd
deriving DecidableEq, Repr, Inhabited

/-- The six memory spaces (R40). -/
inductive Space where
  | buf | scr | xf | xi | wf | wi
deriving DecidableEq, Repr, Inhabited

/-- A host command frame as it is presented (R60): one command byte and its operand words `A0, A1, ...`. -/
structure Frame where
  cmd : Byte
  ops : List Word
deriving DecidableEq, Repr, Inhabited

end Sys2Proof
end

