-- ==== Sys2Proof/Config.lean ====
section
/-! DEFINITION. What an implementation fixes and the spec leaves open (R6, R8, R32, R88, R174), and the free values. The
open records are an argument of the generic machine (`Params`); the fixed machine takes constants with no body for them, so
that a claim about it holds for every instance whose values are coded by natural numbers (log 1). -/

namespace Sys2Proof

/-- The configuration record `Num` (R8): each field a total function, nothing else assumed. -/
structure Num (R : Type) where
  zero : R
  one : R
  add : R → R → R
  sub : R → R → R
  mul : R → R → R
  neg : R → R
  div : R → R → R
  sqrt : R → R
  ofNat : Nat → R
  ofF64 : F64 → R
deriving Inhabited

/-- The configuration record `Trig` (R88): `T` is the precision the evaluator works in. -/
structure Trig (T R : Type) where
  ofInt : Int → T
  ofNat : Nat → T
  pi : T
  mul : T → T → T
  div : T → T → T
  neg : T → T
  cosE : T → T
  sinE : T → T
  toR : T → R
deriving Inhabited

/-- The operations of an inner FFT capability of length `L` and its normalisation constant `c` (R174, R176). Each
operation is a total function of the `L` samples it is given and of nothing else; no rule of operation reads `c`. -/
structure InnerOps (R : Type) (L : Nat) where
  fwd : Vector (Sample R) L → Vector (Sample R) L
  inv : Vector (Sample R) L → Vector (Sample R) L
  c : R
deriving Inhabited

/-- The configuration record `Inner` (R170, R174): one capability. Its fixed length `L` is a power of two by
construction, so the record keeps the exponent. -/
structure Inner (R : Type) where
  lgL : Nat
  ops : InnerOps R (2 ^ lgL)

/-- The fixed length of a capability, "a power of two" (R170, R174). -/
abbrev Inner.L {R : Type} (inner : Inner R) : Nat := 2 ^ inner.lgL

/-- The forward operation (R172). -/
abbrev Inner.fwd {R : Type} (inner : Inner R) : Vector (Sample R) inner.L → Vector (Sample R) inner.L := inner.ops.fwd

/-- The inverse operation (R173). -/
abbrev Inner.inv {R : Type} (inner : Inner R) : Vector (Sample R) inner.L → Vector (Sample R) inner.L := inner.ops.inv

/-- The two precisions for which the spec states an error bound (R97). -/
inductive Precision where
  | single | double
deriving DecidableEq, Repr

/-- The two stated bounds of `TOL` (R6, R97): relative error below 1e-6 (single precision), 1e-12 (double precision). -/
def Precision.bound : Precision → ℚ
  | .single => 1 / 10 ^ 6
  | .double => 1 / 10 ^ 12

/-- What `TOL` leaves OPEN (R6, R97, I6). `errorBelow q computed reference` says that the relative error of a computed
sequence against a reference one, in the norm the source does not name, is below `q`; `withinTol computed reference` that
the two agree "within tolerance scaling with N and machine precision", whose form the source does not give. -/
structure Tol (R : Type) where
  errorBelow : ℚ → List (Sample R) → List (Sample R) → Bool
  withinTol : List (Sample R) → List (Sample R) → Bool
deriving Inhabited

/-- The OPEN parameters of an instance (R6): a model of the block takes them as one argument. -/
structure Params (R T : Type) where
  num : Num R
  trig : Trig T R
  inner : Inner R
  tol : Tol R

namespace Config

/-- `SIZE_W`, the width of size words and size registers: the spec's value (R6, I5; log 20). -/
def sizeW : Nat := 32

/-- `N_MAX = 2^(SIZE_W-2)` (R6). -/
def nMax : Nat := 2 ^ (sizeW - 2)

/-- The machine's number system: OPEN (R6, R8, I1; log 2). -/
opaque num : Num RealScalar

/-- The machine's trigonometric evaluator: OPEN (R6, R88, I2; log 2). -/
opaque trig : Trig TrigScalar RealScalar

/-- The operations of the capability the platform attaches when one of length `2^lgL` is asked for: OPEN, pure and total
(R174, I3, I4, I20; log 2, 30). -/
opaque innerOps : (lgL : Nat) → InnerOps RealScalar (2 ^ lgL)

/-- The open part of `TOL`; no operation reads it (R6, R97, I6; log 23). -/
opaque tol : Tol RealScalar

/-- A word the spec leaves unspecified (I9, I10, I11), the `n`-th one drawn. Log 5. -/
opaque freeWord : Nat → Word

/-- Sample `i` of the `n`-th block of samples the spec leaves unspecified (I11), over any carrier. Log 5. -/
opaque freeSample {R : Type} [Inhabited R] (n i : Nat) : Sample R

end Config

end Sys2Proof
end

