-- ==== Sys2Proof/Syntax.lean ====
section
/-! DEFINITION. The instructions: one constructor per row of spec/opcode_table.json. -/

namespace Sys2Proof

/-- The eight host commands (format H, R62, R63) and the ten micro-operations (format U, R64). -/
inductive Instr where
  /-- CONSTRUCT: `A0 = N`, `A1 = L`, `A2 = LEN_WF`, `A3 = LEN_WI`, `A4 = LEN_XF`, `A5 = LEN_XI`, `A6 = LEN_SCR`. -/
  | construct (n l lenWf lenWi lenXf lenXi lenScr : Word)
  | size
  /-- The five XFORM commands: `A0 = LEN_BUF`. -/
  | xformFft (lenBuf : Word)
  | xformIfft (lenBuf : Word)
  | xformUifft (lenBuf : Word)
  | xformSfft (lenBuf : Word)
  | xformSifft (lenBuf : Word)
  /-- ISIZE: `A0 = n`. -/
  | isize (n : Word)
  | xgen
  | wgen
  | wfwdF
  | wfwdI
  | mod
  | zpad
  | ifwd
  | fmul
  | iinv
  | demod
deriving DecidableEq, Repr, Inhabited

end Sys2Proof
end

