-- ==== Sys2Proof/Decode.lean ====
section
/-! DEFINITION. The codes of 10_state and 30_encoding: phase, kind and cause codes, the decoder of host command frames
(format H) and of micro-operation codes (format U), total and rejecting by name, and the encoder. -/

namespace Sys2Proof

/-- The codes of `PHASE` (R14). -/
def Phase.code : Phase → BitVec 4
  | .uncon => 0
  | .cXgen => 1
  | .cWgen => 2
  | .cWfwdF => 3
  | .cWfwdI => 4
  | .idle => 5
  | .tMod => 6
  | .tZpad => 7
  | .tIfwd => 8
  | .tFmul => 9
  | .tIinv => 10
  | .tDemod => 11
  | .fatal => 15

/-- The TransformKind codes (R66). -/
def Kind.code : Kind → BitVec 3
  | .fft => 0
  | .ifft => 1
  | .uifft => 2
  | .sfft => 3
  | .sifft => 4

/-- The cause codes written to `FCODE` (R186). -/
def FatalCode.code : FatalCode → BitVec 4
  | .noStop => 0
  | .lengthMismatch => 1
  | .innerSizeMismatch => 2
  | .reentrant => 3
  | .badSize => 4
  | .notConstructed => 5
  | .alreadyConstructed => 6
  | .illegalCmd => 7

/-! The legal command bytes (R63). -/

def Cmd.construct : Byte := 0x10#8
def Cmd.size : Byte := 0x20#8
def Cmd.fft : Byte := 0x30#8
def Cmd.ifft : Byte := 0x31#8
def Cmd.uifft : Byte := 0x32#8
def Cmd.sfft : Byte := 0x33#8
def Cmd.sifft : Byte := 0x34#8
def Cmd.isize : Byte := 0x40#8

/-- The fields of `CMD` (R61): `op` is bits 7:4, `z` bit 3, `kind` bits 2:0. -/
def Cmd.op (cmd : Byte) : BitVec 4 := cmd.extractLsb' 4 4
def Cmd.z (cmd : Byte) : Bool := cmd.getLsbD 3
def Cmd.kind (cmd : Byte) : BitVec 3 := cmd.extractLsb' 0 3

/-- The number of operand words the opcode fixes (R62, R68); `none` for a byte that is no command (R67). -/
def Cmd.operandWords (cmd : Byte) : Option Nat :=
  if cmd = Cmd.construct then some 7
  else if cmd = Cmd.size then some 0
  else if cmd = Cmd.fft then some 1
  else if cmd = Cmd.ifft then some 1
  else if cmd = Cmd.uifft then some 1
  else if cmd = Cmd.sfft then some 1
  else if cmd = Cmd.sifft then some 1
  else if cmd = Cmd.isize then some 1
  else none

/-- Why the decoder refuses. -/
inductive DecodeError where
  /-- `CMD` is not in the opcode map (R63, R67): the engine raises `Fatal(ILLEGAL_CMD)` (R190). -/
  | illegalCmd (cmd : Byte)
  /-- A legal `CMD` with another number of operand words than R62 fixes: not a frame (R60; log 13). -/
  | operandCount (cmd : Byte)
  /-- A phase code that selects no micro-operation (R64). -/
  | noMicroOp (code : BitVec 4)
deriving DecidableEq, Repr

/-- The one operand of an XFORM or ISIZE frame, used as it stands (R65). -/
def decodeOne (cmd : Byte) (ops : List Word) (mk : Word → Instr) : Except DecodeError Instr :=
  match ops with
  | [a0] => .ok (mk a0)
  | _ => .error (.operandCount cmd)

/-- Format H (R60 to R63): all eight bits of `CMD` are matched. -/
def decode (f : Frame) : Except DecodeError Instr :=
  if f.cmd = Cmd.construct then
    match f.ops with
    | [a0, a1, a2, a3, a4, a5, a6] => .ok (.construct a0 a1 a2 a3 a4 a5 a6)
    | _ => .error (.operandCount f.cmd)
  else if f.cmd = Cmd.size then
    match f.ops with
    | [] => .ok .size
    | _ => .error (.operandCount f.cmd)
  else if f.cmd = Cmd.fft then decodeOne f.cmd f.ops .xformFft
  else if f.cmd = Cmd.ifft then decodeOne f.cmd f.ops .xformIfft
  else if f.cmd = Cmd.uifft then decodeOne f.cmd f.ops .xformUifft
  else if f.cmd = Cmd.sfft then decodeOne f.cmd f.ops .xformSfft
  else if f.cmd = Cmd.sifft then decodeOne f.cmd f.ops .xformSifft
  else if f.cmd = Cmd.isize then decodeOne f.cmd f.ops .isize
  else .error (.illegalCmd f.cmd)

/-- Format U (R64): the micro-operation a 4-bit phase code selects. -/
def decodeMicro (code : BitVec 4) : Except DecodeError Instr :=
  if code = 0b0001#4 then .ok .xgen
  else if code = 0b0010#4 then .ok .wgen
  else if code = 0b0011#4 then .ok .wfwdF
  else if code = 0b0100#4 then .ok .wfwdI
  else if code = 0b0110#4 then .ok .mod
  else if code = 0b0111#4 then .ok .zpad
  else if code = 0b1000#4 then .ok .ifwd
  else if code = 0b1001#4 then .ok .fmul
  else if code = 0b1010#4 then .ok .iinv
  else if code = 0b1011#4 then .ok .demod
  else .error (.noMicroOp code)

/-- An instruction's code in its format: a frame (H) or a phase code (U). -/
inductive Code where
  | h (f : Frame)
  | u (code : BitVec 4)
deriving DecidableEq, Repr

/-- The whole decoder. -/
def decodeCode : Code → Except DecodeError Instr
  | .h f => decode f
  | .u c => decodeMicro c

/-- The encoder, from R62, R63 and R64. -/
def encode : Instr → Code
  | .construct n l lenWf lenWi lenXf lenXi lenScr =>
    .h ⟨Cmd.construct, [n, l, lenWf, lenWi, lenXf, lenXi, lenScr]⟩
  | .size => .h ⟨Cmd.size, []⟩
  | .xformFft lenBuf => .h ⟨Cmd.fft, [lenBuf]⟩
  | .xformIfft lenBuf => .h ⟨Cmd.ifft, [lenBuf]⟩
  | .xformUifft lenBuf => .h ⟨Cmd.uifft, [lenBuf]⟩
  | .xformSfft lenBuf => .h ⟨Cmd.sfft, [lenBuf]⟩
  | .xformSifft lenBuf => .h ⟨Cmd.sifft, [lenBuf]⟩
  | .isize n => .h ⟨Cmd.isize, [n]⟩
  | .xgen => .u 0b0001#4
  | .wgen => .u 0b0010#4
  | .wfwdF => .u 0b0011#4
  | .wfwdI => .u 0b0100#4
  | .mod => .u 0b0110#4
  | .zpad => .u 0b0111#4
  | .ifwd => .u 0b1000#4
  | .fmul => .u 0b1001#4
  | .iinv => .u 0b1010#4
  | .demod => .u 0b1011#4

/-- The micro-operation `PHASE` selects (R14, R64); none at the rest phases UNCON, IDLE and FATAL. -/
def Phase.microOp (p : Phase) : Option Instr := (decodeMicro p.code).toOption

/-- The phase with a given code (R14); none for the reserved codes 12, 13, 14. -/
def phaseOfCode (code : BitVec 4) : Option Phase :=
  if code = Phase.uncon.code then some .uncon
  else if code = Phase.cXgen.code then some .cXgen
  else if code = Phase.cWgen.code then some .cWgen
  else if code = Phase.cWfwdF.code then some .cWfwdF
  else if code = Phase.cWfwdI.code then some .cWfwdI
  else if code = Phase.idle.code then some .idle
  else if code = Phase.tMod.code then some .tMod
  else if code = Phase.tZpad.code then some .tZpad
  else if code = Phase.tIfwd.code then some .tIfwd
  else if code = Phase.tFmul.code then some .tFmul
  else if code = Phase.tIinv.code then some .tIinv
  else if code = Phase.tDemod.code then some .tDemod
  else if code = Phase.fatal.code then some .fatal
  else none

/-- Word `k` of an instruction whose bits are `w`, after the command byte (log 19). -/
def operandOfBits (w k : Nat) : Word := BitVec.ofNat 32 (w >>> (8 + 32 * k))

/-- The frame whose command byte is the low 8 bits of `w` and whose operand words follow it (log 19). A byte that
is no command is taken with no operand word. -/
def frameOfBits (w : Nat) : Frame :=
  let cmd := BitVec.ofNat 8 w
  ⟨cmd, (List.range ((Cmd.operandWords cmd).getD 0)).map (operandOfBits w)⟩

/-- The code a row of spec/opcode_table.json numbers `w`: a format U row's 4 bits select a micro-operation, any other
number is a format H frame. No format U row's number is a legal command byte (log 19). -/
def codeOfBits (nbits w : Nat) : Code :=
  let v := w % 2 ^ nbits
  match decodeMicro (BitVec.ofNat 4 v) with
  | .ok _ => if v < 16 then .u (BitVec.ofNat 4 v) else .h (frameOfBits v)
  | .error _ => .h (frameOfBits v)

/-- The instruction the decoder reads from a table row's bits. -/
def decodeTableWord (nbits w : Nat) : Option Instr := (decodeCode (codeOfBits nbits w)).toOption

end Sys2Proof
end

