-- ==== Sys2Proof/Machine/Datapath.lean ====
section
/-! DEFINITION. The datapath primitives of 40_primitives and the table formulas of 41_precompute: pure functions of
their operands and of the configuration records, over any number system. -/

namespace Sys2Proof.Machine

variable {R T : Type}

/-- The zero sample (R41, R80). -/
def czero (num : Num R) : Sample R := ⟨num.zero, num.zero⟩

/-- The unit sample (R80). -/
def cone (num : Num R) : Sample R := ⟨num.one, num.zero⟩

/-- The conjugator (R83). -/
def conj (num : Num R) (z : Sample R) : Sample R := ⟨z.re, num.neg z.im⟩

/-- The scaler's datapath (R85). -/
def rscale (num : Num R) (z : Sample R) (s : R) : Sample R := ⟨num.mul z.re s, num.mul z.im s⟩

/-- The complex multiplier (R86): four products, one subtraction, one addition, none fused. -/
def cmul (num : Num R) (a b : Sample R) : Sample R :=
  ⟨num.sub (num.mul a.re b.re) (num.mul a.im b.im), num.add (num.mul a.re b.im) (num.mul a.im b.re)⟩

/-- The angle of `halfTwiddle`, formed left to right from the exact index (R89, R90). -/
def theta (trig : Trig T R) (index : Int) (size : Nat) : T :=
  trig.div (trig.mul (trig.ofInt index) trig.pi) (trig.ofNat size)

/-- The trigonometric evaluator (R89). -/
def halfTwiddle (trig : Trig T R) (index : Int) (size : Nat) : Sample R :=
  ⟨trig.toR (trig.cosE (theta trig index size)), trig.toR (trig.neg (trig.sinE (theta trig index size)))⟩

/-- The scale factor (R92). -/
def scale (num : Num R) (k : Kind) (n : Nat) : R :=
  match k with
  | .fft => num.one
  | .uifft => num.one
  | .ifft => num.div num.one (num.ofNat n)
  | .sfft => num.div num.one (num.sqrt (num.ofNat n))
  | .sifft => num.div num.one (num.sqrt (num.ofNat n))

/-- The doubling loop of `innerSize` (R94): `while p < bound: p <- 2*p`, at most `fuel` times. -/
def doubleUntil (bound : Nat) : (fuel p : Nat) → Nat
  | 0, p => p
  | fuel + 1, p => if p < bound then doubleUntil bound fuel (2 * p) else p

/-- The inner-size utility (R94). `SIZE_W` doublings are enough on the whole domain `1 <= n <= N_MAX` (R96). -/
def innerSize (n : Nat) : Nat := doubleUntil (2 * n - 1) Config.sizeW 1

/-- `A0 = 0 or A0 > N_MAX` (R131, R134, R188). -/
def badSize (n : Nat) : Bool := n == 0 || decide (Config.nMax < n)

/-- The index partition of the w-tables (R112), the low range tested first. -/
def widx (n m i : Nat) : Option Int :=
  if i < n then some ((i : Int) * (i : Int))
  else if m - n < i then some (((i : Int) - (m : Int)) * ((i : Int) - (m : Int)))
  else none

/-- Entry `i` of the x-inverse table (R110). -/
def xiEntry (trig : Trig T R) (n i : Nat) : Sample R := halfTwiddle trig (-((i : Int) * (i : Int))) n

/-- Entry `i` of the x-forward table (R110). -/
def xfEntry (num : Num R) (trig : Trig T R) (n i : Nat) : Sample R := conj num (xiEntry trig n i)

/-- Entry `i` of the w-inverse table in the time domain (R113). -/
def wiEntry (num : Num R) (trig : Trig T R) (n m i : Nat) : Sample R :=
  match widx n m i with
  | some k => halfTwiddle trig k n
  | none => czero num

/-- Entry `i` of the w-forward table in the time domain (R113). -/
def wfEntry (num : Num R) (trig : Trig T R) (n m i : Nat) : Sample R :=
  match widx n m i with
  | some k => conj num (halfTwiddle trig k n)
  | none => czero num

/-- Step 1, the modulator's products (R151): the x-table operand first. -/
def modulate (num : Num R) {n : Nat} (x u : Vector (Sample R) n) : Vector (Sample R) n :=
  Vector.ofFn fun i => cmul num x[i] u[i]

/-- Step 4, the frequency multiplier's products (R154): the scratch operand first. -/
def freqMultiply (num : Num R) {m : Nat} (b w : Vector (Sample R) m) : Vector (Sample R) m :=
  Vector.ofFn fun i => cmul num b[i] w[i]

/-- Step 6, the demodulator and the scaler (R156): the complex product first, the scratch operand first, then the
real factor. -/
def demodulate (num : Num R) {n : Nat} (e x : Vector (Sample R) n) (s : R) : Vector (Sample R) n :=
  Vector.ofFn fun i => rscale num (cmul num e[i] x[i]) s

end Sys2Proof.Machine
end

