-- ==== Sys2Proof/Machine/State.lean ====
section
/-! DEFINITION. The state of one engine instance (R10), the host's and INNER's pending moves, the reasons a step can
stop, and the state after reset (R33). -/

namespace Sys2Proof.Machine

/-- One listed element of a memory space: its index and its sample (R40, R41). -/
abbrev Cell (R : Type) := Nat × Sample R

/-- A memory space (R40): the elements that hold a value, indices strictly rising. An index that is not listed holds
no value (R30; log 4). -/
abbrev Memory (R : Type) := List (Cell R)

/-- One ComplexSample of the fixed machine (R80). -/
abbrev C := Sample RealScalar

/-- A host action of R69 that acts on the block or on BUF. -/
inductive HostAction (R : Type := RealScalar) where
  | frame (f : Frame)
  | reset
  | writeBuf (len : Word) (contents : List (Sample R))
  | readBuf
  | readCsr (k : Fin 8)
deriving DecidableEq, Repr

/-- A move of HOST or of INNER that lands while a command is in progress, and how long it waits for its moment (log 11):
INNER presents a nested frame during an inner invocation, after `wait` more invocations have returned (R5, R171, R191); HOST
acts in any busy phase, after `wait` more micro-operations have run (R22, R191, R210). -/
inductive Arrival (R : Type := RealScalar) where
  | inner (wait : Nat) (f : Frame)
  | host (wait : Nat) (a : HostAction R)
deriving DecidableEq, Repr

/-- One line of a script (R69): an action HOST takes when the engine is at rest, or one it announces for later. -/
inductive ScriptLine (R : Type := RealScalar) where
  | act (a : HostAction R)
  | later (w : Arrival R)
deriving DecidableEq, Repr

/-- `NEST f` (R69): INNER presents `f` during the next inner invocation. -/
def ScriptLine.nest {R : Type} (f : Frame) : ScriptLine R := .later (.inner 0 f)

/-- What a read of a status-port register delivers (R22), each at its own width. -/
inductive PortValue where
  | status (v : BitVec 8)
  | n (v : Word)
  | m (v : Word)
  | kind (v : BitVec 3)
  | fcode (v : BitVec 4)
  | fcmd (v : BitVec 8)
  | result (v : Word)
  | reserved (v : Word)
deriving DecidableEq, Repr

/-- One thing HOST has read (R69 RDCSR, RDBUF). -/
inductive HostRead (R : Type := RealScalar) where
  | csr (v : PortValue)
  | buf (contents : List (Sample R))
deriving DecidableEq, Repr

/-- Why a run is refuted. -/
inductive Fault where
  /-- Element `i` of space `sp` is read and holds no value (R30, R44, R218, I8). Raised by every operation that reads
  a memory space: the micro-operations that read one, and HOST's read of BUF. SAFE: the block would use whatever the
  storage held. -/
  | noValue (sp : Space) (i : Nat)
deriving DecidableEq, Repr

/-- Why the model declines a move. -/
inductive Refusal where
  /-- An instruction without a meaning yet. Raised by `exec`'s arms only; no arm does. SAFE. -/
  | notModelled (mnemonic : String)
  /-- A legal command byte with another number of operand words than R62 fixes: no frame of the spec (R60). Raised
  when a frame is presented outside FATAL. SAFE. Log 13. -/
  | malformedFrame (cmd : Byte)
  /-- HOST reads or writes BUF while `GUARD = 1` (R42, R217, I15). Raised by WRBUF and RDBUF. SAFE. Log 16. -/
  | hostBufWhileGuarded
  /-- A CONSTRUCT that passes its checks while its `A1` is not the length the attached capability reports: a false
  declaration, "outside every rule" (R131, R171, R216, I16). Raised by CONSTRUCT of the generic machine, whose capability
  is given; never by the fixed machine, where the frame hands its capability over. SAFE. Log 30. -/
  | falseInnerLength
  /-- A WRBUF line whose number of samples is not its length (R69). Raised by WRBUF. SAFE. Log 16. -/
  | malformedWriteBuf
deriving DecidableEq, Repr

/-- The whole state of one engine instance (R10), and below it the model's own fields. The carrier of real numbers is a
parameter (R6, R8); `State` without one is the state of the fixed machine, whose scalars are `RealScalar` (log 1). -/
structure State (R : Type := RealScalar) where
  /-- `N` (R11). -/
  n : Word
  /-- `M` (R12). -/
  m : Word
  /-- `KIND` (R13). -/
  kind : Kind
  /-- `SCALE` (R16). -/
  scale : R
  /-- `RESULT` (R17). -/
  result : Word
  /-- `PHASE` (R14). -/
  phase : Phase
  /-- `GUARD` (R18). -/
  guard : Bool
  /-- `FCODE` (R20). -/
  fcode : FatalCode
  /-- `FCMD` (R21). -/
  fcmd : Byte
  /-- `N` and `M` hold a value (R22, R30). -/
  sizesHeld : Bool
  /-- `KIND` and `SCALE` hold a value (R22, R30). -/
  kindHeld : Bool
  /-- `RESULT` holds a value (R22, R30). -/
  resultHeld : Bool
  /-- The table memories (R23, R24). -/
  xf : Memory R
  xi : Memory R
  wf : Memory R
  wi : Memory R
  /-- The scratch buffer (R25). -/
  scr : Memory R
  /-- The caller buffer and the length of the buffer HOST made last (R26, R69). -/
  buf : Memory R
  bufLen : Word
  /-- MODEL: the script lines still to come, in order, each waiting for the engine to be at rest (R224; log 10). -/
  script : List (ScriptLine R)
  /-- MODEL: the moves that land while a command is in progress (log 11). -/
  arrivals : List (Arrival R)
  /-- MODEL: what HOST has read so far, oldest first (log 10). -/
  reads : List (HostRead R)
  /-- MODEL: how many free values have been drawn (log 5). -/
  draws : Nat
deriving DecidableEq, Repr

/-- The state after reset (R33, R210, R211). The registers the spec says hold no value carry the values of log 3 and
the mark that they hold none; BUF has not been written; nothing is pending. `zero` is the number system's zero (log 3). -/
def State.initial {R : Type} (zero : R) : State R where
  n := 0#32
  m := 0#32
  kind := .fft
  scale := zero
  result := 0#32
  phase := .uncon
  guard := false
  fcode := .noStop
  fcmd := 0x00#8
  sizesHeld := false
  kindHeld := false
  resultHeld := false
  xf := []
  xi := []
  wf := []
  wi := []
  scr := []
  buf := []
  bufLen := 0#32
  script := []
  arrivals := []
  reads := []
  draws := 0

/-- The fixed machine after reset. -/
def State.reset : State := State.initial Config.num.zero

/-- An answer of the machine. -/
abbrev Result (R : Type := RealScalar) := Host.Outcome (State R) Fault Refusal

end Sys2Proof.Machine
end

