-- ==== Sys2Proof/Machine/Ops.lean ====
section
/-! DEFINITION. The shared operations over memory spaces and registers: the access primitives of 20_memory, the state
updates, the fatal stop (R192) and what it leaves of a command in progress (R198), reset (R210). -/

namespace Sys2Proof.Machine

variable {R : Type}

/-! The access primitives (R44, R45). -/

/-- `MemRead(S, i)`: the sample last written to index `i`; `none` where the element holds no value (R30, R44). -/
def Memory.read : Memory R → Nat → Option (Sample R)
  | [], _ => none
  | (j, v) :: mem, i => if i = j then some v else Memory.read mem i

/-- `MemWrite(S, i, v)` (R45), keeping the indices strictly rising. -/
def Memory.write : Memory R → Nat → Sample R → Memory R
  | [], i, v => [(i, v)]
  | (j, w) :: mem, i, v =>
    if i < j then (i, v) :: (j, w) :: mem
    else if i = j then (i, v) :: mem
    else (j, w) :: Memory.write mem i v

/-- `for i in [lo, lo + |vs|): S[i] <- vs[i - lo]` (R160: the order of the writes is not observable). -/
def Memory.writeFrom (mem : Memory R) (lo : Nat) : List (Sample R) → Memory R
  | [] => mem
  | v :: vs => Memory.writeFrom (Memory.write mem lo v) (lo + 1) vs

/-- The elements `[0, n)` of a space; the first index that holds no value where there is one (R30, R44). -/
def Memory.readRange (mem : Memory R) : (n : Nat) → Except Nat (Vector (Sample R) n)
  | 0 => .ok #v[]
  | n + 1 =>
    match Memory.readRange mem n with
    | .error i => .error i
    | .ok vs =>
      match Memory.read mem n with
      | none => .error n
      | some v => .ok (vs.push v)

/-- Every element that holds a value now holds `f` of its index. -/
def Memory.replaceWith (mem : Memory R) (f : Nat → Sample R) : Memory R := mem.map fun c => (c.1, f c.1)

/-- The one canonical form: indices strictly rising. -/
abbrev Memory.wf (mem : Memory R) : Prop := mem.Pairwise fun a b => a.1 < b.1

/-! State updates, each of one kind of register. -/

/-- The content of a space (R40). -/
def State.space (s : State R) : Space → Memory R
  | .buf => s.buf
  | .scr => s.scr
  | .xf => s.xf
  | .xi => s.xi
  | .wf => s.wf
  | .wi => s.wi

def State.setSpace (s : State R) (sp : Space) (mem : Memory R) : State R :=
  match sp with
  | .buf => { s with buf := mem }
  | .scr => { s with scr := mem }
  | .xf => { s with xf := mem }
  | .xi => { s with xi := mem }
  | .wf => { s with wf := mem }
  | .wi => { s with wi := mem }

def State.setPhase (s : State R) (p : Phase) : State R := { s with phase := p }

def State.setGuard (s : State R) (g : Bool) : State R := { s with guard := g }

/-- `N <- n; M <- m` (R11, R12). -/
def State.setSizes (s : State R) (n m : Word) : State R := { s with n := n, m := m, sizesHeld := true }

/-- `KIND <- k; SCALE <- x` (R13, R16). -/
def State.setKind (s : State R) (k : Kind) (x : R) : State R :=
  { s with kind := k, scale := x, kindHeld := true }

/-- `RESULT <- w` (R17). -/
def State.setResult (s : State R) (w : Word) : State R := { s with result := w, resultHeld := true }

/-- `FCODE <- code; FCMD <- cmd` (R20, R21). -/
def State.setCause (s : State R) (code : FatalCode) (cmd : Byte) : State R := { s with fcode := code, fcmd := cmd }

/-- `k` free values have been used (log 5). -/
def State.draw (s : State R) (k : Nat) : State R := { s with draws := s.draws + k }

def State.setScript (s : State R) (l : List (ScriptLine R)) : State R := { s with script := l }

def State.setArrivals (s : State R) (l : List (Arrival R)) : State R := { s with arrivals := l }

def State.logRead (s : State R) (r : HostRead R) : State R := { s with reads := s.reads ++ [r] }

/-- HOST makes BUF a buffer of `len` elements (R26, R69). -/
def State.replaceBuf (s : State R) (len : Word) (mem : Memory R) : State R := { s with buf := mem, bufLen := len }

/-- Write consecutive elements of a space from index `lo`. -/
def State.store (s : State R) (sp : Space) (lo : Nat) (vs : List (Sample R)) : State R :=
  s.setSpace sp ((s.space sp).writeFrom lo vs)

/-! Reading a space. -/

/-- Read `[0, n)` of a space and go on with it; a model fault where an element holds no value (R30, I8). -/
def withRange (s : State R) (sp : Space) (n : Nat) (k : Vector (Sample R) n → Result R) : Result R :=
  match (s.space sp).readRange n with
  | .ok vs => k vs
  | .error i => .fault (.noValue sp i)

/-! The fatal stop. -/

section
variable [Inhabited R]

/-- The elements of a space that hold a value now hold unspecified ones (R198, I11; log 7). -/
def State.forget (s : State R) (sp : Space) : State R :=
  (s.setSpace sp ((s.space sp).replaceWith (Config.freeSample s.draws))).draw 1

/-- What a fatal stop leaves of a command in progress (R192, R198): SCR, BUF and the table being transformed are
unspecified. Nothing happens when no command is in progress. Log 7. -/
def State.abandon (s : State R) : State R :=
  if s.guard then
    match s.phase with
    | .cWfwdF => ((s.forget .scr).forget .buf).forget .wf
    | .cWfwdI => ((s.forget .scr).forget .buf).forget .wi
    | _ => (s.forget .scr).forget .buf
  else s

/-- `raise Fatal(code)` for the frame with command byte `cmd` (R192): the cause is recorded, `PHASE <- FATAL`, GUARD
keeps its value, and a command in progress is abandoned. There is no return from it but reset (R194). -/
def raiseFatal (code : FatalCode) (cmd : Byte) (s : State R) : State R :=
  (s.abandon.setCause code cmd).setPhase .fatal

/-- The checks of a command in their order: the cause of the first that fails (R130 (3), R196). -/
def firstFailing : List (Bool × FatalCode) → Option FatalCode
  | [] => none
  | (fails, code) :: rest => if fails then some code else firstFailing rest

/-- How SEQ treats a legal frame (R130): ignored in FATAL; the first failing check stops the engine; otherwise the
frame is accepted and its effect follows. -/
def command (cmd : Byte) (checks : List (Bool × FatalCode)) (effect : State R → Result R) (s : State R) : Result R :=
  if s.phase = .fatal then .next s
  else match firstFailing checks with
    | some code => .next (raiseFatal code cmd s)
    | none => effect s

end

/-! Reset. -/

/-- The reset input (R210, R33): every piece of engine state at its reset value, BUF untouched; HOST's own pending
moves and what it has read are not the engine's (log 10, 24). -/
def State.assertReset (zero : R) (s : State R) : State R :=
  { State.initial zero with
    buf := s.buf, bufLen := s.bufLen, script := s.script, arrivals := s.arrivals, reads := s.reads, draws := s.draws }

end Sys2Proof.Machine
end

