-- ==== Sys2Proof/Machine/Flags.lean ====
section
/-! DEFINITION. The one flag, GUARD (R18), the classes of phases it goes with (R14), and the STATUS view (R19). There
are no arithmetic flags (R18, R207). -/

namespace Sys2Proof

/-- The phases of CONSTRUCT, `C_*` (R14). -/
def Phase.constructing : Phase → Bool
  | .cXgen | .cWgen | .cWfwdF | .cWfwdI => true
  | _ => false

/-- The phases of an XFORM, `T_*` (R14). -/
def Phase.transforming : Phase → Bool
  | .tMod | .tZpad | .tIfwd | .tFmul | .tIinv | .tDemod => true
  | _ => false

/-- A command is in progress: the phases in which `GUARD = 1` (R18). -/
def Phase.busy (p : Phase) : Bool := p.constructing || p.transforming

/-- The four invocation phases, in which INNER runs (R191). -/
def Phase.invoking : Phase → Bool
  | .cWfwdF | .cWfwdI | .tIfwd | .tIinv => true
  | _ => false

namespace Machine

variable {R : Type}

/-- `READY = (PHASE == IDLE)` (R19). -/
def State.ready (s : State R) : Bool := s.phase == .idle

/-- `FATALF = (PHASE == FATAL)` (R19). -/
def State.fatalF (s : State R) : Bool := s.phase == .fatal

/-- `STATUS` (R19): bit 7 is 0, bit 6 FATALF, bit 5 READY, bit 4 GUARD, bits 3:0 PHASE. -/
def State.status (s : State R) : BitVec 8 :=
  0#1 ++ BitVec.ofBool s.fatalF ++ BitVec.ofBool s.ready ++ BitVec.ofBool s.guard ++ s.phase.code

/-- Acceptance sets the guard and enters the command's first phase (R18, R131, R135). -/
def State.begin (s : State R) (p : Phase) : State R := (s.setGuard true).setPhase p

/-- Completion of a CONSTRUCT or an XFORM (R115, R156, R199): `PHASE <- IDLE; GUARD <- 0`. -/
def State.complete (s : State R) : State R := (s.setPhase .idle).setGuard false

end Machine

end Sys2Proof
end

