-- ==== Sys2Proof/Machine/Operands.lean ====
section
/-! DEFINITION. The operands of the micro-operations: the pass bounds, the selected table pair (R66, R137), and the
invocation of INNER on a space (R172, R173). The one addressing mode is the direct element index (R56). -/

namespace Sys2Proof.Machine

variable {R : Type}

/-- The direction of a kind (R66): `k == 0 or k == 3`. -/
def isForward : Kind → Bool
  | .fft | .sfft => true
  | .ifft | .uifft | .sifft => false

/-- The scale classes (R66). -/
inductive ScaleClass where
  | one | invN | invSqrtN
deriving DecidableEq, Repr

/-- The scale class of a kind (R66). -/
def scaleClass : Kind → ScaleClass
  | .fft | .uifft => .one
  | .ifft => .invN
  | .sfft | .sifft => .invSqrtN

/-- The bound `N` of the passes XGEN, MOD, DEMOD (R11). -/
abbrev State.sizeN (s : State R) : Nat := s.n.toNat

/-- The bound `M` of the passes WGEN, FMUL, and the length of the buffer handed to INNER (R12). -/
abbrev State.sizeM (s : State R) : Nat := s.m.toNat

/-- The selected x-table `X` (R137). -/
def State.xTable (s : State R) : Space := if isForward s.kind then .xf else .xi

/-- The selected w-table `W` (R137). -/
def State.wTable (s : State R) : Space := if isForward s.kind then .wf else .wi

/-- The capability a CONSTRUCT hands over (R225), by the length `A1` the frame gives: `A1 = Inner.L` (R131, R171) for
every power of two. A word that is no power of two is the length of no capability, and CONSTRUCT's check of `A1` fails
whatever stands here for it (log 30). -/
def capabilityOf (a1 : Word) : Inner RealScalar := ⟨Nat.log2 a1.toNat, Config.innerOps (Nat.log2 a1.toNat)⟩

/-- The fixed machine's parameters while the capability of length `a1` is attached (R6). -/
def paramsOf (a1 : Word) : Params RealScalar TrigScalar := ⟨Config.num, Config.trig, capabilityOf a1, Config.tol⟩

/-- The capability attached to a constructed fixed machine: the one CONSTRUCT handed over, whose length is `M` (R29,
R131). -/
abbrev State.attached (s : State) : Inner RealScalar := capabilityOf s.m

/-- The samples of an array in index order, one list cell for each index. -/
def samples {n : Nat} (v : Vector (Sample R) n) : List (Sample R) := List.ofFn fun i : Fin n => v[i]

/-- `invoke INNER` on the `M` elements of a space (R172, R173): all of them are read, and all are replaced by what the
operation gives; then the sequencer goes on with `k`. Nested frames are presented before this step (log 11). In a
constructed engine `M = L` (R29); on a space of another length the spec gives no result, so every element of it becomes a
free value (log 31). -/
def invoke [Inhabited R] (inner : Inner R) (op : Vector (Sample R) inner.L → Vector (Sample R) inner.L) (sp : Space)
    (k : State R → State R) (s : State R) : Result R :=
  if s.sizeM = inner.L then
    withRange s sp inner.L fun z => .next (k (s.store sp 0 (samples (op z))))
  else
    withRange s sp s.sizeM fun _ =>
      .next (k ((s.store sp 0 ((List.range s.sizeM).map (Config.freeSample s.draws))).draw 1))

end Sys2Proof.Machine
end

