-- ==== Sys2Proof/Machine/Engine.lean ====
section
/-! DEFINITION. The meanings of the eight host commands (42_engine): each first over any number system and capability, then
as the fixed machine has it. -/

namespace Sys2Proof.Machine

variable {R : Type}

/-- The checks of CONSTRUCT in their order (R131, R196). -/
def constructChecks (n l lenWf lenWi lenXf lenXi lenScr : Word) (s : State R) : List (Bool × FatalCode) :=
  let m := innerSize n.toNat
  [(s.guard, .reentrant),
   (s.phase != .uncon, .alreadyConstructed),
   (badSize n.toNat, .badSize),
   (l.toNat != m, .innerSizeMismatch),
   (lenWf.toNat != m || lenWi.toNat != m || lenXf != n || lenXi != n || lenScr.toNat != m, .lengthMismatch)]

/-- CONSTRUCT (R131) of an engine whose capability reports the length `innerL`, for which `A1 = Inner.L` stands in a true
frame. A frame that passes its checks and declares another length is refused (R216, I16; log 30). The micro-operations
follow, one a step (R146; log 9). -/
def construct [Inhabited R] (innerL : Nat) (n l lenWf lenWi lenXf lenXi lenScr : Word) (s : State R) : Result R :=
  command Cmd.construct (constructChecks n l lenWf lenWi lenXf lenXi lenScr s)
    (fun s =>
      if l.toNat = innerL then .next ((s.setSizes n (BitVec.ofNat 32 (innerSize n.toNat))).begin .cXgen)
      else .refused .falseInnerLength) s

/-- CONSTRUCT (R131); the frame hands over the capability of length `A1` (R225). -/
def execConstruct (n l lenWf lenWi lenXf lenXi lenScr : Word) (s : State) : Result :=
  construct (capabilityOf l).L n l lenWf lenWi lenXf lenXi lenScr s

/-- SIZE (R133): GUARD is neither tested nor changed. -/
def reportSize [Inhabited R] (s : State R) : Result R :=
  command Cmd.size [(s.phase == .uncon, .notConstructed)] (fun s => .next (s.setResult s.n)) s

/-- SIZE (R133). -/
def execSize (s : State) : Result := reportSize s

/-- ISIZE (R134): reads no engine state. -/
def reportInnerSize [Inhabited R] (n : Word) (s : State R) : Result R :=
  command Cmd.isize [(badSize n.toNat, .badSize)]
    (fun s => .next (s.setResult (BitVec.ofNat 32 (innerSize n.toNat)))) s

/-- ISIZE (R134). -/
def execIsize (n : Word) (s : State) : Result := reportInnerSize n s

/-- The checks of XFORM in their order (R135, R196). -/
def xformChecks (lenBuf : Word) (s : State R) : List (Bool × FatalCode) :=
  [(s.guard, .reentrant), (s.phase == .uncon, .notConstructed), (lenBuf != s.n, .lengthMismatch)]

/-- XFORM acceptance, common to the five kinds (R135). The six micro-operations follow, one a step (R146; log 9). -/
def xform [Inhabited R] (num : Num R) (cmd : Byte) (k : Kind) (lenBuf : Word) (s : State R) : Result R :=
  command cmd (xformChecks lenBuf s) (fun s => .next ((s.setKind k (scale num k s.sizeN)).begin .tMod)) s

/-- XFORM.FFT (R138). -/
def execXformFft (lenBuf : Word) (s : State) : Result := xform Config.num Cmd.fft .fft lenBuf s

/-- XFORM.IFFT (R139). -/
def execXformIfft (lenBuf : Word) (s : State) : Result := xform Config.num Cmd.ifft .ifft lenBuf s

/-- XFORM.UIFFT (R140). -/
def execXformUifft (lenBuf : Word) (s : State) : Result := xform Config.num Cmd.uifft .uifft lenBuf s

/-- XFORM.SFFT (R141). -/
def execXformSfft (lenBuf : Word) (s : State) : Result := xform Config.num Cmd.sfft .sfft lenBuf s

/-- XFORM.SIFFT (R142). -/
def execXformSifft (lenBuf : Word) (s : State) : Result := xform Config.num Cmd.sifft .sifft lenBuf s

end Sys2Proof.Machine
end

