-- ==== Sys2Proof/Machine/Executor.lean ====
section
/-! DEFINITION. The meanings of the transform executor's micro-operations (43_executor): each first over any number system and
capability, then as the fixed machine has it. A micro-operation is selected by PHASE (R64); its meaning does not test PHASE
again (log 18). -/

namespace Sys2Proof.Machine

variable {R : Type}

/-- MOD, step 1 (R151): the complex modulator. -/
def modulateBuf (num : Num R) (s : State R) : Result R :=
  withRange s s.xTable s.sizeN fun x =>
  withRange s .buf s.sizeN fun u =>
    .next ((s.store .scr 0 (samples (modulate num x u))).setPhase .tZpad)

/-- MOD (R151). -/
def execMod (s : State) : Result := modulateBuf Config.num s

/-- ZPAD, step 2 (R152): the zero-padder. -/
def zeroPad (num : Num R) (s : State R) : Result R :=
  .next ((s.store .scr s.sizeN (List.replicate (s.sizeM - s.sizeN) (czero num))).setPhase .tIfwd)

/-- ZPAD (R152). -/
def execZpad (s : State) : Result := zeroPad Config.num s

/-- IFWD, step 3 (R153): INNER forward on SCR. -/
def transformScr [Inhabited R] (inner : Inner R) (s : State R) : Result R :=
  invoke inner inner.fwd .scr (fun t => t.setPhase .tFmul) s

/-- IFWD (R153). -/
def execIfwd (s : State) : Result := transformScr s.attached s

/-- FMUL, step 4 (R154): the frequency multiplier. -/
def multiplyScr (num : Num R) (s : State R) : Result R :=
  withRange s .scr s.sizeM fun b =>
  withRange s s.wTable s.sizeM fun w =>
    .next ((s.store .scr 0 (samples (freqMultiply num b w))).setPhase .tIinv)

/-- FMUL (R154). -/
def execFmul (s : State) : Result := multiplyScr Config.num s

/-- IINV, step 5 (R155): INNER inverse on SCR. -/
def invertScr [Inhabited R] (inner : Inner R) (s : State R) : Result R :=
  invoke inner inner.inv .scr (fun t => t.setPhase .tDemod) s

/-- IINV (R155). -/
def execIinv (s : State) : Result := invertScr s.attached s

/-- DEMOD, step 6 (R156): the complex demodulator and the scaler; XFORM completes. -/
def demodulateScr (num : Num R) (s : State R) : Result R :=
  withRange s .scr s.sizeN fun e =>
  withRange s s.xTable s.sizeN fun x =>
    .next (s.store .buf 0 (samples (demodulate num e x s.scale))).complete

/-- DEMOD (R156). -/
def execDemod (s : State) : Result := demodulateScr Config.num s

end Sys2Proof.Machine
end

