-- ==== Sys2Proof/Machine/Precompute.lean ====
section
/-! DEFINITION. The meanings of the chirp-twiddle ROM generator's micro-operations (41_precompute): each first over any
number system, evaluator and capability, then as the fixed machine has it. A micro-operation is selected by PHASE (R64); its
meaning does not test PHASE again (log 18). -/

namespace Sys2Proof.Machine

variable {R T : Type}

/-- XGEN (R110): fill the x-tables. -/
def fillXTables (num : Num R) (trig : Trig T R) (s : State R) : Result R :=
  .next (((s.store .xf 0 ((List.range s.sizeN).map (xfEntry num trig s.sizeN))).store .xi 0
    ((List.range s.sizeN).map (xiEntry trig s.sizeN))).setPhase .cWgen)

/-- XGEN (R110). -/
def execXgen (s : State) : Result := fillXTables Config.num Config.trig s

/-- WGEN (R113): fill the w-tables in the time domain. -/
def fillWTables (num : Num R) (trig : Trig T R) (s : State R) : Result R :=
  .next (((s.store .wf 0 ((List.range s.sizeM).map (wfEntry num trig s.sizeN s.sizeM))).store .wi 0
    ((List.range s.sizeM).map (wiEntry num trig s.sizeN s.sizeM))).setPhase .cWfwdF)

/-- WGEN (R113). -/
def execWgen (s : State) : Result := fillWTables Config.num Config.trig s

/-- WFWD.F (R114): the inner forward transform of WF. -/
def transformWf [Inhabited R] (inner : Inner R) (s : State R) : Result R :=
  invoke inner inner.fwd .wf (fun t => t.setPhase .cWfwdI) s

/-- WFWD.F (R114). -/
def execWfwdF (s : State) : Result := transformWf s.attached s

/-- WFWD.I (R115): the inner FORWARD transform of WI; CONSTRUCT completes. -/
def transformWi [Inhabited R] (inner : Inner R) (s : State R) : Result R :=
  invoke inner inner.fwd .wi State.complete s

/-- WFWD.I (R115). -/
def execWfwdI (s : State) : Result := transformWi s.attached s

end Sys2Proof.Machine
end

