-- ==== Sys2Proof/Machine/Dispatch.lean ====
section
/-! DEFINITION. One arm per instruction. -/

namespace Sys2Proof.Machine

def exec (i : Instr) (s : State) : Host.Outcome State Fault Refusal :=
  match i with
  | .construct n l lenWf lenWi lenXf lenXi lenScr => Sys2Proof.Machine.execConstruct n l lenWf lenWi lenXf lenXi lenScr s
  | .size => Sys2Proof.Machine.execSize s
  | .xformFft lenBuf => Sys2Proof.Machine.execXformFft lenBuf s
  | .xformIfft lenBuf => Sys2Proof.Machine.execXformIfft lenBuf s
  | .xformUifft lenBuf => Sys2Proof.Machine.execXformUifft lenBuf s
  | .xformSfft lenBuf => Sys2Proof.Machine.execXformSfft lenBuf s
  | .xformSifft lenBuf => Sys2Proof.Machine.execXformSifft lenBuf s
  | .isize n => Sys2Proof.Machine.execIsize n s
  | .xgen => Sys2Proof.Machine.execXgen s
  | .wgen => Sys2Proof.Machine.execWgen s
  | .wfwdF => Sys2Proof.Machine.execWfwdF s
  | .wfwdI => Sys2Proof.Machine.execWfwdI s
  | .mod => Sys2Proof.Machine.execMod s
  | .zpad => Sys2Proof.Machine.execZpad s
  | .ifwd => Sys2Proof.Machine.execIfwd s
  | .fmul => Sys2Proof.Machine.execFmul s
  | .iinv => Sys2Proof.Machine.execIinv s
  | .demod => Sys2Proof.Machine.execDemod s

end Sys2Proof.Machine
end

