-- ==== Sys2Proof/Machine/Generic.lean ====
section
/-! DEFINITION. The generic machine: every instruction over any carrier and any parameters (R6: a model takes each OPEN
parameter as an argument). `NumReal`, `NumF32` and `NumF64` (R81) are instances of it. -/

namespace Sys2Proof.Machine

variable {R T : Type} [Inhabited R]

/-- What an instruction does in an instance with parameters `p`: one capability `p.inner` for the whole run (R32), and
`A1 = p.inner.L` in every CONSTRUCT that is accepted (R131, R171). -/
def execOn (p : Params R T) (i : Instr) (s : State R) : Result R :=
  match i with
  | .construct n l lenWf lenWi lenXf lenXi lenScr => construct p.inner.L n l lenWf lenWi lenXf lenXi lenScr s
  | .size => reportSize s
  | .xformFft lenBuf => xform p.num Cmd.fft .fft lenBuf s
  | .xformIfft lenBuf => xform p.num Cmd.ifft .ifft lenBuf s
  | .xformUifft lenBuf => xform p.num Cmd.uifft .uifft lenBuf s
  | .xformSfft lenBuf => xform p.num Cmd.sfft .sfft lenBuf s
  | .xformSifft lenBuf => xform p.num Cmd.sifft .sifft lenBuf s
  | .isize n => reportInnerSize n s
  | .xgen => fillXTables p.num p.trig s
  | .wgen => fillWTables p.num p.trig s
  | .wfwdF => transformWf p.inner s
  | .wfwdI => transformWi p.inner s
  | .mod => modulateBuf p.num s
  | .zpad => zeroPad p.num s
  | .ifwd => transformScr p.inner s
  | .fmul => multiplyScr p.num s
  | .iinv => invertScr p.inner s
  | .demod => demodulateScr p.num s

/-- The length of the capability an instruction of the fixed machine finds attached: the frame's for CONSTRUCT, which
hands it over (R225), `M` for every other (R29). -/
def lengthAttached (i : Instr) (s : State R) : Word :=
  match i with
  | .construct _ l _ _ _ _ _ => l
  | _ => s.m

end Sys2Proof.Machine
end

