-- ==== Sys2Proof/WellFormed.lean ====
section
/-! DEFINITION. When a presented frame is a frame (R60, R62, R68), and when a code is one the tables list.
An `Instr` term has nothing left to check: its operands are words of the right width by type (R65). -/

namespace Sys2Proof

/-- A frame with a legal command byte has exactly the operand words its opcode fixes; for an illegal byte the spec
fixes no number (R62, R67). -/
def Frame.wellFormed (f : Frame) : Bool :=
  match Cmd.operandWords f.cmd with
  | some k => f.ops.length == k
  | none => true

/-- A frame whose command byte is in the opcode map of R63. -/
def Frame.legal (f : Frame) : Bool := (Cmd.operandWords f.cmd).isSome

/-- A code of either format that is in the opcode table. -/
def Code.wellFormed : Code → Bool
  | .h f => f.legal && f.wellFormed
  | .u c => match decodeMicro c with
    | .ok _ => true
    | .error _ => false

end Sys2Proof
end

