-- ==== Sys2Proof/Machine/Host.lean ====
section
/-! DEFINITION. The moves of HOST and of INNER's nested frames: presenting a frame (R130), the status port (R22), BUF
(R26, R42), reset (R210), the pseudo-commands (R70), and which pending move comes next. What a decoded instruction does is an
argument, `run`: the fixed machine gives `exec`, the generic one `execOn`. -/

namespace Sys2Proof.Machine

variable {R : Type} [Inhabited R]

/-- Present a frame to SEQ (R130): a legal frame is decoded and executed; an illegal command byte raises
`Fatal(ILLEGAL_CMD)` before every other check (R190, R196); in FATAL every frame is ignored (R194). -/
def presentBy (run : Instr → State R → Result R) (f : Frame) (s : State R) : Result R :=
  match decode f with
  | .ok i => run i s
  | .error (.operandCount cmd) => if s.phase = .fatal then .next s else .refused (.malformedFrame cmd)
  | .error _ => command f.cmd [(true, .illegalCmd)] .next s

/-! The status port (R22). -/

/-- `N` and `M` hold a value HOST may rely on: written since reset (R22, R30), and no fatal stop (R198). -/
def State.sizesReadable (s : State R) : Bool := s.sizesHeld && !s.fatalF

/-- The same of `KIND`. -/
def State.kindReadable (s : State R) : Bool := s.kindHeld && !s.fatalF

/-- The same of `RESULT`. -/
def State.resultReadable (s : State R) : Bool := s.resultHeld && !s.fatalF

/-- What a read of register number `k` delivers (R22); an unspecified value is a free one (I9, I10, I11; log 5). -/
def State.port (s : State R) (k : Fin 8) : PortValue :=
  match k with
  | 0 => .status s.status
  | 1 => .n (if s.sizesReadable then s.n else Config.freeWord s.draws)
  | 2 => .m (if s.sizesReadable then s.m else Config.freeWord s.draws)
  | 3 => .kind (if s.kindReadable then s.kind.code else (Config.freeWord s.draws).setWidth 3)
  | 4 => .fcode s.fcode.code
  | 5 => .fcmd s.fcmd
  | 6 => .result (if s.resultReadable then s.result else Config.freeWord s.draws)
  | 7 => .reserved (Config.freeWord s.draws)

/-- RDCSR (R22, R69): no side effect on the engine, in any phase. -/
def hostReadCsr (k : Fin 8) (s : State R) : State R := (s.logRead (.csr (s.port k))).draw 1

/-- WRBUF (R26, R69): BUF becomes a buffer of `len` elements with these contents; not while `GUARD = 1` (R42, R217).
DESIGN CHOICE (log 34): it is taken in FATAL too where `GUARD = 0`. R42 bars it by GUARD alone, R225 lets HOST touch only
the status port there, and R198 leaves every space unspecified. Unsafe: a later reset keeps these contents. -/
def hostWriteBuf (len : Word) (contents : List (Sample R)) (s : State R) : Result R :=
  if s.guard then .refused .hostBufWhileGuarded
  else if contents.length = len.toNat then .next (s.replaceBuf len (Memory.writeFrom [] 0 contents))
  else .refused .malformedWriteBuf

/-- RDBUF (R69): read all of BUF; not while `GUARD = 1` (R42, R217). After a fatal stop the contents are unspecified
(R198): free samples (log 6), also after a WRBUF in FATAL; that HOST may read there at all is DESIGN CHOICE (log 34).
DESIGN CHOICE (log 22): before the first WRBUF the spec gives BUF no length and no content; here its length is 0, so RDBUF
completes and delivers the empty list. Unsafe. -/
def hostReadBuf (s : State R) : Result R :=
  if s.guard then .refused .hostBufWhileGuarded
  else if s.phase = .fatal then
    .next ((s.logRead (.buf ((List.range s.bufLen.toNat).map (Config.freeSample s.draws)))).draw 1)
  else withRange s .buf s.bufLen.toNat fun vs => .next (s.logRead (.buf (samples vs)))

/-- One host action (R69); `zero` is the number system's zero (log 3). -/
def hostActBy (run : Instr → State R → Result R) (zero : R) (a : HostAction R) (s : State R) : Result R :=
  match a with
  | .frame f => presentBy run f s
  | .reset => .next (s.assertReset zero)
  | .writeBuf len contents => hostWriteBuf len contents s
  | .readBuf => hostReadBuf s
  | .readCsr k => .next (hostReadCsr k s)

/-! Which pending move comes next (log 11). -/

/-- The action of an arrival whose moment is phase `p`: INNER's in an invocation phase, HOST's in any busy phase. -/
def Arrival.lands (p : Phase) : Arrival R → Option (HostAction R)
  | .inner 0 f => if p.invoking then some (.frame f) else none
  | .host 0 a => if p.busy then some a else none
  | _ => none

/-- An arrival once the micro-operation of phase `p` has run: INNER's wait counts invocations, HOST's micro-operations. -/
def Arrival.pass (p : Phase) : Arrival R → Arrival R
  | .inner (k + 1) f => if p.invoking then .inner k f else .inner (k + 1) f
  | .host (k + 1) a => .host k a
  | w => w

/-- The first arrival that lands in phase `p`, and the others. -/
def takeArrival (p : Phase) : List (Arrival R) → Option (HostAction R × List (Arrival R))
  | [] => none
  | w :: rest =>
    match w.lands p with
    | some a => some (a, rest)
    | none =>
      match takeArrival p rest with
      | some (a, others) => some (a, w :: others)
      | none => none

/-- The pending moves after the micro-operation of the present phase has run. -/
def State.passArrivals (s : State R) : State R := s.setArrivals (s.arrivals.map (Arrival.pass s.phase))

/-- When nothing arrives: the micro-operation of a busy phase runs; at rest the next line of the script is taken, and with
none left the block does nothing (R211). -/
def advanceBy (run : Instr → State R → Result R) (zero : R) (s : State R) : Result R :=
  match s.phase.microOp with
  | some i => run i s.passArrivals
  | none =>
    match s.script with
    | [] => .next s
    | .act a :: rest => hostActBy run zero a (s.setScript rest)
    | .later w :: rest => .next ((s.setScript rest).setArrivals (s.arrivals ++ [w]))

/-- One step of the whole (R5, R51): at most one agent moves. A move that lands now comes first, then the sequencer, then
the script. -/
def stepBy (run : Instr → State R → Result R) (zero : R) (s : State R) : Result R :=
  match takeArrival s.phase s.arrivals with
  | some (a, rest) => hostActBy run zero a (s.setArrivals rest)
  | none => advanceBy run zero s

/-! The fixed machine's moves. -/

/-- Present a frame to the fixed machine (R130). -/
def present (f : Frame) (s : State) : Result := presentBy exec f s

/-- One host action on the fixed machine (R69). -/
def hostAct (a : HostAction) (s : State) : Result := hostActBy exec Config.num.zero a s

/-! The pseudo-commands (R70). -/

/-- `CONSTRUCT n`: the well-formed geometry, with `m = innerSize(n)`. DESIGN CHOICE (log 32): for `n` outside `1..N_MAX`
R94 gives `innerSize` no value; here `m` is 1 for `n = 0`, and 0 above `N_MAX` (the low 32 bits of `2^32`). Safe: CONSTRUCT
stops at its size check before it compares any of these words. -/
def pseudoConstruct (n : Word) : Instr :=
  let m := BitVec.ofNat 32 (innerSize n.toNat)
  .construct n m m m n n m

/-- `XFORM.<k>` with no operand: the length given by the latest WRBUF. -/
def pseudoXform (k : Kind) (s : State R) : Instr :=
  match k with
  | .fft => .xformFft s.bufLen
  | .ifft => .xformIfft s.bufLen
  | .uifft => .xformUifft s.bufLen
  | .sfft => .xformSfft s.bufLen
  | .sifft => .xformSifft s.bufLen

/-! Placing an instruction where the next step takes it (log 10, 19). -/

/-- Place a code: a frame is the next thing presented (by HOST at rest, as an arrival in a busy phase); a phase code
becomes the sequencer position, with nothing arriving before it. -/
def State.placeCode (s : State R) : Code → State R
  | .h f =>
    if s.phase.busy then s.setArrivals (.host 0 (.frame f) :: s.arrivals)
    else s.setScript (.act (.frame f) :: s.script)
  | .u c => (s.setPhase ((phaseOfCode c).getD s.phase)).setArrivals []

end Sys2Proof.Machine
end

