-- ==== Sys2Proof/Machine/Step.lean ====
section
/-! DEFINITION. One step of the fixed machine, and of the generic one. -/

namespace Sys2Proof.Machine

/-- One step (R5, R51): at most one agent moves. -/
def step (s : State) : Host.Outcome State Fault Refusal := stepBy exec Config.num.zero s

/-- `s` with the instruction of a table row placed where the next step takes it. -/
def State.withFetchWord (s : State) (nbits w : Nat) : State := s.placeCode (codeOfBits nbits w)

/-- One step of an instance with parameters `p` (R6). -/
def stepOn {R T : Type} [Inhabited R] (p : Params R T) (s : State R) : Result R := stepBy (execOn p) p.num.zero s

/-- An instance with parameters `p`, behind the host's interface. -/
def coreOn {R T : Type} [Inhabited R] (p : Params R T) : Host.Core :=
  { State := State R, Fault := Fault, Refusal := Refusal, step := stepOn p, reset := State.initial p.num.zero }

end Sys2Proof.Machine
end

