-- ==== Sys2Proof/Machine/BigStep.lean ====
section
/-! DEFINITION. The big-step meaning of a completed CONSTRUCT (R132) and of an accepted XFORM (R143), over any number
system, evaluator and inner capability. The machine runs the micro-operations; claims relate the two (R146). -/

namespace Sys2Proof.Machine

variable {R T : Type}

/-- A finished x-table pair (R132). -/
def tableXi (trig : Trig T R) (n : Nat) : Vector (Sample R) n := Vector.ofFn fun i => xiEntry trig n i
def tableXf (num : Num R) (trig : Trig T R) (n : Nat) : Vector (Sample R) n :=
  Vector.ofFn fun i => xfEntry num trig n i

/-- The time-domain w-tables `wi`, `wf` (R132). -/
def timeWi (num : Num R) (trig : Trig T R) (n m : Nat) : Vector (Sample R) m :=
  Vector.ofFn fun i => wiEntry num trig n m i
def timeWf (num : Num R) (trig : Trig T R) (n m : Nat) : Vector (Sample R) m :=
  Vector.ofFn fun i => wfEntry num trig n m i

/-- The finished w-tables `WI = Inner.fwd(wi)`, `WF = Inner.fwd(wf)` (R132). -/
def tableWi (num : Num R) (trig : Trig T R) {m : Nat} (inner : InnerOps R m) (n : Nat) : Vector (Sample R) m :=
  inner.fwd (timeWi num trig n m)
def tableWf (num : Num R) (trig : Trig T R) {m : Nat} (inner : InnerOps R m) (n : Nat) : Vector (Sample R) m :=
  inner.fwd (timeWf num trig n m)

/-- The scratch buffer after steps 1 and 2: `a` of R143. -/
def padded (num : Num R) {n : Nat} (m : Nat) (x u : Vector (Sample R) n) : Vector (Sample R) m :=
  Vector.ofFn fun i => if h : i.val < n then (modulate num x u)[i.val] else czero num

/-- The scratch buffer after step 5: `e` of R143. -/
def convolved (num : Num R) {n m : Nat} (inner : InnerOps R m) (x : Vector (Sample R) n) (w : Vector (Sample R) m)
    (u : Vector (Sample R) n) : Vector (Sample R) m :=
  inner.inv (freqMultiply num (inner.fwd (padded num m x u)) w)

/-- Entry `k` of the result `v` of R143. -/
def transformed (num : Num R) {n m : Nat} (inner : InnerOps R m) (h : n ≤ m) (x : Vector (Sample R) n)
    (w : Vector (Sample R) m) (s : R) (u : Vector (Sample R) n) : Vector (Sample R) n :=
  Vector.ofFn fun i =>
    rscale num (cmul num ((convolved num inner x w u)[i.val]'(Nat.lt_of_lt_of_le i.isLt h)) x[i]) s

/-- A whole transform of kind `k` with its own tables (R132, R137, R143). -/
def bluestein (num : Num R) (trig : Trig T R) {n m : Nat} (inner : InnerOps R m) (k : Kind) (h : n ≤ m)
    (u : Vector (Sample R) n) : Vector (Sample R) n :=
  match k with
  | .fft | .sfft =>
    transformed num inner h (tableXf num trig n) (tableWf num trig inner n) (scale num k n) u
  | .ifft | .uifft | .sifft =>
    transformed num inner h (tableXi trig n) (tableWi num trig inner n) (scale num k n) u

end Sys2Proof.Machine
end

