-- ==== Sys2Proof/Machine/Float.lean ====
section
/-! DEFINITION. The named floating-point instances of R81, `numF32` and `numF64`, and the evaluator `trig64` of R88, whose
cosine and sine units stay open. That the formats are IEEE 754 binary32 and binary64, rounded to nearest with ties to even,
is the spec's general-knowledge entry U3: PRESUMED, log 21. The spec has no NaN rule: which pattern an operation on a NaN, or
an invalid operation, delivers is PRESUMED too, at `quiet`, `nanBits`, `neg`, `sub` and `convert` (log 21). The machine's own `Config.num` and `Config.trig` stay open;
these instances are what claims about a rounded engine name. -/

namespace Sys2Proof.Machine

/-- A binary interchange format: the widths of its exponent and fraction fields. -/
structure FloatFmt where
  expBits : Nat
  fracBits : Nat
deriving DecidableEq, Repr

def binary32 : FloatFmt := ⟨8, 23⟩
def binary64 : FloatFmt := ⟨11, 52⟩

/-- What a bit pattern stands for: `fin neg man exp` is `(-1)^neg * man * 2^exp`. -/
inductive FloatVal where
  | nan
  | inf (neg : Bool)
  | fin (neg : Bool) (man : Nat) (exp : Int)
deriving DecidableEq, Repr

/-- The exponent of the last fraction bit of the subnormal numbers. -/
def FloatFmt.minExp (f : FloatFmt) : Int := 2 - 2 ^ (f.expBits - 1) - f.fracBits

/-- The pattern of plus infinity; larger magnitudes are NaN. -/
def FloatFmt.infBits (f : FloatFmt) : Nat := (2 ^ f.expBits - 1) * 2 ^ f.fracBits

/-- The sign bit as a number. -/
def FloatFmt.signBit (f : FloatFmt) : Nat := 2 ^ (f.expBits + f.fracBits)

/-- The value of a bit pattern. -/
def FloatFmt.unpack (f : FloatFmt) (bits : Nat) : FloatVal :=
  let neg := decide (f.signBit ≤ bits)
  let mag := bits % f.signBit
  if f.infBits < mag then .nan
  else if mag = f.infBits then .inf neg
  else
    let e := mag / 2 ^ f.fracBits
    let frac := mag % 2 ^ f.fracBits
    if e = 0 then .fin neg frac f.minExp
    else .fin neg (2 ^ f.fracBits + frac) (f.minExp + (e - 1 : Nat))

/-- Attach a sign to a magnitude. -/
def FloatFmt.withSign (f : FloatFmt) (neg : Bool) (mag : Nat) : Nat := if neg then f.signBit + mag else mag

/-- A NaN operand as an operation delivers it: with its quiet bit set, its sign and payload kept; so a quiet NaN is
delivered as it stands, which `MulOne` asks for (R82, U3). PRESUMED, log 21. -/
def FloatFmt.quiet (f : FloatFmt) (a : Nat) : Nat :=
  if a % 2 ^ f.fracBits < 2 ^ (f.fracBits - 1) then a + 2 ^ (f.fracBits - 1) else a

/-- The pattern is a signalling NaN. -/
def FloatFmt.signalling (f : FloatFmt) (a : Nat) : Bool := f.unpack a = .nan && decide (f.quiet a ≠ a)

/-- What an invalid operation delivers (`0 * inf`, `inf - inf`, `0 / 0`, `inf / inf`, the root of a negative number), and
what a conversion between formats makes of a NaN: the positive quiet pattern with no payload. PRESUMED, log 21. -/
def FloatFmt.nanBits (f : FloatFmt) : Nat := f.infBits + 2 ^ (f.fracBits - 1)

/-- `num * 2^k / den` as a quotient and a doubled remainder against the divisor, rounded to nearest, ties to even. -/
def roundQuotient (num den : Nat) (k : Int) : Nat :=
  let n := num * 2 ^ k.toNat
  let d := den * 2 ^ (-k).toNat
  let q := n / d
  let r := n % d
  if d < 2 * r then q + 1 else if 2 * r = d then q + q % 2 else q

/-- Round the exact value `(-1)^neg * num / den * 2^exp` to the format. -/
def FloatFmt.round (f : FloatFmt) (neg : Bool) (num den : Nat) (exp : Int) : Nat :=
  if num = 0 then f.withSign neg 0
  else
    let l : Int := (Nat.log2 num : Int) - (Nat.log2 den : Int)
    let top : Int := if den * 2 ^ l.toNat ≤ num * 2 ^ (-l).toNat then l + exp else l + exp - 1
    let q : Int := max (top - f.fracBits) f.minExp
    let man := roundQuotient num den (exp - q)
    f.withSign neg (min ((q - f.minExp).toNat * 2 ^ f.fracBits + man) f.infBits)

/-- The sign bit is flipped in every pattern, a NaN's included. PRESUMED, log 21. -/
def FloatFmt.neg (f : FloatFmt) (a : Nat) : Nat := if f.signBit ≤ a then a - f.signBit else a + f.signBit

/-- The signed integer `±man * 2^(exp - lo)`. -/
def signedAt (neg : Bool) (man : Nat) (exp lo : Int) : Int :=
  let v : Int := man * 2 ^ (exp - lo).toNat
  if neg then -v else v

def FloatFmt.add (f : FloatFmt) (a b : Nat) : Nat :=
  match f.unpack a, f.unpack b with
  | .nan, _ => f.quiet a
  | _, .nan => f.quiet b
  | .inf s, .inf t => if s = t then f.withSign s f.infBits else f.nanBits
  | .inf s, .fin _ _ _ => f.withSign s f.infBits
  | .fin _ _ _, .inf t => f.withSign t f.infBits
  | .fin s m e, .fin t k d =>
    let lo := min e d
    let v := signedAt s m e lo + signedAt t k d lo
    if v = 0 then f.withSign (s && t) 0 else f.round (decide (v < 0)) v.natAbs 1 lo

/-- A NaN subtrahend is delivered with its own sign. PRESUMED, log 21. -/
def FloatFmt.sub (f : FloatFmt) (a b : Nat) : Nat := f.add a (if f.unpack b = .nan then b else f.neg b)

def FloatFmt.mul (f : FloatFmt) (a b : Nat) : Nat :=
  match f.unpack a, f.unpack b with
  | .nan, _ => f.quiet a
  | _, .nan => f.quiet b
  | .inf s, .inf t => f.withSign (s != t) f.infBits
  | .inf s, .fin t k _ => if k = 0 then f.nanBits else f.withSign (s != t) f.infBits
  | .fin s m _, .inf t => if m = 0 then f.nanBits else f.withSign (s != t) f.infBits
  | .fin s m e, .fin t k d => f.round (s != t) (m * k) 1 (e + d)

def FloatFmt.div (f : FloatFmt) (a b : Nat) : Nat :=
  match f.unpack a, f.unpack b with
  | .nan, _ => f.quiet a
  | _, .nan => f.quiet b
  | .inf _, .inf _ => f.nanBits
  | .inf s, .fin t _ _ => f.withSign (s != t) f.infBits
  | .fin s _ _, .inf t => f.withSign (s != t) 0
  | .fin s m e, .fin t k d =>
    if k = 0 then (if m = 0 then f.nanBits else f.withSign (s != t) f.infBits)
    else f.round (s != t) m k (e - d)

/-- The integer square root, one bit of the root a turn from bit `i - 1` down, starting from `acc`. -/
def sqrtBits (v : Nat) : (i acc : Nat) → Nat
  | 0, acc => acc
  | i + 1, acc =>
    let t := acc + 2 ^ i
    sqrtBits v i (if t * t ≤ v then t else acc)

/-- The square root: the exact root is taken to more bits than the format holds, with a last bit for "not exact". -/
def FloatFmt.sqrt (f : FloatFmt) (a : Nat) : Nat :=
  match f.unpack a with
  | .nan => f.quiet a
  | .inf s => if s then f.nanBits else f.infBits
  | .fin s m e =>
    if m = 0 then f.withSign s 0
    else if s then f.nanBits
    else
      let k : Nat := 2 * (f.fracBits + 2)
      let sh : Nat := k + ((e - k) % 2).toNat
      let v := m * 2 ^ sh
      let r := sqrtBits v (f.fracBits + sh) 0
      f.round false (2 * r + (if r * r = v then 0 else 1)) 1 ((e - sh) / 2 - 1)

/-- The nearest number of the format to an integer. -/
def FloatFmt.ofInt (f : FloatFmt) (i : Int) : Nat := f.round (decide (i < 0)) i.natAbs 1 0

/-- The value of a pattern of format `g`, rounded to format `f`; a NaN's sign and payload are not kept (PRESUMED, log 21). -/
def FloatFmt.convert (f g : FloatFmt) (a : Nat) : Nat :=
  match g.unpack a with
  | .nan => f.nanBits
  | .inf s => f.withSign s f.infBits
  | .fin s m e => f.round s m 1 e

/-- `NumF64` (R81): 64-bit floating point, each operation rounded. `ofF64` keeps every pattern, a NaN's included (PRESUMED,
log 21). -/
def numF64 : Num (BitVec 64) where
  zero := 0
  one := BitVec.ofNat 64 (binary64.ofInt 1)
  add a b := BitVec.ofNat 64 (binary64.add a.toNat b.toNat)
  sub a b := BitVec.ofNat 64 (binary64.sub a.toNat b.toNat)
  mul a b := BitVec.ofNat 64 (binary64.mul a.toNat b.toNat)
  neg a := BitVec.ofNat 64 (binary64.neg a.toNat)
  div a b := BitVec.ofNat 64 (binary64.div a.toNat b.toNat)
  sqrt a := BitVec.ofNat 64 (binary64.sqrt a.toNat)
  ofNat n := BitVec.ofNat 64 (binary64.ofInt n)
  ofF64 a := a

/-- `NumF32` (R81): 32-bit floating point, each operation rounded. -/
def numF32 : Num (BitVec 32) where
  zero := 0
  one := BitVec.ofNat 32 (binary32.ofInt 1)
  add a b := BitVec.ofNat 32 (binary32.add a.toNat b.toNat)
  sub a b := BitVec.ofNat 32 (binary32.sub a.toNat b.toNat)
  mul a b := BitVec.ofNat 32 (binary32.mul a.toNat b.toNat)
  neg a := BitVec.ofNat 32 (binary32.neg a.toNat)
  div a b := BitVec.ofNat 32 (binary32.div a.toNat b.toNat)
  sqrt a := BitVec.ofNat 32 (binary32.sqrt a.toNat)
  ofNat n := BitVec.ofNat 32 (binary32.ofInt n)
  ofF64 a := BitVec.ofNat 32 (binary32.convert binary64 a.toNat)

/-- The 64-bit value nearest to pi (R88). -/
def pi64 : BitVec 64 := 0x400921FB54442D18#64

/-- The decided default evaluator `Trig64` (R88, D6): the angle is formed in 64-bit floating point and the results are
converted by `Num.ofF64`. What the cosine and sine units return is not stated: they are operands. -/
def trig64 {R : Type} (num : Num R) (cosE sinE : BitVec 64 → BitVec 64) : Trig (BitVec 64) R where
  ofInt i := BitVec.ofNat 64 (binary64.ofInt i)
  ofNat n := BitVec.ofNat 64 (binary64.ofInt n)
  pi := pi64
  mul := numF64.mul
  div := numF64.div
  neg := numF64.neg
  cosE := cosE
  sinE := sinE
  toR := num.ofF64

/-- The alternative evaluator `TrigNative` (R88): it works in RealScalar itself. -/
def trigNative {R : Type} (num : Num R) (ofInt : Int → R) (pi : R) (cosE sinE : R → R) : Trig R R where
  ofInt := ofInt
  ofNat := num.ofNat
  pi := pi
  mul := num.mul
  div := num.div
  neg := num.neg
  cosE := cosE
  sinE := sinE
  toR := id

end Sys2Proof.Machine
end

