-- ==== Sys2Proof/Ideal.lean ====
section
/-! DEFINITION. The ideal instance the spec's "(ideal)" rules speak of: `NumReal` (R81), `TrigReal` (R88), the reference
capability `InnerDFT` (R180), the discrete Fourier transform, the named properties a claim may assume (R82, R91, R175), and
what the source says about accuracy (R97). With `idealParams` the generic machine computes over the real numbers. -/

namespace Sys2Proof.Ideal

open Machine

/-- What `ofF64` gives for a pattern that is no number: the spec does not say, so it is a free value (log 25). -/
noncomputable opaque nonFinite : F64 → ℝ

/-- What `NumReal.div` gives for a quotient by zero: the spec states no value, and none is exact, so it is a free value.
DESIGN CHOICE, log 25. -/
noncomputable opaque quotientByZero : ℝ → ℝ

/-- What `NumReal.sqrt` gives for a negative number: the spec states no value, so it is a free value. DESIGN CHOICE, log
25. -/
noncomputable opaque rootOfNegative : ℝ → ℝ

/-- `NumReal` (R81): the real numbers with exact operations. A quotient by zero, the root of a negative number and the
value of a pattern that is no number, for which the spec states no result, are free values (log 25). -/
noncomputable def numReal : Num ℝ where
  zero := 0
  one := 1
  add a b := a + b
  sub a b := a - b
  mul a b := a * b
  neg a := -a
  div a b := if b = 0 then quotientByZero a else a / b
  sqrt a := if a < 0 then rootOfNegative a else Real.sqrt a
  ofNat n := n
  ofF64 a :=
    match binary64.unpack a.toNat with
    | .fin neg man exp => (if neg then -1 else 1) * man * (2 : ℝ) ^ exp
    | _ => nonFinite a

/-- `TrigReal` (R88): exact angle, cosine, sine and pi. -/
noncomputable def trigReal : Trig ℝ ℝ where
  ofInt i := i
  ofNat n := n
  pi := Real.pi
  mul := numReal.mul
  div := numReal.div
  neg := numReal.neg
  cosE := Real.cos
  sinE := Real.sin
  toR a := a

/-- A sample of the ideal instance as a complex number, and back (R87). -/
def toComplex (z : Sample ℝ) : ℂ := ⟨z.re, z.im⟩
def ofComplex (z : ℂ) : Sample ℝ := ⟨z.re, z.im⟩

/-- `exp(j*t)` (R7). -/
noncomputable def cis (t : ℝ) : ℂ := Complex.exp (t * Complex.I)

/-- The discrete Fourier transform of `u` with kernel sign `sigma` (R144, R175). -/
noncomputable def dftEntry (sigma : ℝ) {n : Nat} (u : Vector (Sample ℝ) n) (k : Nat) : ℂ :=
  ∑ i : Fin n, toComplex u[i] * cis (sigma * (2 * Real.pi * i.val * k / n))

/-- Cyclic convolution of length `L` (R161, R175). -/
noncomputable def cyclicConv {L : Nat} (a b : Vector (Sample ℝ) L) : Vector (Sample ℝ) L :=
  Vector.ofFn fun k => ofComplex (∑ i : Fin L, toComplex a[i] * toComplex (b[(k - i : Fin L)]))

/-- `InnerDFT(L)` (R180): the exact DFT with kernel `exp(-2*pi*j*n*k/L)`, its exact inverse, `c = 1`. -/
noncomputable def innerDFT (L : Nat) : InnerOps ℝ L where
  fwd z := Vector.ofFn fun k => ofComplex (dftEntry (-1) z k)
  inv z := Vector.ofFn fun k => ofComplex (dftEntry 1 z k / L)
  c := 1

/-- The parameters of the ideal machine: `NumReal`, `TrigReal`, an attached capability and a tolerance (R6, R81, R88). -/
noncomputable def idealParams (inner : Inner ℝ) (tol : Tol ℝ) : Params ℝ ℝ := ⟨numReal, trigReal, inner, tol⟩

/-! Named properties of `Num` (R82). -/

section
variable {R T : Type}

def MulComm (num : Num R) : Prop := ∀ a b, num.mul a b = num.mul b a
def AddComm (num : Num R) : Prop := ∀ a b, num.add a b = num.add b a
def MulOne (num : Num R) : Prop := ∀ a, num.mul a num.one = a
def MulZero (num : Num R) : Prop := ∀ a, num.mul a num.zero = num.zero

/-- `Field`: `R` is an ordered field with exact `sqrt` on non-negatives, and the operations are its operations. A quotient
by zero is no operation of a field: nothing is said of it. -/
def OrderedField (num : Num R) : Prop :=
  ∃ (_ : Field R) (_ : LinearOrder R), IsStrictOrderedRing R ∧ num.zero = 0 ∧ num.one = 1 ∧
    (∀ a b, num.add a b = a + b ∧ num.sub a b = a - b ∧ num.mul a b = a * b) ∧ (∀ a, num.neg a = -a) ∧
    (∀ a b, b ≠ 0 → num.div a b = a / b) ∧ (∀ n : Nat, num.ofNat n = n) ∧
    ∀ a, 0 ≤ a → 0 ≤ num.sqrt a ∧ num.sqrt a * num.sqrt a = a

/-- `scale(k, 1)` is `one` for every kind when these hold (R93). -/
def UnitConversions (num : Num R) : Prop :=
  num.ofNat 1 = num.one ∧ num.sqrt num.one = num.one ∧ num.div num.one num.one = num.one
end

/-! Named properties of `halfTwiddle` (R91), for an evaluator that delivers real numbers. -/

section
variable {T : Type}

def HtIdeal (trig : Trig T ℝ) : Prop :=
  ∀ (k : Int) (n : Nat), 1 ≤ n → toComplex (halfTwiddle trig k n) = cis (-(Real.pi * k / n))
def HtUnit (trig : Trig T ℝ) : Prop :=
  ∀ (k : Int) (n : Nat), 1 ≤ n → (halfTwiddle trig k n).re ^ 2 + (halfTwiddle trig k n).im ^ 2 = 1
def HtConj (trig : Trig T ℝ) : Prop :=
  ∀ (k : Int) (n : Nat), 1 ≤ n → halfTwiddle trig (-k) n = conj numReal (halfTwiddle trig k n)
def HtPeriod (trig : Trig T ℝ) : Prop :=
  ∀ (k : Int) (n : Nat), 1 ≤ n → halfTwiddle trig (k + 2 * n) n = halfTwiddle trig k n
def HtZero (trig : Trig T ℝ) : Prop := ∀ n : Nat, 1 ≤ n → halfTwiddle trig 0 n = ⟨1, 0⟩
end

/-! Named properties of the inner capability (R175). -/

section
variable {L : Nat}

/-- `InvFwd(c)`. -/
def InvFwd (inner : InnerOps ℝ L) (c : ℝ) : Prop :=
  ∀ (z : Vector (Sample ℝ) L) (k : Fin L), toComplex (inner.inv (inner.fwd z))[k] = c * toComplex z[k]

/-- `ConvThm`. -/
def ConvThm (inner : InnerOps ℝ L) : Prop :=
  ∀ (a b : Vector (Sample ℝ) L) (k : Fin L),
    toComplex (inner.fwd (cyclicConv a b))[k] = toComplex (inner.fwd a)[k] * toComplex (inner.fwd b)[k]

/-- A sample-wise linear combination `p*a + q*b`. -/
noncomputable def combine (p q : ℂ) (a b : Vector (Sample ℝ) L) : Vector (Sample ℝ) L :=
  Vector.ofFn fun k => ofComplex (p * toComplex a[k] + q * toComplex b[k])

/-- `Linear`. -/
def Linear (op : Vector (Sample ℝ) L → Vector (Sample ℝ) L) : Prop :=
  ∀ (p q : ℂ) (a b : Vector (Sample ℝ) L), op (combine p q a b) = combine p q (op a) (op b)

/-- `IsDFT(sigma)`. -/
def IsDFT (inner : InnerOps ℝ L) (sigma : ℝ) : Prop :=
  ∀ (z : Vector (Sample ℝ) L) (k : Fin L), toComplex (inner.fwd z)[k] = dftEntry sigma z k
end

/-! What the source says about accuracy (R97): properties of an instance, of which "nothing more is promised". -/

section
variable {R T : Type}

/-- "Against a naive O(N^2) DFT for small and non-power-of-two N (e.g. N = 1, 5, 6, 12, 13): relative error below" the
bound of the precision. The reference and the norm are not stated (N9): the one is `naive`, the other `p.tol`. -/
def AccurateDft (p : Params R T) (prec : Precision)
    (naive : (n : Nat) → Vector (Sample R) n → Vector (Sample R) n) : Prop :=
  ∀ (n : Nat) (hle : n ≤ p.inner.L) (u : Vector (Sample R) n), n ∈ [1, 5, 6, 12, 13] → innerSize n = p.inner.L →
    p.tol.errorBelow prec.bound (samples (bluestein p.num p.trig p.inner.ops .fft hle u)) (samples (naive n u)) = true

/-- "Round trip within tolerance scaling with N and machine precision": "forward transform followed by Ifft reproduces the original" (95_test_vectors S5). -/
def RoundTripWithinTol (p : Params R T) : Prop :=
  ∀ (n : Nat) (hle : n ≤ p.inner.L) (u : Vector (Sample R) n), 1 ≤ n → n ≤ Config.nMax →
    innerSize n = p.inner.L →
    let run := fun (k : Kind) (v : Vector (Sample R) n) => bluestein p.num p.trig p.inner.ops k hle v
    p.tol.withinTol (samples (run .ifft (run .fft u))) (samples u) = true

/-- A tolerance to which an exact result is no error at all, whatever its norm. -/
def AcceptsExact (tol : Tol R) : Prop :=
  ∀ (q : ℚ) (l : List (Sample R)), 0 < q → tol.errorBelow q l l = true ∧ tol.withinTol l l = true
end

/-- The exact DFT as a sequence. -/
noncomputable def exactDft (n : Nat) (u : Vector (Sample ℝ) n) : Vector (Sample ℝ) n :=
  Vector.ofFn fun k => ofComplex (dftEntry (-1) u k)

/-- The energy of a sequence: the "sum of squared magnitudes" (R141). -/
noncomputable def energy {n : Nat} (u : Vector (Sample ℝ) n) : ℝ :=
  ∑ i : Fin n, (u[i].re ^ 2 + u[i].im ^ 2)

/-- The kernel sign of a kind's transform (R144): -1 for forward kinds, +1 for inverse kinds. -/
noncomputable def kernelSign (k : Kind) : ℝ := if isForward k then -1 else 1

end Sys2Proof.Ideal
end

