-- ==== Sys2Proof/Safety.lean ====
section
/-! DEFINITION. The terms claims use: the invariant of the engine (R18, R20, R29, R30), where a run stands (R224), and
states in which nothing is about to arrive. -/

namespace Sys2Proof.Safety

open Machine

/-- Elements `[0, n)` of a space all hold a value. -/
def holds {R : Type} (mem : Memory R) (n : Nat) : Prop := ∀ i, i < n → (mem.read i).isSome

/-- No element outside `[0, n)` of a space holds a value: the space's length is `n` (R29, R43). -/
def within {R : Type} (mem : Memory R) (n : Nat) : Prop := ∀ i, (mem.read i).isSome → i < n

/-- A CONSTRUCT has been accepted, and no fatal stop has occurred. -/
def sized (p : Phase) : Bool := p != .uncon && p != .fatal

/-- XGEN has run. -/
def xFilled (p : Phase) : Bool := sized p && p != .cXgen

/-- WGEN has run. -/
def wFilled (p : Phase) : Bool := xFilled p && p != .cWgen

/-- Step 1 of the transform in progress has run. -/
def scrData (p : Phase) : Bool := p.transforming && p != .tMod

/-- Steps 1 and 2 of the transform in progress have run. -/
def scrFull (p : Phase) : Bool := scrData p && p != .tZpad

/-- Every memory space is in its canonical form. -/
def SpacesWf (s : State) : Prop := ∀ sp, (s.space sp).wf

/-- `GUARD = 1` exactly in the `C_*` and `T_*` phases (R18); at a fatal stop it keeps its value (R192). -/
def GuardMatchesPhase (s : State) : Prop := s.phase ≠ .fatal → s.guard = s.phase.busy

/-- `FCODE = 0` and `FCMD = 0x00` while no fatal stop has occurred (R20, R21); in FATAL a cause is recorded (R192). -/
def CauseRecorded (s : State) : Prop :=
  (s.phase ≠ .fatal → s.fcode = .noStop ∧ s.fcmd = 0x00#8) ∧ (s.phase = .fatal → s.fcode ≠ .noStop)

/-- The sizes of a constructed engine (R11, R12, R29): `1 <= N <= N_MAX` and `M = innerSize(N)`. -/
def SizesLegal (s : State) : Prop :=
  sized s.phase = true →
    1 ≤ s.sizeN ∧ s.sizeN ≤ Config.nMax ∧ s.sizeM = innerSize s.sizeN ∧ s.sizesHeld = true

/-- The lengths of the engine's spaces (R29); an unconstructed engine's hold no value at all (R30, R33). -/
def LengthsMatch (s : State) : Prop :=
  (sized s.phase = true →
    within s.xf s.sizeN ∧ within s.xi s.sizeN ∧ within s.wf s.sizeM ∧ within s.wi s.sizeM ∧ within s.scr s.sizeM) ∧
  (s.phase = .uncon →
    within s.xf 0 ∧ within s.xi 0 ∧ within s.wf 0 ∧ within s.wi 0 ∧ within s.scr 0)

/-- What has been written before it is read (R30). -/
def WrittenBeforeRead (s : State) : Prop :=
  (xFilled s.phase = true → holds s.xf s.sizeN ∧ holds s.xi s.sizeN) ∧
  (wFilled s.phase = true → holds s.wf s.sizeM ∧ holds s.wi s.sizeM) ∧
  (scrData s.phase = true → holds s.scr s.sizeN) ∧
  (scrFull s.phase = true → holds s.scr s.sizeM)

/-- `SCALE = scale(KIND, N)` during a transform (R16). -/
def ScaleLatched (s : State) : Prop :=
  s.phase.transforming = true → s.scale = scale Config.num s.kind s.sizeN ∧ s.kindHeld = true

/-- The invariant of the engine. -/
def EngineInv (s : State) : Prop :=
  SpacesWf s ∧ GuardMatchesPhase s ∧ CauseRecorded s ∧ SizesLegal s ∧ LengthsMatch s ∧ WrittenBeforeRead s ∧
    ScaleLatched s

/-- The run has ended well (R224). DESIGN CHOICE (log 33): the script is exhausted when no line of it is left; a move it
announced whose moment has not come (it waits in `arrivals` for an invocation or a micro-operation) does not count. -/
def EndedWell (s : State) : Prop := s.script = [] ∧ s.guard = false ∧ (s.phase = .uncon ∨ s.phase = .idle)

/-- No action lands in the phases of a command: the engine runs the command in progress undisturbed. -/
def Undisturbed (s : State) : Prop := s.arrivals = []

/-- The engine's own state, without HOST's buffer, HOST's and INNER's pending moves, and the model's counter. -/
def SameEngine (s t : State) : Prop :=
  t.n = s.n ∧ t.m = s.m ∧ t.kind = s.kind ∧ t.scale = s.scale ∧ t.result = s.result ∧ t.phase = s.phase ∧
  t.guard = s.guard ∧ t.fcode = s.fcode ∧ t.fcmd = s.fcmd ∧ t.sizesHeld = s.sizesHeld ∧ t.kindHeld = s.kindHeld ∧
  t.resultHeld = s.resultHeld ∧ t.xf = s.xf ∧ t.xi = s.xi ∧ t.wf = s.wf ∧ t.wi = s.wi ∧ t.scr = s.scr

/-- HOST's side is unchanged: BUF, the pending moves, what was read, and the counter of free values. -/
def SameHost (s t : State) : Prop :=
  t.buf = s.buf ∧ t.bufLen = s.bufLen ∧ t.script = s.script ∧ t.arrivals = s.arrivals ∧ t.reads = s.reads ∧
  t.draws = s.draws

/-- The registers and flags, without the sequencer position and the guard. -/
def SameRegisters (s t : State) : Prop :=
  t.n = s.n ∧ t.m = s.m ∧ t.kind = s.kind ∧ t.scale = s.scale ∧ t.result = s.result ∧ t.fcode = s.fcode ∧
  t.fcmd = s.fcmd ∧ t.sizesHeld = s.sizesHeld ∧ t.kindHeld = s.kindHeld ∧ t.resultHeld = s.resultHeld

/-- HOST's pending moves, what it has read, and the counter of free values. -/
def SameQueues (s t : State) : Prop :=
  t.bufLen = s.bufLen ∧ t.script = s.script ∧ t.arrivals = s.arrivals ∧ t.reads = s.reads ∧ t.draws = s.draws

/-- Every space but those in `written` has the same content. -/
def SameSpacesBut (written : List Space) (s t : State) : Prop :=
  ∀ sp, sp ∉ written → ∀ i, (t.space sp).read i = (s.space sp).read i

/-- The x-table and the w-table of a kind, read off R137: forward kinds use `(XF, WF)`, inverse kinds `(XI, WI)`. -/
def xOf (s : State) : Memory RealScalar :=
  match s.kind with
  | .fft | .sfft => s.xf
  | .ifft | .uifft | .sifft => s.xi
def wOf (s : State) : Memory RealScalar :=
  match s.kind with
  | .fft | .sfft => s.wf
  | .ifft | .uifft | .sifft => s.wi

/-- `t` is `s` stopped by `raise Fatal(code)` for a frame with command byte `cmd` (R192): the cause is recorded, PHASE is
FATAL and GUARD keeps its value. What else a stop leaves alone is a statement of its own (R198; log 6, 7). -/
def StoppedAt (code : FatalCode) (cmd : Byte) (s t : State) : Prop :=
  t.fcode = code ∧ t.fcmd = cmd ∧ t.phase = .fatal ∧ t.guard = s.guard

/-- The spaces a fatal stop leaves unspecified (R192): none when no command is in progress; else SCR, BUF, and the table
being transformed. -/
def spoiled (s : State) : List Space :=
  if s.guard then
    match s.phase with
    | .cWfwdF => [.scr, .buf, .wf]
    | .cWfwdI => [.scr, .buf, .wi]
    | _ => [.scr, .buf]
  else []

/-- What `exec` of a frame that stops the engine answers. -/
def StopsWith (i : Instr) (code : FatalCode) (cmd : Byte) (s : State) : Prop :=
  ∃ t, exec i s = .next t ∧ StoppedAt code cmd s t

/-- What an accepted XFORM of kind `k` with factor `x` answers (R135): the registers it writes, and nothing else. -/
def AcceptedXform (i : Instr) (k : Kind) (x : RealScalar) (s : State) : Prop :=
  ∃ t, exec i s = .next t ∧ t.kind = k ∧ t.scale = x ∧ t.kindHeld = true ∧ t.guard = true ∧ t.phase = .tMod ∧
    t.n = s.n ∧ t.m = s.m ∧ t.sizesHeld = s.sizesHeld ∧ t.result = s.result ∧ t.resultHeld = s.resultHeld ∧
    t.fcode = s.fcode ∧ t.fcmd = s.fcmd ∧ SameQueues s t ∧ SameSpacesBut [] s t

/-- `t` is `s` with `w` in RESULT, which holds a value from then on (R17, R22), and nothing else written. -/
def ResultWritten (w : Word) (s t : State) : Prop :=
  t.result = w ∧ t.resultHeld = true ∧ t.phase = s.phase ∧ t.guard = s.guard ∧ t.n = s.n ∧ t.m = s.m ∧
    t.sizesHeld = s.sizesHeld ∧ t.kind = s.kind ∧ t.scale = s.scale ∧ t.kindHeld = s.kindHeld ∧ t.fcode = s.fcode ∧
    t.fcmd = s.fcmd ∧ SameQueues s t ∧ SameSpacesBut [] s t

/-- What a command that only writes RESULT answers (R133, R134). -/
def OnlyResult (i : Instr) (w : Word) (s : State) : Prop := ∃ t, exec i s = .next t ∧ ResultWritten w s t

/-- The frame of a micro-operation that writes the spaces `written` and goes on to phase `p` with the guard as `g`. -/
def MicroFrame (written : List Space) (p : Phase) (g : Bool) (s t : State) : Prop :=
  t.phase = p ∧ t.guard = g ∧ SameRegisters s t ∧ SameQueues s t ∧ SameSpacesBut written s t

/-- The transitions of R14 that are neither a fatal stop nor a reset. -/
def advances : List (Phase × Phase) :=
  [(.uncon, .cXgen), (.cXgen, .cWgen), (.cWgen, .cWfwdF), (.cWfwdF, .cWfwdI), (.cWfwdI, .idle), (.idle, .tMod),
   (.tMod, .tZpad), (.tZpad, .tIfwd), (.tIfwd, .tFmul), (.tFmul, .tIinv), (.tIinv, .tDemod), (.tDemod, .idle)]

/-- The action a step takes from outside, if it takes one. -/
def nextAction (s : State) : Option HostAction :=
  match takeArrival s.phase s.arrivals with
  | some (a, _) => some a
  | none =>
    if s.phase.busy then none
    else match s.script with
      | .act a :: _ => some a
      | _ => none

end Sys2Proof.Safety
end

