-- ==== Sys2Proof/Certificates/Slice0/Obligations.lean ====
section
/-! DEFINITION. The statements for the provers. -/

open Sys2Proof Sys2Proof.Machine Sys2Proof.Safety

/-! Encoding. -/

/-- R60 to R64: the decoder and the encoder agree in both directions, on every code of either format. -/
def Obligations.DecoderAndEncoderAgree : Prop :=
  (∀ i : Instr, decodeCode (encode i) = .ok i) ∧ ∀ (c : Code) (i : Instr), decodeCode c = .ok i → c = encode i

/-- Sanity: words written out from the tables of R62, R63 and R64 decode to what they stand for. -/
def Obligations.TableWordsDecode : Prop :=
  (∀ n l a b c d e : Word, decode ⟨0x10#8, [n, l, a, b, c, d, e]⟩ = .ok (.construct n l a b c d e)) ∧
  decode ⟨0x20#8, []⟩ = .ok .size ∧
  (∀ w : Word, decode ⟨0x33#8, [w]⟩ = .ok (.xformSfft w) ∧ decode ⟨0x40#8, [w]⟩ = .ok (.isize w)) ∧
  decodeMicro 0b0010#4 = .ok .wgen ∧ decodeMicro 0b1011#4 = .ok .demod ∧
  (∀ ops : List Word, decode ⟨0x35#8, ops⟩ = .error (.illegalCmd 0x35#8))

/-- R67: which command bytes are illegal, that they are 248 of the 256, that `0x00` is one, and that an illegal frame
presented in a phase other than FATAL raises `Fatal(ILLEGAL_CMD)`. -/
def Obligations.IllegalCommandBytes : Prop :=
  (∀ f : Frame, decode f = .error (.illegalCmd f.cmd) ↔
    (Cmd.op f.cmd = 0#4 ∨ 5 ≤ (Cmd.op f.cmd).toNat ∨ Cmd.z f.cmd = true ∨
      (Cmd.op f.cmd ∈ [1#4, 2#4, 4#4] ∧ Cmd.kind f.cmd ≠ 0#3) ∨
      (Cmd.op f.cmd = 3#4 ∧ 5 ≤ (Cmd.kind f.cmd).toNat))) ∧
  ((List.range 256).filter fun b => !(Frame.legal ⟨BitVec.ofNat 8 b, []⟩)).length = 248 ∧
  (∀ ops : List Word, decode ⟨0x00#8, ops⟩ = .error (.illegalCmd 0x00#8)) ∧
  (∀ (f : Frame) (s : State), decode f = .error (.illegalCmd f.cmd) → s.phase ≠ .fatal →
    ∃ t, present f s = .next t ∧ StoppedAt .illegalCmd f.cmd s t)

/-! The host commands. -/

/-- R131, acceptance: when its five checks pass CONSTRUCT writes N and M, sets GUARD and enters C_XGEN, and changes
nothing else. -/
def Obligations.ConstructAccepted : Prop :=
  ∀ (n l lenWf lenWi lenXf lenXi lenScr : Word) (s : State),
    s.phase = .uncon → s.guard = false → 1 ≤ n.toNat → n.toNat ≤ Config.nMax →
    l.toNat = innerSize n.toNat → lenWf = l → lenWi = l → lenXf = n → lenXi = n → lenScr = l →
    ∃ t, exec (.construct n l lenWf lenWi lenXf lenXi lenScr) s = .next t ∧
      t.n = n ∧ t.m.toNat = innerSize n.toNat ∧ t.guard = true ∧ t.phase = .cXgen ∧ t.sizesHeld = true ∧
      t.kind = s.kind ∧ t.scale = s.scale ∧ t.kindHeld = s.kindHeld ∧ t.result = s.result ∧
      t.resultHeld = s.resultHeld ∧ t.fcode = s.fcode ∧ t.fcmd = s.fcmd ∧
      SameQueues s t ∧ SameSpacesBut [] s t

/-- R131, R196: the checks of CONSTRUCT in their order; the first that fails is the recorded cause (R191, R195, R188,
R193, R187). -/
def Obligations.ConstructStopsInOrder : Prop :=
  ∀ (n l lenWf lenWi lenXf lenXi lenScr : Word) (s : State), s.phase ≠ .fatal →
    let stops := fun code => StopsWith (.construct n l lenWf lenWi lenXf lenXi lenScr) code 0x10#8 s
    if s.guard = true then stops .reentrant
    else if s.phase ≠ .uncon then stops .alreadyConstructed
    else if n.toNat = 0 ∨ Config.nMax < n.toNat then stops .badSize
    else if l.toNat ≠ innerSize n.toNat then stops .innerSizeMismatch
    else if lenWf ≠ l ∨ lenWi ≠ l ∨ lenXf ≠ n ∨ lenXi ≠ n ∨ lenScr ≠ l then stops .lengthMismatch
    else ∃ t, exec (.construct n l lenWf lenWi lenXf lenXi lenScr) s = .next t ∧ t.phase = .cXgen

/-- R133, R17: SIZE, in every phase; RESULT holds a value afterwards (R22). -/
def Obligations.SizeReturnsN : Prop :=
  ∀ s : State,
    (s.phase = .uncon → StopsWith .size .notConstructed 0x20#8 s) ∧
    (s.phase ≠ .uncon → s.phase ≠ .fatal → OnlyResult .size s.n s) ∧
    (s.phase = .fatal → exec .size s = .next s)

/-- R134, R94: ISIZE leaves in RESULT the least power of two that is at least `2n - 1`, in every phase but FATAL and
whatever the guard; outside the domain it raises `Fatal(BAD_SIZE)`. -/
def Obligations.IsizeReturnsInnerSize : Prop :=
  ∀ (n : Word) (s : State), s.phase ≠ .fatal →
    (1 ≤ n.toNat ∧ n.toNat ≤ 2 ^ 30 →
      ∃ w : Word, OnlyResult (.isize n) w s ∧
        ∃ k, w.toNat = 2 ^ k ∧ 2 * n.toNat - 1 ≤ 2 ^ k ∧ ∀ j, 2 * n.toNat - 1 ≤ 2 ^ j → k ≤ j) ∧
    (n.toNat = 0 ∨ 2 ^ 30 < n.toNat → StopsWith (.isize n) .badSize 0x40#8 s)

/-- R135, R92, R138 to R142: an XFORM whose checks pass latches its kind and its scale factor, sets GUARD and enters
T_MOD, and changes nothing else; for each of the five kinds. -/
def Obligations.XformAccepted : Prop :=
  ∀ s : State, s.phase = .idle → s.guard = false →
    AcceptedXform (.xformFft s.n) .fft Config.num.one s ∧
    AcceptedXform (.xformIfft s.n) .ifft (Config.num.div Config.num.one (Config.num.ofNat s.n.toNat)) s ∧
    AcceptedXform (.xformUifft s.n) .uifft Config.num.one s ∧
    AcceptedXform (.xformSfft s.n) .sfft
      (Config.num.div Config.num.one (Config.num.sqrt (Config.num.ofNat s.n.toNat))) s ∧
    AcceptedXform (.xformSifft s.n) .sifft
      (Config.num.div Config.num.one (Config.num.sqrt (Config.num.ofNat s.n.toNat))) s

/-- R135, R187, R189, R196: the checks of the five XFORM commands in their order. -/
def Obligations.XformStopsInOrder : Prop :=
  ∀ (lenBuf : Word) (s : State) (p : Instr × Byte),
    p ∈ [(.xformFft lenBuf, 0x30#8), (.xformIfft lenBuf, 0x31#8), (.xformUifft lenBuf, 0x32#8),
      (.xformSfft lenBuf, 0x33#8), (.xformSifft lenBuf, 0x34#8)] →
    s.phase ≠ .fatal →
    if s.guard = true then StopsWith p.1 .reentrant p.2 s
    else if s.phase = .uncon then StopsWith p.1 .notConstructed p.2 s
    else if lenBuf ≠ s.n then StopsWith p.1 .lengthMismatch p.2 s
    else ∃ t, exec p.1 s = .next t ∧ t.phase = .tMod

/-- Frames of the eight commands: a command changes no memory element while no command is in progress, N and M are
written by CONSTRUCT alone, KIND and SCALE by XFORM alone, RESULT by SIZE and ISIZE alone, each with its held mark; GUARD is
set by CONSTRUCT and XFORM alone and cleared by none, PHASE moves to C_XGEN, to T_MOD or to FATAL, and FCODE and FCMD are
written at a fatal stop alone; HOST's queues and the buffer's length are never written. For a command that STOPS the engine,
that the other registers and the spaces XF and XI are kept is the MODEL's choice (log 6, log 7): R198 leaves them
unspecified. -/
def Obligations.CommandFrames : Prop :=
  ∀ (f : Frame) (i : Instr) (s t : State), decode f = .ok i → exec i s = .next t →
    let xforms := [0x30#8, 0x31#8, 0x32#8, 0x33#8, 0x34#8]
    t.script = s.script ∧ t.arrivals = s.arrivals ∧ t.reads = s.reads ∧ t.bufLen = s.bufLen ∧
    (s.guard = false → SameSpacesBut [] s t) ∧
    (∀ sp, sp = .xf ∨ sp = .xi → t.space sp = s.space sp) ∧
    (t.n ≠ s.n ∨ t.m ≠ s.m ∨ t.sizesHeld ≠ s.sizesHeld → f.cmd = 0x10#8) ∧
    (t.kind ≠ s.kind ∨ t.scale ≠ s.scale ∨ t.kindHeld ≠ s.kindHeld → f.cmd ∈ xforms) ∧
    (t.result ≠ s.result ∨ t.resultHeld ≠ s.resultHeld → f.cmd = 0x20#8 ∨ f.cmd = 0x40#8) ∧
    (t.phase ≠ s.phase → f.cmd = 0x10#8 ∧ s.phase = .uncon ∧ t.phase = .cXgen ∨ f.cmd ∈ xforms ∧ t.phase = .tMod ∨
      t.phase = .fatal) ∧
    (t.guard ≠ s.guard → t.guard = true ∧ f.cmd ∈ 0x10#8 :: xforms) ∧
    (t.fcode ≠ s.fcode ∨ t.fcmd ≠ s.fcmd → t.phase = .fatal ∧ t.fcmd = f.cmd)

/-- R131, R171, R216 on the generic machine, whose capability is given: a CONSTRUCT that passes its checks is accepted when
its `A1` is the length the capability reports; another `A1` is a false declaration, outside every rule, and refused. -/
def Obligations.ConstructTakesTheCapabilitysLength : Prop :=
  ∀ (p : Params ℝ ℝ) (n l : Word) (s : State ℝ), s.phase = .uncon → s.guard = false → 1 ≤ n.toNat →
    n.toNat ≤ Config.nMax → l.toNat = innerSize n.toNat →
    (l.toNat = p.inner.L → ∃ t, execOn p (.construct n l l l n n l) s = .next t ∧ t.phase = .cXgen ∧ t.guard = true ∧
      t.n = n ∧ t.m.toNat = p.inner.L) ∧
    (l.toNat ≠ p.inner.L → execOn p (.construct n l l l n n l) s = .refused .falseInnerLength)

/-! The ROM generator. -/

/-- R110: XGEN. -/
def Obligations.XgenFillsTables : Prop :=
  ∀ s : State, ∃ t, exec .xgen s = .next t ∧ MicroFrame [.xf, .xi] .cWgen s.guard s t ∧
    ∀ i, (i < s.n.toNat →
        t.xi.read i = some (halfTwiddle Config.trig (-((i : Int) * i)) s.n.toNat) ∧
        t.xf.read i = some (conj Config.num (halfTwiddle Config.trig (-((i : Int) * i)) s.n.toNat))) ∧
      (s.n.toNat ≤ i → t.xi.read i = s.xi.read i ∧ t.xf.read i = s.xf.read i)

/-- R112, R113: WGEN, on the three ranges of the partition, for the sizes of a constructed engine. -/
def Obligations.WgenFillsTables : Prop :=
  ∀ s : State, 2 * s.n.toNat - 1 ≤ s.m.toNat → ∃ t, exec .wgen s = .next t ∧
    MicroFrame [.wf, .wi] .cWfwdF s.guard s t ∧
    ∀ i,
      (i < s.n.toNat ∧ i < s.m.toNat →
        t.wi.read i = some (halfTwiddle Config.trig ((i : Int) ^ 2) s.n.toNat) ∧
        t.wf.read i = some (conj Config.num (halfTwiddle Config.trig ((i : Int) ^ 2) s.n.toNat))) ∧
      (s.m.toNat - s.n.toNat < i ∧ i < s.m.toNat →
        t.wi.read i = some (halfTwiddle Config.trig (((i : Int) - s.m.toNat) ^ 2) s.n.toNat) ∧
        t.wf.read i = some (conj Config.num (halfTwiddle Config.trig (((i : Int) - s.m.toNat) ^ 2) s.n.toNat))) ∧
      (s.n.toNat ≤ i ∧ i ≤ s.m.toNat - s.n.toNat ∧ i < s.m.toNat →
        t.wi.read i = some ⟨Config.num.zero, Config.num.zero⟩ ∧
        t.wf.read i = some ⟨Config.num.zero, Config.num.zero⟩) ∧
      (s.m.toNat ≤ i → t.wi.read i = s.wi.read i ∧ t.wf.read i = s.wf.read i)

/-- R114, R115, R172: the two table transforms, both by INNER's forward operation; the second completes CONSTRUCT. `M` is
the length of the attached capability (AttachedLengthIsM). -/
def Obligations.TableTransforms : Prop :=
  ∀ (s : State) (z : Vector C s.attached.L), s.m.toNat = s.attached.L →
    ((∀ i (h : i < s.attached.L), s.wf.read i = some z[i]) →
      ∃ t, exec .wfwdF s = .next t ∧ MicroFrame [.wf] .cWfwdI s.guard s t ∧
        (∀ i (h : i < s.attached.L), t.wf.read i = some (s.attached.fwd z)[i]) ∧
        ∀ i, s.m.toNat ≤ i → t.wf.read i = s.wf.read i) ∧
    ((∀ i (h : i < s.attached.L), s.wi.read i = some z[i]) →
      ∃ t, exec .wfwdI s = .next t ∧ MicroFrame [.wi] .idle false s t ∧
        (∀ i (h : i < s.attached.L), t.wi.read i = some (s.attached.fwd z)[i]) ∧
        ∀ i, s.m.toNat ≤ i → t.wi.read i = s.wi.read i)

/-- R132: what a completed CONSTRUCT establishes, five undisturbed steps after it is presented. -/
def Obligations.ConstructBuildsTables : Prop :=
  ∀ (s : State) (n l : Word) (rest : List ScriptLine),
    s.phase = .uncon → s.guard = false → s.arrivals = [] → 1 ≤ n.toNat → n.toNat ≤ Config.nMax →
    l.toNat = innerSize n.toNat → s.script = .act (.frame ⟨0x10#8, [n, l, l, l, n, n, l]⟩) :: rest →
    let inner := capabilityOf l
    ∃ t, Host.Core.run Sys2Proof.core 5 s = .next t ∧ t.phase = .idle ∧ t.guard = false ∧ t.n = n ∧ t.m = l ∧
      inner.L = l.toNat ∧
      (∀ i (h : i < n.toNat),
        t.xi.read i = some (tableXi Config.trig n.toNat)[i] ∧
        t.xf.read i = some (tableXf Config.num Config.trig n.toNat)[i]) ∧
      (∀ i (h : i < inner.L),
        t.wi.read i = some (tableWi Config.num Config.trig inner.ops n.toNat)[i] ∧
        t.wf.read i = some (tableWf Config.num Config.trig inner.ops n.toNat)[i]) ∧
      t.scr = s.scr ∧ t.buf = s.buf ∧ t.kind = s.kind ∧ t.scale = s.scale ∧ t.result = s.result ∧ t.script = rest

/-! The executor. -/

/-- R151: MOD. When the elements it reads hold values it writes their products; when an element of BUF it reads holds
no value it faults and names the first one (R30, R218). -/
def Obligations.ModulatorProducts : Prop :=
  (∀ (s : State) (x u : Vector C s.n.toNat),
    (∀ i (h : i < s.n.toNat), (xOf s).read i = some x[i]) → (∀ i (h : i < s.n.toNat), s.buf.read i = some u[i]) →
    ∃ t, exec .mod s = .next t ∧ MicroFrame [.scr] .tZpad s.guard s t ∧
      (∀ i (h : i < s.n.toNat), t.scr.read i = some (cmul Config.num x[i] u[i])) ∧
      ∀ i, s.n.toNat ≤ i → t.scr.read i = s.scr.read i) ∧
  (∀ (s : State) (i : Nat), holds (xOf s) s.n.toNat → i < s.n.toNat → s.buf.read i = none → holds s.buf i →
    exec .mod s = .fault (.noValue .buf i))

/-- R152: ZPAD. -/
def Obligations.ZeroPadding : Prop :=
  ∀ s : State, ∃ t, exec .zpad s = .next t ∧ MicroFrame [.scr] .tIfwd s.guard s t ∧
    ∀ i, (s.n.toNat ≤ i ∧ i < s.m.toNat → t.scr.read i = some ⟨Config.num.zero, Config.num.zero⟩) ∧
      (i < s.n.toNat ∨ s.m.toNat ≤ i → t.scr.read i = s.scr.read i)

/-- R153, R155, R172, R173: the two invocations on SCR: the forward operation in IFWD, the inverse one in IINV. `M` is
the length of the attached capability (AttachedLengthIsM). -/
def Obligations.ScratchTransforms : Prop :=
  ∀ (s : State) (z : Vector C s.attached.L), s.m.toNat = s.attached.L →
    (∀ i (h : i < s.attached.L), s.scr.read i = some z[i]) →
    (∃ t, exec .ifwd s = .next t ∧ MicroFrame [.scr] .tFmul s.guard s t ∧
      (∀ i (h : i < s.attached.L), t.scr.read i = some (s.attached.fwd z)[i]) ∧
      ∀ i, s.m.toNat ≤ i → t.scr.read i = s.scr.read i) ∧
    (∃ t, exec .iinv s = .next t ∧ MicroFrame [.scr] .tDemod s.guard s t ∧
      (∀ i (h : i < s.attached.L), t.scr.read i = some (s.attached.inv z)[i]) ∧
      ∀ i, s.m.toNat ≤ i → t.scr.read i = s.scr.read i)

/-- R154: FMUL. -/
def Obligations.FrequencyMultiplier : Prop :=
  ∀ (s : State) (b w : Vector C s.m.toNat),
    (∀ i (h : i < s.m.toNat), s.scr.read i = some b[i]) → (∀ i (h : i < s.m.toNat), (wOf s).read i = some w[i]) →
    ∃ t, exec .fmul s = .next t ∧ MicroFrame [.scr] .tIinv s.guard s t ∧
      (∀ i (h : i < s.m.toNat), t.scr.read i = some (cmul Config.num b[i] w[i])) ∧
      ∀ i, s.m.toNat ≤ i → t.scr.read i = s.scr.read i

/-- R156: DEMOD. -/
def Obligations.DemodulatorAndScaler : Prop :=
  ∀ (s : State) (e x : Vector C s.n.toNat),
    (∀ i (h : i < s.n.toNat), s.scr.read i = some e[i]) → (∀ i (h : i < s.n.toNat), (xOf s).read i = some x[i]) →
    ∃ t, exec .demod s = .next t ∧ MicroFrame [.buf] .idle false s t ∧
      (∀ i (h : i < s.n.toNat), t.buf.read i = some (rscale Config.num (cmul Config.num e[i] x[i]) s.scale)) ∧
      ∀ i, s.n.toNat ≤ i → t.buf.read i = s.buf.read i

/-- The micro-operations that read a space stop where an element they read holds no value, and only there (R30, R44); the
stop is a model fault (log 4). That WFWD.F, WFWD.I, IFWD and IINV go on also where `M` is not the capability's length, in
states that no run reaches, is the MODEL'S choice (log 31, DESIGN CHOICE): the spec gives no result there. -/
def Obligations.MicroOpsFaultOnlyOnNoValue : Prop :=
  ∀ (s : State) (p : Instr × List (Space × Nat)),
    p ∈ [(.wfwdF, [(.wf, s.m.toNat)]), (.wfwdI, [(.wi, s.m.toNat)]),
      (.mod, [(s.xTable, s.n.toNat), (.buf, s.n.toNat)]), (.ifwd, [(.scr, s.m.toNat)]),
      (.fmul, [(.scr, s.m.toNat), (s.wTable, s.m.toNat)]), (.iinv, [(.scr, s.m.toNat)]),
      (.demod, [(.scr, s.n.toNat), (s.xTable, s.n.toNat)])] →
    ((∀ q ∈ p.2, holds (s.space q.1) q.2) → ∃ t, exec p.1 s = .next t) ∧
    ((∃ q ∈ p.2, ¬ holds (s.space q.1) q.2) →
      ∃ sp i k, exec p.1 s = .fault (.noValue sp i) ∧ (sp, k) ∈ p.2 ∧ i < k ∧ (s.space sp).read i = none)

/-- R143: the big-step meaning of an accepted XFORM of each kind, seven undisturbed steps after it is presented. -/
def Obligations.XformBigStep : Prop :=
  ∀ (s : State) (k : Kind) (cmd : Byte) (rest : List ScriptLine) (u : Vector C s.n.toNat)
    (x : Vector C s.n.toNat) (w : Vector C s.attached.L) (hle : s.n.toNat ≤ s.attached.L), s.m.toNat = s.attached.L →
    (k, cmd) ∈ [(Kind.fft, 0x30#8), (.ifft, 0x31#8), (.uifft, 0x32#8), (.sfft, 0x33#8), (.sifft, 0x34#8)] →
    s.phase = .idle → s.guard = false → s.arrivals = [] → s.script = .act (.frame ⟨cmd, [s.n]⟩) :: rest →
    (∀ i (h : i < s.n.toNat), s.buf.read i = some u[i]) →
    (∀ i (h : i < s.n.toNat), (if isForward k then s.xf else s.xi).read i = some x[i]) →
    (∀ i (h : i < s.attached.L), (if isForward k then s.wf else s.wi).read i = some w[i]) →
    ∃ t, Host.Core.run Sys2Proof.core 7 s = .next t ∧
      (∀ i (h : i < s.n.toNat), t.buf.read i =
        some (transformed Config.num s.attached.ops hle x w (scale Config.num k s.n.toNat) u)[i]) ∧
      (∀ i, s.n.toNat ≤ i → t.buf.read i = s.buf.read i) ∧
      (∀ i (h : i < s.attached.L), t.scr.read i = some (convolved Config.num s.attached.ops x w u)[i]) ∧
      t.phase = .idle ∧ t.guard = false ∧ t.kind = k ∧ t.scale = scale Config.num k s.n.toNat ∧
      t.xf = s.xf ∧ t.xi = s.xi ∧ t.wf = s.wf ∧ t.wi = s.wi ∧ t.n = s.n ∧ t.m = s.m ∧ t.result = s.result ∧
      t.fcode = s.fcode ∧ t.fcmd = s.fcmd ∧ t.script = rest

/-- R136: the result of an XFORM does not depend on earlier transforms: two constructed idle engines with the same
sizes, tables and BUF give the same BUF, whatever SCR, KIND, SCALE and RESULT were. -/
def Obligations.TransformsAreIndependent : Prop :=
  ∀ (s s' : State) (f : Frame), EngineInv s → EngineInv s' → s.phase = .idle → s'.phase = .idle →
    s.arrivals = [] → s'.arrivals = [] → s.n = s'.n →
    s.xf = s'.xf → s.xi = s'.xi → s.wf = s'.wf → s.wi = s'.wi → s.buf = s'.buf → holds s.buf s.n.toNat →
    f ∈ [⟨0x30#8, [s.n]⟩, ⟨0x31#8, [s.n]⟩, ⟨0x32#8, [s.n]⟩, ⟨0x33#8, [s.n]⟩, ⟨0x34#8, [s.n]⟩] →
    ∃ t t', Host.Core.run Sys2Proof.core 7 (s.setScript [.act (.frame f)]) = .next t ∧
      Host.Core.run Sys2Proof.core 7 (s'.setScript [.act (.frame f)]) = .next t' ∧
      (∀ i, t.buf.read i = t'.buf.read i) ∧ t.phase = .idle ∧ t'.phase = .idle ∧ t.guard = false ∧ t'.guard = false

/-! The fatal stop, the guard, the port, reset. -/

/-- R191: while a command is in progress, CONSTRUCT and XFORM frames raise `Fatal(REENTRANT)`, SIZE and ISIZE run as
they always do and write RESULT alone, and an illegal frame raises `Fatal(ILLEGAL_CMD)`. -/
def Obligations.NestedFrames : Prop :=
  ∀ (f : Frame) (s : State), s.phase.busy = true → s.guard = true →
    (∀ i, decode f = .ok i → f.cmd ∈ [0x10#8, 0x30#8, 0x31#8, 0x32#8, 0x33#8, 0x34#8] →
      ∃ t, present f s = .next t ∧ StoppedAt .reentrant f.cmd s t) ∧
    (f = ⟨0x20#8, []⟩ → ∃ t, present f s = .next t ∧ ResultWritten s.n s t) ∧
    (∀ n : Word, f = ⟨0x40#8, [n]⟩ → 1 ≤ n.toNat → n.toNat ≤ Config.nMax →
      ∃ t w, present f s = .next t ∧ w.toNat = innerSize n.toNat ∧ ResultWritten w s t) ∧
    (∀ n : Word, f = ⟨0x40#8, [n]⟩ → n.toNat = 0 ∨ Config.nMax < n.toNat →
      ∃ t, present f s = .next t ∧ StoppedAt .badSize f.cmd s t) ∧
    (decode f = .error (.illegalCmd f.cmd) →
      ∃ t, present f s = .next t ∧ StoppedAt .illegalCmd f.cmd s t)

/-- R192, R198 (vector V27): what a fatal stop leaves alone. Beyond FCODE, FCMD and PHASE it changes no register, and of
the memory spaces only those it leaves unspecified; which elements hold a value never changes. The MODEL's choice where
R198 leaves the state open (log 6, 7). -/
def Obligations.FatalStopFrame : Prop :=
  ∀ (f : Frame) (s t : State), present f s = .next t → s.phase ≠ .fatal → t.phase = .fatal →
    t.fcode ≠ .noStop ∧ t.fcmd = f.cmd ∧ t.guard = s.guard ∧ t.n = s.n ∧ t.m = s.m ∧ t.kind = s.kind ∧
    t.scale = s.scale ∧ t.result = s.result ∧ t.sizesHeld = s.sizesHeld ∧ t.kindHeld = s.kindHeld ∧
    t.resultHeld = s.resultHeld ∧ t.bufLen = s.bufLen ∧ t.script = s.script ∧ t.arrivals = s.arrivals ∧
    t.reads = s.reads ∧ SameSpacesBut (spoiled s) s t ∧
    ∀ sp i, ((t.space sp).read i).isSome = ((s.space sp).read i).isSome

/-- R194: FATAL is sticky. Every presented frame changes nothing, a step keeps PHASE, FCODE and FCMD unless it takes
the reset input, status reads still work, and after reset the engine is unconstructed. -/
def Obligations.FatalIsSticky : Prop :=
  ∀ s : State, s.phase = .fatal →
    (∀ f : Frame, present f s = .next s) ∧
    (∀ t, step s = .next t → t.phase = .fatal ∧ t.fcode = s.fcode ∧ t.fcmd = s.fcmd ∨
      nextAction s = some .reset ∧ t.phase = .uncon) ∧
    (∀ k, ∃ t, hostAct (.readCsr k) s = .next t ∧ t.reads = s.reads ++ [.csr (s.port k)]) ∧
    (∃ t, hostAct .reset s = .next t ∧ t.phase = .uncon ∧ t.fcode = .noStop)

/-- R33, R210: the reset input, in every state. -/
def Obligations.ResetValues : Prop :=
  ∀ s : State, ∃ t, hostAct .reset s = .next t ∧ t.phase = .uncon ∧ t.guard = false ∧ t.fcode.code = 0#4 ∧
    t.fcmd = 0x00#8 ∧ t.status = 0x00#8 ∧ t.sizesHeld = false ∧ t.kindHeld = false ∧ t.resultHeld = false ∧
    (∀ sp, sp ≠ .buf → ∀ i, (t.space sp).read i = none) ∧ ∀ i, t.buf.read i = s.buf.read i

/-- R19: the fields of STATUS, and its reset value. -/
def Obligations.StatusFields : Prop :=
  (∀ s : State, s.status.extractLsb' 0 4 = s.phase.code ∧ s.status.getLsbD 4 = s.guard ∧
    s.status.getLsbD 5 = decide (s.phase = .idle) ∧ s.status.getLsbD 6 = decide (s.phase = .fatal) ∧
    s.status.getLsbD 7 = false) ∧
  State.reset.status = 0x00#8

/-- R14, R18, R19 (vector V29): in every state that meets the invariant STATUS has one of fourteen values. -/
def Obligations.StatusValues : Prop :=
  ∀ s : State, EngineInv s → s.status ∈
    [0x00#8, 0x11#8, 0x12#8, 0x13#8, 0x14#8, 0x25#8, 0x16#8, 0x17#8, 0x18#8, 0x19#8, 0x1A#8, 0x1B#8, 0x4F#8, 0x5F#8]

/-- R22: a read of a status-port register, in any phase: it completes, delivers the register where the register holds
a value and no fatal stop has occurred, and changes nothing of the engine or of BUF. -/
def Obligations.StatusPortReads : Prop :=
  ∀ (s : State) (k : Fin 8), ∃ t v, hostAct (.readCsr k) s = .next t ∧ t.reads = s.reads ++ [.csr v] ∧
    SameEngine s t ∧ t.buf = s.buf ∧ t.script = s.script ∧ t.arrivals = s.arrivals ∧
    (k = 0 → v = .status s.status) ∧
    (k = 1 → s.sizesHeld = true → s.phase ≠ .fatal → v = .n s.n) ∧
    (k = 2 → s.sizesHeld = true → s.phase ≠ .fatal → v = .m s.m) ∧
    (k = 3 → s.kindHeld = true → s.phase ≠ .fatal → v = .kind s.kind.code) ∧
    (k = 4 → v = .fcode s.fcode.code) ∧ (k = 5 → v = .fcmd s.fcmd) ∧
    (k = 6 → s.resultHeld = true → s.phase ≠ .fatal → v = .result s.result)

/-- R26, R42: HOST writes and reads BUF while `GUARD = 0`; while `GUARD = 1` the model has no such move
(log 16). That WRBUF is taken in FATAL with `GUARD = 0` too, where R225 names only the status port, is the MODEL'S choice
(log 34, DESIGN CHOICE). -/
def Obligations.HostOwnsBuf : Prop :=
  ∀ (s : State) (len : Word) (vs : List C), vs.length = len.toNat →
    (s.guard = false → ∃ t, hostAct (.writeBuf len vs) s = .next t ∧ SameEngine s t ∧
      (∀ i, t.buf.read i = vs[i]?) ∧
      (s.phase ≠ .fatal → ∃ t', hostAct .readBuf t = .next t' ∧ t'.reads = s.reads ++ [.buf vs] ∧ SameEngine s t')) ∧
    (s.guard = true → hostAct (.writeBuf len vs) s = .refused .hostBufWhileGuarded ∧
      hostAct .readBuf s = .refused .hostBufWhileGuarded)

/-! Steps and invariants. -/

/-- A step runs the decoded instruction: the micro-operation PHASE selects, a frame HOST presents at rest, or a frame
that arrives while a command is in progress. Beyond that a step takes the frame from its queue; with the micro-operation it
counts down what the pending moves wait for (ArrivalsWaitForTheirMoment), which leaves the state as it is when nothing is
pending; a line that announces a move goes to the pending moves; and with nothing left a step at rest changes nothing. -/
def Obligations.StepRunsDecoded : Prop :=
  (∀ (s : State) (i : Instr), takeArrival s.phase s.arrivals = none → decodeMicro s.phase.code = .ok i →
    step s = exec i s.passArrivals ∧ (s.arrivals = [] → step s = exec i s)) ∧
  (∀ (s : State) (f : Frame) (rest : List ScriptLine) (i : Instr), s.phase.busy = false →
    s.script = .act (.frame f) :: rest → decode f = .ok i → step s = exec i (s.setScript rest)) ∧
  (∀ (s : State) (f : Frame) (rest : List Arrival) (i : Instr),
    takeArrival s.phase s.arrivals = some (.frame f, rest) → decode f = .ok i →
    step s = exec i (s.setArrivals rest)) ∧
  (∀ (s : State) (w : Arrival) (rest : List ScriptLine), s.phase.busy = false → s.script = .later w :: rest →
    step s = .next ((s.setScript rest).setArrivals (s.arrivals ++ [w]))) ∧
  (∀ (s : State), s.phase.busy = false → s.script = [] → step s = .next s)

/-- R5, R22, R171, R191, R210: when a pending move lands. A frame of INNER's lands in an invocation phase, once the
invocations it waits for have returned; a move of HOST's in any busy phase, once the micro-operations it waits for have run.
Every micro-operation that runs counts; one that waits for nothing more does not let the micro-operation run before it. So
INNER's frame can come in any invocation of a run, and HOST's read of the status port in any phase of it. -/
def Obligations.ArrivalsWaitForTheirMoment : Prop :=
  ∀ (s : State) (w : Arrival), s.phase.busy = true → s.arrivals = [w] →
    (∀ f, w = .inner 0 f → s.phase ∈ [.cWfwdF, .cWfwdI, .tIfwd, .tIinv] → step s = present f (s.setArrivals [])) ∧
    (∀ f k i, w = .inner k f → s.phase ∉ [.cWfwdF, .cWfwdI, .tIfwd, .tIinv] → decodeMicro s.phase.code = .ok i →
      step s = exec i s) ∧
    (∀ f k i, w = .inner (k + 1) f → s.phase ∈ [.cWfwdF, .cWfwdI, .tIfwd, .tIinv] →
      decodeMicro s.phase.code = .ok i → step s = exec i (s.setArrivals [.inner k f])) ∧
    (∀ a, w = .host 0 a → step s = hostAct a (s.setArrivals [])) ∧
    (∀ a k i, w = .host (k + 1) a → decodeMicro s.phase.code = .ok i → step s = exec i (s.setArrivals [.host k a]))

/-- R14: the moves of PHASE. Without the reset input a step leaves PHASE, or makes one of the table's transitions, or
enters FATAL; the reset input enters UNCON. The premise is R18's invariant (EveryStepKeepsTheInvariant): it rules out an
XFORM accepted in the middle of a command. -/
def Obligations.PhaseTransitions : Prop :=
  ∀ s t : State, GuardMatchesPhase s → step s = .next t →
    (nextAction s = some .reset ∧ t.phase = .uncon) ∨
    (nextAction s ≠ some .reset ∧
      (t.phase = s.phase ∨ t.phase = .fatal ∨ (s.phase, t.phase) ∈ advances))

/-- R18, R20, R29, R30 and the canonical form of every memory space: every step keeps the invariant. -/
def Obligations.EveryStepKeepsTheInvariant : Prop := ∀ s t : State, EngineInv s → step s = .next t → EngineInv t

/-- The invariant holds after reset. -/
def Obligations.ResetMeetsTheInvariant : Prop := EngineInv State.reset

/-- R30: in a state that meets the invariant the only read of an element that holds no value is a read of BUF: by MOD,
or by HOST itself. -/
def Obligations.OnlyBufCanBeUnwritten : Prop :=
  ∀ (s : State) (r : Fault), EngineInv s → step s = .fault r →
    ∃ i, r = .noValue .buf i ∧ s.buf.read i = none ∧ (s.phase = .tMod ∨ nextAction s = some .readBuf)

/-- R27: once constructed, the tables, N and M never change until reset; HOST's actions other than a frame and reset
change nothing of the engine, whose spaces HOST has no port to. A step into FATAL is left out: R198 leaves every register
and every space unspecified there. -/
def Obligations.TablesAreImmutable : Prop :=
  (∀ s t : State, (s.phase = .idle ∨ s.phase.transforming = true) → step s = .next t → t.phase ≠ .fatal →
    nextAction s ≠ some .reset →
    t.xf = s.xf ∧ t.xi = s.xi ∧ t.wf = s.wf ∧ t.wi = s.wi ∧ t.n = s.n ∧ t.m = s.m) ∧
  (∀ (a : HostAction) (s t : State), (∀ f, a ≠ .frame f) → a ≠ .reset → hostAct a s = .next t → SameEngine s t)

/-- R29, R131, R170, R171: in a constructed engine `M` is the fixed length of the attached capability, a power of two.
That the capability a CONSTRUCT hands over has the length `A1` of its frame, for every power of two, is the MODEL'S choice
for the fixed machine (log 30, DESIGN CHOICE), on a platform with one capability of each length (log 2, DEDUCED); the first
clause rests on it too, through the attached capability. -/
def Obligations.AttachedLengthIsM : Prop :=
  (∀ s : State, EngineInv s → sized s.phase = true → s.attached.L = s.m.toNat ∧ ∃ k, s.m.toNat = 2 ^ k) ∧
  (∀ (a1 : Word) (k : Nat), a1.toNat = 2 ^ k → (capabilityOf a1).L = a1.toNat)

/-- R6: the fixed machine is an instance of the generic one: every meaning is the generic one's with the attached
capability among its parameters, and from an accepted CONSTRUCT until the next reset its steps are those of one instance. -/
def Obligations.FixedMachineIsAnInstance : Prop :=
  (∀ (i : Instr) (s : State), exec i s = execOn (paramsOf (lengthAttached i s)) i s) ∧
  (∀ s : State, s.phase ≠ .uncon → step s = stepOn (paramsOf s.m) s)

/-- R20, R21: FCODE and FCMD are written once, at the fatal stop, and never changed afterwards until reset. -/
def Obligations.CauseWrittenOnce : Prop :=
  ∀ s t : State, step s = .next t → nextAction s ≠ some .reset →
    (t.fcode = s.fcode ∧ t.fcmd = s.fcmd) ∨ (s.phase ≠ .fatal ∧ t.phase = .fatal)

/-- R160: the order of the assignments of a pass is not observable: writing the same values at the indices of a pass
in any order gives the same memory. -/
def Obligations.ElementOrderIsUnobservable : Prop :=
  ∀ (mem : Memory RealScalar) (f : Nat → C) (l l' : List Nat), mem.wf → l.Perm l' →
    l.foldl (fun m i => m.write i (f i)) mem = l'.foldl (fun m i => m.write i (f i)) mem

/-! Sizes and the partition. -/

/-- R95: the properties of `innerSize` on its whole domain. -/
def Obligations.InnerSizeProperties : Prop :=
  ∀ n : Nat, 1 ≤ n → n ≤ Config.nMax →
    (∃ k, innerSize n = 2 ^ k) ∧ 2 * n - 1 ≤ innerSize n ∧
    (innerSize n < 2 * (2 * n - 1) ∧ (2 ≤ n → innerSize n ≤ 4 * n - 4)) ∧
    ((innerSize n = 2 * n - 1 ↔ n = 1) ∧ (2 ≤ n → 2 ∣ innerSize n ∧ 2 * n ≤ innerSize n)) ∧
    n ≤ innerSize n ∧ innerSize n ≤ 2 ^ (Config.sizeW - 1)

/-- R112: the three ranges of the partition are exclusive and exhaustive, and what each gives. -/
def Obligations.IndexPartition : Prop :=
  ∀ n m i : Nat, 1 ≤ n → 2 * n - 1 ≤ m → i < m →
    (i < n → widx n m i = some ((i : Int) ^ 2) ∧ ¬ m - n < i) ∧
    (m - n < i → widx n m i = some (((i : Int) - m) ^ 2) ∧ ¬ i < n) ∧
    (n ≤ i → i ≤ m - n → widx n m i = none)

/-- R116 (c), (d): for `N >= 2` index `M/2` is in the middle range, and the partition is even modulo `M`, so the
time-domain w-tables are, at every index; below `N` the squares are `i^2` on both sides. -/
def Obligations.WTablesAreEven : Prop :=
  ∀ n : Nat, 2 ≤ n → n ≤ Config.nMax →
    widx n (innerSize n) (innerSize n / 2) = none ∧
    (∀ i, 1 ≤ i → i ≤ n - 1 →
      widx n (innerSize n) (innerSize n - i) = some ((i : Int) ^ 2) ∧
      widx n (innerSize n) i = some ((i : Int) ^ 2)) ∧
    ∀ i, 1 ≤ i → i < innerSize n →
      widx n (innerSize n) (innerSize n - i) = widx n (innerSize n) i ∧
      wfEntry Config.num Config.trig n (innerSize n) (innerSize n - i) =
        wfEntry Config.num Config.trig n (innerSize n) i ∧
      wiEntry Config.num Config.trig n (innerSize n) (innerSize n - i) =
        wiEntry Config.num Config.trig n (innerSize n) i

/-- R92, R93: the scale factor of each kind, and that at `N = 1` it is `one` for every kind in every number system whose
conversions of 1 are exact. -/
def Obligations.ScaleFactors : Prop :=
  ∀ (R : Type) (num : Num R),
    (∀ n : Nat, scale num .fft n = num.one ∧ scale num .uifft n = num.one ∧
      scale num .ifft n = num.div num.one (num.ofNat n) ∧
      scale num .sfft n = num.div num.one (num.sqrt (num.ofNat n)) ∧
      scale num .sifft n = num.div num.one (num.sqrt (num.ofNat n))) ∧
    (Ideal.UnitConversions num → ∀ k, scale num k 1 = num.one)

/-! The named instances. -/

/-- R82: the five named properties of `Num` hold in `NumReal`. -/
def Obligations.NumRealProperties : Prop :=
  Ideal.MulComm Ideal.numReal ∧ Ideal.AddComm Ideal.numReal ∧ Ideal.MulOne Ideal.numReal ∧
  Ideal.MulZero Ideal.numReal ∧ Ideal.OrderedField Ideal.numReal

/-- R82, of the two rounded instances: `MulComm` and `AddComm` for operands that are no NaN, `MulOne` for every operand that
is no signalling NaN. The remarks are the spec's entry U3, from general knowledge; the formats are PRESUMED (log 21). -/
def Obligations.RoundedInstanceProperties : Prop :=
  (∀ a b : BitVec 64, binary64.unpack a.toNat ≠ .nan → binary64.unpack b.toNat ≠ .nan →
    numF64.mul a b = numF64.mul b a ∧ numF64.add a b = numF64.add b a) ∧
  (∀ a : BitVec 64, binary64.signalling a.toNat = false → numF64.mul a numF64.one = a) ∧
  (∀ a b : BitVec 32, binary32.unpack a.toNat ≠ .nan → binary32.unpack b.toNat ≠ .nan →
    numF32.mul a b = numF32.mul b a ∧ numF32.add a b = numF32.add b a) ∧
  (∀ a : BitVec 32, binary32.signalling a.toNat = false → numF32.mul a numF32.one = a)

/-- R91: the named properties of `halfTwiddle` hold for `TrigReal` with `NumReal`. -/
def Obligations.IdealTwiddles : Prop :=
  Ideal.HtIdeal Ideal.trigReal ∧ Ideal.HtUnit Ideal.trigReal ∧ Ideal.HtConj Ideal.trigReal ∧
  Ideal.HtPeriod Ideal.trigReal ∧ Ideal.HtZero Ideal.trigReal

/-- R87: in `NumReal` the complex multiplier is the product of complex numbers: associative, commutative, distributive,
multiplicative in the modulus, and `cmul(z, conj(z))` is the squared modulus. -/
def Obligations.IdealMultiplier : Prop :=
  let mul := cmul Ideal.numReal
  (∀ a b : Sample ℝ, Ideal.toComplex (mul a b) = Ideal.toComplex a * Ideal.toComplex b) ∧
  (∀ a b c : Sample ℝ, mul (mul a b) c = mul a (mul b c) ∧ mul a b = mul b a) ∧
  (∀ a b c : Sample ℝ, mul a ⟨b.re + c.re, b.im + c.im⟩ =
    ⟨(mul a b).re + (mul a c).re, (mul a b).im + (mul a c).im⟩) ∧
  (∀ a b : Sample ℝ, ‖Ideal.toComplex (mul a b)‖ = ‖Ideal.toComplex a‖ * ‖Ideal.toComplex b‖) ∧
  (∀ z : Sample ℝ, mul z (conj Ideal.numReal z) = ⟨‖Ideal.toComplex z‖ ^ 2, 0⟩)

/-- R111: with `HT_Ideal` the x-tables are the chirps, of modulus 1; in every number system and with every evaluator
the forward table is the conjugate of the inverse one. -/
def Obligations.IdealXTables : Prop :=
  (∀ (T : Type) (trig : Trig T ℝ) (n : Nat) (i : Fin n), Ideal.HtIdeal trig →
    Ideal.toComplex (tableXi trig n)[i] = Ideal.cis (Real.pi * (i.val : ℝ) ^ 2 / n) ∧
    Ideal.toComplex (tableXf Ideal.numReal trig n)[i] = Ideal.cis (-(Real.pi * (i.val : ℝ) ^ 2 / n)) ∧
    ‖Ideal.toComplex (tableXi trig n)[i]‖ = 1 ∧ ‖Ideal.toComplex (tableXf Ideal.numReal trig n)[i]‖ = 1) ∧
  (∀ (R T : Type) (num : Num R) (trig : Trig T R) (n : Nat) (i : Fin n),
    (tableXf num trig n)[i] = conj num (tableXi trig n)[i])

/-- R180: the reference capability satisfies the four properties of R175, at every length; its inverse has the kernel
`exp(+2*pi*j*n*k/L)`, divided by `L`, and `c = 1`. R180 marks the instance as the spec's own choice, from general knowledge
(U4), a stand-in for the inner capability. -/
def Obligations.ReferenceCapability : Prop :=
  ∀ L : Nat, 1 ≤ L →
    Ideal.InvFwd (Ideal.innerDFT L) 1 ∧ Ideal.ConvThm (Ideal.innerDFT L) ∧ Ideal.Linear (Ideal.innerDFT L).fwd ∧
    Ideal.Linear (Ideal.innerDFT L).inv ∧ Ideal.IsDFT (Ideal.innerDFT L) (-1) ∧
    (∀ (z : Vector (Sample ℝ) L) (k : Fin L),
      Ideal.toComplex ((Ideal.innerDFT L).inv z)[k] = Ideal.dftEntry 1 z k / L) ∧ (Ideal.innerDFT L).c = 1

/-- R144, R162: the transform is the DFT, for every kind, every size, every sufficient inner length, and every inner
capability with `ConvThm` and `InvFwd(c)`. -/
def Obligations.TransformIsTheDFT : Prop :=
  ∀ (n m : Nat) (inner : InnerOps ℝ m) (c : ℝ) (k : Kind) (hle : n ≤ m) (u : Vector (Sample ℝ) n) (i : Fin n),
    2 * n - 1 ≤ m → Ideal.ConvThm inner → Ideal.InvFwd inner c →
    Ideal.toComplex (bluestein Ideal.numReal Ideal.trigReal inner k hle u)[i] =
      c * scale Ideal.numReal k n * Ideal.dftEntry (Ideal.kernelSign k) u i

/-- R145: the relations between the kinds, for `c = 1`. -/
def Obligations.RelationsBetweenKinds : Prop :=
  ∀ (n m : Nat) (inner : InnerOps ℝ m) (hle : n ≤ m), 1 ≤ n → 2 * n - 1 ≤ m → Ideal.ConvThm inner →
    Ideal.InvFwd inner 1 →
    let run := fun (k : Kind) (u : Vector (Sample ℝ) n) => bluestein Ideal.numReal Ideal.trigReal inner k hle u
    ∀ u : Vector (Sample ℝ) n,
      run .ifft (run .fft u) = u ∧ run .sifft (run .sfft u) = u ∧ run .sfft (run .sifft u) = u ∧
      run .uifft (run .fft u) = u.map (fun z => rscale Ideal.numReal z n) ∧
      run .sfft u = (run .fft u).map (fun z => rscale Ideal.numReal z (1 / Real.sqrt n)) ∧
      ∀ (k : Kind) (v : Vector (Sample ℝ) n) (p q : ℂ),
        run k (Ideal.combine p q u v) = Ideal.combine p q (run k u) (run k v)

/-- R141, R142: the square-root-scaled kinds preserve energy, for `c = 1`. -/
def Obligations.UnitaryKindsPreserveEnergy : Prop :=
  ∀ (n m : Nat) (inner : InnerOps ℝ m) (hle : n ≤ m) (u : Vector (Sample ℝ) n), 1 ≤ n → 2 * n - 1 ≤ m →
    Ideal.ConvThm inner → Ideal.InvFwd inner 1 →
    Ideal.energy (bluestein Ideal.numReal Ideal.trigReal inner .sfft hle u) = Ideal.energy u ∧
    Ideal.energy (bluestein Ideal.numReal Ideal.trigReal inner .sifft hle u) = Ideal.energy u

/-- R163, R93: at `N = 1` (`M = 1`) with an identity length-1 capability every kind is the identity, in the ideal
instance. -/
def Obligations.LengthOneIsIdentity : Prop :=
  ∀ (inner : InnerOps ℝ 1) (k : Kind) (u : Vector (Sample ℝ) 1),
    (∀ z, inner.fwd z = z) → (∀ z, inner.inv z = z) →
    bluestein Ideal.numReal Ideal.trigReal inner k (le_refl 1) u = u

/-- R97, R162: the ideal instance with an exact inner DFT meets the accuracy properties of R97 at both stated bounds,
whatever the norm, and the round trip, whatever the tolerance, as long as the exact result is no error. A rounded instance
is promised neither. -/
def Obligations.IdealMeetsTheBounds : Prop :=
  ∀ (inner : Inner ℝ) (tol : Tol ℝ), Ideal.ConvThm inner.ops → Ideal.InvFwd inner.ops 1 → Ideal.AcceptsExact tol →
    (∀ prec, Ideal.AccurateDft (Ideal.idealParams inner tol) prec Ideal.exactDft) ∧
    Ideal.RoundTripWithinTol (Ideal.idealParams inner tol)

/-- R6, R8, R81, R144: the machine over the real numbers computes the DFT. From the state after reset, a CONSTRUCT for the
attached capability, a WRBUF of `u` and an XFORM of any kind run in thirteen steps to an idle engine whose BUF holds
`c * s` times the DFT of `u`. -/
def Obligations.IdealMachineComputesTheDFT : Prop :=
  ∀ (inner : Inner ℝ) (tol : Tol ℝ) (c : ℝ) (n l : Word) (u : Vector (Sample ℝ) n.toNat) (k : Kind) (cmd : Byte),
    1 ≤ n.toNat → n.toNat ≤ Config.nMax → innerSize n.toNat = inner.L → l.toNat = inner.L →
    Ideal.ConvThm inner.ops → Ideal.InvFwd inner.ops c →
    (k, cmd) ∈ [(Kind.fft, 0x30#8), (.ifft, 0x31#8), (.uifft, 0x32#8), (.sfft, 0x33#8), (.sifft, 0x34#8)] →
    let start : State ℝ := (State.initial 0).setScript [.act (.frame ⟨0x10#8, [n, l, l, l, n, n, l]⟩),
      .act (.writeBuf n (samples u)), .act (.frame ⟨cmd, [n]⟩)]
    ∃ t : State ℝ, Host.Core.run (coreOn (Ideal.idealParams inner tol)) 13 start = .next t ∧ t.phase = .idle ∧
      t.guard = false ∧ t.script = [] ∧
      ∀ i, i < n.toNat → ∃ v, t.buf.read i = some v ∧
        Ideal.toComplex v = c * scale Ideal.numReal k n.toNat * Ideal.dftEntry (Ideal.kernelSign k) u i
end

