-- ==== Sys2Proof/Laws/Memory.lean ====
section
/-! SUPPORT. What the memory operations do, said once: reads after writes, ranges, and that every operation keeps the
canonical form. -/

namespace Sys2Proof.Machine

variable {R : Type}

@[simp] theorem read_nil (i : Nat) : Memory.read ([] : Memory R) i = none := rfl

@[simp] theorem read_write_same (mem : Memory R) (i : Nat) (v : Sample R) :
    (mem.write i v).read i = some v := by
  induction mem with
  | nil => simp [Memory.write, Memory.read]
  | cons c mem ih =>
    obtain ⟨j, w⟩ := c
    simp only [Memory.write]
    split
    · simp [Memory.read]
    · split
      · simp [Memory.read]
      · rename_i _ hne
        simpa [Memory.read, hne] using ih

theorem read_write_other (mem : Memory R) {i j : Nat} (h : j ≠ i) (v : Sample R) :
    (mem.write i v).read j = mem.read j := by
  induction mem with
  | nil => simp [Memory.write, Memory.read, h]
  | cons c mem ih =>
    obtain ⟨k, w⟩ := c
    simp only [Memory.write]
    split
    · simp [Memory.read, h]
    · split
      · rename_i _ hik
        subst hik
        simp [Memory.read, h]
      · simp only [Memory.read, ih]

theorem read_write (mem : Memory R) (i j : Nat) (v : Sample R) :
    (mem.write i v).read j = if j = i then some v else mem.read j := by
  split
  · subst_vars; simp
  · exact read_write_other mem ‹_› v

/-- The keys of a write: the old ones and the written one. -/
theorem mem_write_key {mem : Memory R} {i : Nat} {v : Sample R} {c : Cell R} (h : c ∈ mem.write i v) :
    c.1 = i ∨ c ∈ mem := by
  induction mem with
  | nil => simp only [Memory.write, List.mem_singleton] at h; exact .inl (by rw [h])
  | cons d mem ih =>
    obtain ⟨j, w⟩ := d
    simp only [Memory.write] at h
    split at h
    · rcases List.mem_cons.mp h with rfl | h
      · exact .inl rfl
      · exact .inr h
    · split at h
      · rcases List.mem_cons.mp h with rfl | h
        · exact .inl rfl
        · exact .inr (List.mem_cons_of_mem _ h)
      · rcases List.mem_cons.mp h with rfl | h
        · exact .inr List.mem_cons_self
        · exact (ih h).imp id (List.mem_cons_of_mem _)

theorem wf_nil : Memory.wf ([] : Memory R) := List.Pairwise.nil

theorem wf_write {mem : Memory R} (h : mem.wf) (i : Nat) (v : Sample R) : (mem.write i v).wf := by
  induction mem with
  | nil => simp [Memory.write, Memory.wf]
  | cons c mem ih =>
    obtain ⟨j, w⟩ := c
    obtain ⟨hj, hm⟩ := List.pairwise_cons.mp h
    simp only [Memory.write]
    split
    · refine List.pairwise_cons.mpr ⟨fun d hd => ?_, h⟩
      rcases List.mem_cons.mp hd with rfl | hd
      · assumption
      · exact Nat.lt_trans ‹_› (hj d hd)
    · split
      · subst_vars; exact List.pairwise_cons.mpr ⟨hj, hm⟩
      · refine List.pairwise_cons.mpr ⟨fun d hd => ?_, ih hm⟩
        rcases mem_write_key hd with h1 | h1
        · simp only [h1]; omega
        · exact hj d h1

theorem wf_writeFrom {mem : Memory R} (h : mem.wf) (lo : Nat) (vs : List (Sample R)) :
    (mem.writeFrom lo vs).wf := by
  induction vs generalizing mem lo with
  | nil => exact h
  | cons v vs ih => exact ih (wf_write h lo v) (lo + 1)

theorem wf_replaceWith {mem : Memory R} (h : mem.wf) (f : Nat → Sample R) : (mem.replaceWith f).wf :=
  List.pairwise_map.mpr h

/-- In canonical form no element below the first listed one holds a value. -/
theorem read_below {mem : Memory R} {i : Nat} (h : ∀ c ∈ mem, i < c.1) : mem.read i = none := by
  induction mem with
  | nil => rfl
  | cons c mem ih =>
    obtain ⟨j, v⟩ := c
    have h1 : i < j := h _ List.mem_cons_self
    simp only [Memory.read, if_neg (Nat.ne_of_lt h1)]
    exact ih fun d hd => h d (List.mem_cons_of_mem _ hd)

/-- Equal memories are equal data: canonical memories that read alike are the same list. -/
theorem wf_ext {a b : Memory R} (ha : a.wf) (hb : b.wf) (h : ∀ i, a.read i = b.read i) : a = b := by
  induction a generalizing b with
  | nil =>
    cases b with
    | nil => rfl
    | cons d b => have := h d.1; simp [Memory.read] at this
  | cons c a ih =>
    obtain ⟨i, v⟩ := c
    obtain ⟨hi, ha⟩ := List.pairwise_cons.mp ha
    cases b with
    | nil => have := h i; simp [Memory.read] at this
    | cons d b =>
      obtain ⟨j, w⟩ := d
      obtain ⟨hj, hb'⟩ := List.pairwise_cons.mp hb
      have hij : i = j := by
        rcases Nat.lt_trichotomy i j with hlt | rfl | hlt
        · have h1 := h i
          rw [read_below (mem := (j, w) :: b) (fun c hc => ?_)] at h1
          · simp [Memory.read] at h1
          · rcases List.mem_cons.mp hc with rfl | hc
            · exact hlt
            · exact Nat.lt_trans hlt (hj c hc)
        · rfl
        · have h1 := h j
          rw [read_below (mem := (i, v) :: a) (fun c hc => ?_)] at h1
          · simp [Memory.read] at h1
          · rcases List.mem_cons.mp hc with rfl | hc
            · exact hlt
            · exact Nat.lt_trans hlt (hi c hc)
      subst hij
      have hv : v = w := by simpa [Memory.read] using h i
      subst hv
      refine congrArg _ (ih ha hb' fun k => ?_)
      by_cases hk : k = i
      · subst hk; rw [read_below hi, read_below hj]
      · simpa [Memory.read, hk] using h k

/-- What a pass of consecutive writes leaves. -/
theorem read_writeFrom (mem : Memory R) (lo : Nat) (vs : List (Sample R)) (i : Nat) :
    (mem.writeFrom lo vs).read i = if lo ≤ i then (vs[i - lo]?).or (mem.read i) else mem.read i := by
  induction vs generalizing mem lo with
  | nil => simp [Memory.writeFrom]
  | cons v vs ih =>
    simp only [Memory.writeFrom, ih, read_write]
    by_cases h : lo + 1 ≤ i
    · have h1 : i - lo = i - (lo + 1) + 1 := by omega
      have h2 : i ≠ lo := by omega
      have h3 : lo ≤ i := by omega
      simp only [if_pos h, if_pos h3, if_neg h2, h1, List.getElem?_cons_succ]
    · by_cases h0 : i = lo
      · subst h0; simp
      · rw [if_neg h, if_neg h0, if_neg (by omega)]

theorem read_writeFrom_of_lt {mem : Memory R} {lo i : Nat} {vs : List (Sample R)} (h : i < lo) :
    (mem.writeFrom lo vs).read i = mem.read i := by
  rw [read_writeFrom, if_neg (by omega)]

theorem read_writeFrom_of_ge {mem : Memory R} {lo i : Nat} {vs : List (Sample R)} (h : lo + vs.length ≤ i) :
    (mem.writeFrom lo vs).read i = mem.read i := by
  rw [read_writeFrom, if_pos (by omega), List.getElem?_eq_none (by omega)]
  simp

theorem read_writeFrom_in {mem : Memory R} {lo i : Nat} {vs : List (Sample R)} (h1 : lo ≤ i)
    (h2 : i < lo + vs.length) : (mem.writeFrom lo vs).read i = some (vs[i - lo]'(by omega)) := by
  rw [read_writeFrom, if_pos h1, List.getElem?_eq_getElem (by omega)]
  simp

/-- Forgetting keeps which elements hold a value. -/
theorem read_replaceWith (mem : Memory R) (f : Nat → Sample R) (i : Nat) :
    (mem.replaceWith f).read i = (mem.read i).map fun _ => f i := by
  induction mem with
  | nil => rfl
  | cons c mem ih =>
    obtain ⟨j, w⟩ := c
    simp only [Memory.replaceWith, List.map_cons, Memory.read] at ih ⊢
    split
    · subst_vars; rfl
    · exact ih

/-- Reading a range succeeds with exactly the elements read one by one. -/
theorem readRange_ok_iff (mem : Memory R) (n : Nat) (vs : Vector (Sample R) n) :
    mem.readRange n = .ok vs ↔ ∀ i (h : i < n), mem.read i = some vs[i] := by
  induction n with
  | zero => simp [Memory.readRange, Vector.eq_empty]
  | succ n ih =>
    simp only [Memory.readRange]
    constructor
    · intro h
      split at h
      · cases h
      · rename_i ws hws
        split at h
        · cases h
        · rename_i v hv
          cases h
          intro i hi
          rcases Nat.lt_succ_iff_lt_or_eq.mp hi with hi | rfl
          · rw [(ih ws).mp hws i hi, Vector.getElem_push_lt hi]
          · rw [hv, Vector.getElem_push_eq]
    · intro h
      have h1 : mem.readRange n = .ok vs.pop := (ih _).mpr fun i hi => by
        rw [h i (by omega), Vector.getElem_pop]
      rw [h1, h n (by omega)]
      simp only [Except.ok.injEq]
      exact Vector.push_pop_back vs

/-- Reading a range fails only at an element of it that holds no value. -/
theorem readRange_error {mem : Memory R} {n i : Nat} (h : mem.readRange n = .error i) :
    i < n ∧ mem.read i = none := by
  induction n with
  | zero => simp [Memory.readRange] at h
  | succ n ih =>
    simp only [Memory.readRange] at h
    split at h
    · rename_i k hk
      cases h
      exact ⟨Nat.lt_succ_of_lt (ih hk).1, (ih hk).2⟩
    · split at h
      · rename_i hv
        cases h
        exact ⟨Nat.lt_succ_self _, hv⟩
      · cases h

/-- A range of elements that all hold a value can be read. -/
theorem readRange_total {mem : Memory R} {n : Nat} (h : ∀ i, i < n → (mem.read i).isSome) :
    ∃ vs, mem.readRange n = .ok vs := by
  cases hr : mem.readRange n with
  | ok vs => exact ⟨vs, rfl⟩
  | error i =>
    obtain ⟨h1, h2⟩ := readRange_error hr
    have := h i h1
    simp [h2] at this

@[simp] theorem length_samples {n : Nat} (v : Vector (Sample R) n) : (samples v).length = n := by simp [samples]

@[simp] theorem getElem_samples {n : Nat} (v : Vector (Sample R) n) (i : Nat) (h : i < (samples v).length) :
    (samples v)[i] = v[i]'(by simpa using h) := by simp [samples]

theorem samples_getElem? {n : Nat} (v : Vector (Sample R) n) (i : Nat) (h : i < n) : (samples v)[i]? = some v[i] := by
  rw [List.getElem?_eq_getElem (by simpa using h), getElem_samples]

/-- A pass that writes a whole array from index 0. -/
theorem read_writeFrom_samples (mem : Memory R) {n : Nat} (v : Vector (Sample R) n) (i : Nat) :
    (mem.writeFrom 0 (samples v)).read i = if h : i < n then some v[i] else mem.read i := by
  split
  · rw [read_writeFrom_in (Nat.zero_le _) (by simpa using ‹i < n›), getElem_samples]
    simp
  · exact read_writeFrom_of_ge (by simpa using (by omega : n ≤ i))

/-- A pass `for i in [0, n): S[i] <- f i`. -/
theorem read_writeFrom_map (mem : Memory R) (n : Nat) (f : Nat → Sample R) (i : Nat) :
    (mem.writeFrom 0 ((List.range n).map f)).read i = if i < n then some (f i) else mem.read i := by
  split
  · rw [read_writeFrom_in (Nat.zero_le _) (by simpa using ‹i < n›)]
    simp
  · exact read_writeFrom_of_ge (by simpa using (by omega : n ≤ i))

/-- A pass `for i in [lo, lo + k): S[i] <- v`. -/
theorem read_writeFrom_replicate (mem : Memory R) (lo k : Nat) (v : Sample R) (i : Nat) :
    (mem.writeFrom lo (List.replicate k v)).read i = if lo ≤ i ∧ i < lo + k then some v else mem.read i := by
  split
  · rw [read_writeFrom_in (by omega) (by simp; omega)]
    simp
  · rcases Nat.lt_or_ge i lo with h | h
    · exact read_writeFrom_of_lt h
    · exact read_writeFrom_of_ge (by simp; omega)

end Sys2Proof.Machine
end

