-- ==== Sys2Proof/Laws/State.lean ====
section
/-! SUPPORT. One lemma per field per update, each true by rfl: no later proof unfolds a record update. -/

namespace Sys2Proof.Machine.State

variable {R : Type} (s : State R)

@[simp] theorem space_xf : s.space .xf = s.xf := rfl
@[simp] theorem space_xi : s.space .xi = s.xi := rfl
@[simp] theorem space_wf : s.space .wf = s.wf := rfl
@[simp] theorem space_wi : s.space .wi = s.wi := rfl
@[simp] theorem space_scr : s.space .scr = s.scr := rfl
@[simp] theorem space_buf : s.space .buf = s.buf := rfl

/-! Writing a space. -/

@[simp] theorem space_setSpace (sp tp : Space) (x : Memory R) :
    (s.setSpace sp x).space tp = if tp = sp then x else s.space tp := by
  cases sp <;> cases tp <;> rfl

@[simp] theorem xf_setSpace (sp : Space) (x : Memory R) :
    (s.setSpace sp x).xf = if sp = .xf then x else s.xf := by cases sp <;> rfl
@[simp] theorem xi_setSpace (sp : Space) (x : Memory R) :
    (s.setSpace sp x).xi = if sp = .xi then x else s.xi := by cases sp <;> rfl
@[simp] theorem wf_setSpace (sp : Space) (x : Memory R) :
    (s.setSpace sp x).wf = if sp = .wf then x else s.wf := by cases sp <;> rfl
@[simp] theorem wi_setSpace (sp : Space) (x : Memory R) :
    (s.setSpace sp x).wi = if sp = .wi then x else s.wi := by cases sp <;> rfl
@[simp] theorem scr_setSpace (sp : Space) (x : Memory R) :
    (s.setSpace sp x).scr = if sp = .scr then x else s.scr := by cases sp <;> rfl
@[simp] theorem buf_setSpace (sp : Space) (x : Memory R) :
    (s.setSpace sp x).buf = if sp = .buf then x else s.buf := by cases sp <;> rfl
@[simp] theorem n_setSpace (sp : Space) (x : Memory R) : (s.setSpace sp x).n = s.n := by cases sp <;> rfl
@[simp] theorem m_setSpace (sp : Space) (x : Memory R) : (s.setSpace sp x).m = s.m := by cases sp <;> rfl
@[simp] theorem kind_setSpace (sp : Space) (x : Memory R) : (s.setSpace sp x).kind = s.kind := by cases sp <;> rfl
@[simp] theorem scale_setSpace (sp : Space) (x : Memory R) : (s.setSpace sp x).scale = s.scale := by cases sp <;> rfl
@[simp] theorem result_setSpace (sp : Space) (x : Memory R) : (s.setSpace sp x).result = s.result := by cases sp <;> rfl
@[simp] theorem phase_setSpace (sp : Space) (x : Memory R) : (s.setSpace sp x).phase = s.phase := by cases sp <;> rfl
@[simp] theorem guard_setSpace (sp : Space) (x : Memory R) : (s.setSpace sp x).guard = s.guard := by cases sp <;> rfl
@[simp] theorem fcode_setSpace (sp : Space) (x : Memory R) : (s.setSpace sp x).fcode = s.fcode := by cases sp <;> rfl
@[simp] theorem fcmd_setSpace (sp : Space) (x : Memory R) : (s.setSpace sp x).fcmd = s.fcmd := by cases sp <;> rfl
@[simp] theorem sizesHeld_setSpace (sp : Space) (x : Memory R) : (s.setSpace sp x).sizesHeld = s.sizesHeld := by cases sp <;> rfl
@[simp] theorem kindHeld_setSpace (sp : Space) (x : Memory R) : (s.setSpace sp x).kindHeld = s.kindHeld := by cases sp <;> rfl
@[simp] theorem resultHeld_setSpace (sp : Space) (x : Memory R) : (s.setSpace sp x).resultHeld = s.resultHeld := by cases sp <;> rfl
@[simp] theorem bufLen_setSpace (sp : Space) (x : Memory R) : (s.setSpace sp x).bufLen = s.bufLen := by cases sp <;> rfl
@[simp] theorem script_setSpace (sp : Space) (x : Memory R) : (s.setSpace sp x).script = s.script := by cases sp <;> rfl
@[simp] theorem arrivals_setSpace (sp : Space) (x : Memory R) : (s.setSpace sp x).arrivals = s.arrivals := by cases sp <;> rfl
@[simp] theorem reads_setSpace (sp : Space) (x : Memory R) : (s.setSpace sp x).reads = s.reads := by cases sp <;> rfl
@[simp] theorem draws_setSpace (sp : Space) (x : Memory R) : (s.setSpace sp x).draws = s.draws := by cases sp <;> rfl

/-! setPhase -/

@[simp] theorem n_setPhase (p : Phase) : (s.setPhase p).n = s.n := rfl
@[simp] theorem m_setPhase (p : Phase) : (s.setPhase p).m = s.m := rfl
@[simp] theorem kind_setPhase (p : Phase) : (s.setPhase p).kind = s.kind := rfl
@[simp] theorem scale_setPhase (p : Phase) : (s.setPhase p).scale = s.scale := rfl
@[simp] theorem result_setPhase (p : Phase) : (s.setPhase p).result = s.result := rfl
@[simp] theorem phase_setPhase (p : Phase) : (s.setPhase p).phase = p := rfl
@[simp] theorem guard_setPhase (p : Phase) : (s.setPhase p).guard = s.guard := rfl
@[simp] theorem fcode_setPhase (p : Phase) : (s.setPhase p).fcode = s.fcode := rfl
@[simp] theorem fcmd_setPhase (p : Phase) : (s.setPhase p).fcmd = s.fcmd := rfl
@[simp] theorem sizesHeld_setPhase (p : Phase) : (s.setPhase p).sizesHeld = s.sizesHeld := rfl
@[simp] theorem kindHeld_setPhase (p : Phase) : (s.setPhase p).kindHeld = s.kindHeld := rfl
@[simp] theorem resultHeld_setPhase (p : Phase) : (s.setPhase p).resultHeld = s.resultHeld := rfl
@[simp] theorem bufLen_setPhase (p : Phase) : (s.setPhase p).bufLen = s.bufLen := rfl
@[simp] theorem script_setPhase (p : Phase) : (s.setPhase p).script = s.script := rfl
@[simp] theorem arrivals_setPhase (p : Phase) : (s.setPhase p).arrivals = s.arrivals := rfl
@[simp] theorem reads_setPhase (p : Phase) : (s.setPhase p).reads = s.reads := rfl
@[simp] theorem draws_setPhase (p : Phase) : (s.setPhase p).draws = s.draws := rfl
@[simp] theorem xf_setPhase (p : Phase) : (s.setPhase p).xf = s.xf := rfl
@[simp] theorem xi_setPhase (p : Phase) : (s.setPhase p).xi = s.xi := rfl
@[simp] theorem wf_setPhase (p : Phase) : (s.setPhase p).wf = s.wf := rfl
@[simp] theorem wi_setPhase (p : Phase) : (s.setPhase p).wi = s.wi := rfl
@[simp] theorem scr_setPhase (p : Phase) : (s.setPhase p).scr = s.scr := rfl
@[simp] theorem buf_setPhase (p : Phase) : (s.setPhase p).buf = s.buf := rfl
@[simp] theorem space_setPhase (p : Phase) (sp : Space) : (s.setPhase p).space sp = s.space sp := by cases sp <;> rfl

/-! setGuard -/

@[simp] theorem n_setGuard (g : Bool) : (s.setGuard g).n = s.n := rfl
@[simp] theorem m_setGuard (g : Bool) : (s.setGuard g).m = s.m := rfl
@[simp] theorem kind_setGuard (g : Bool) : (s.setGuard g).kind = s.kind := rfl
@[simp] theorem scale_setGuard (g : Bool) : (s.setGuard g).scale = s.scale := rfl
@[simp] theorem result_setGuard (g : Bool) : (s.setGuard g).result = s.result := rfl
@[simp] theorem phase_setGuard (g : Bool) : (s.setGuard g).phase = s.phase := rfl
@[simp] theorem guard_setGuard (g : Bool) : (s.setGuard g).guard = g := rfl
@[simp] theorem fcode_setGuard (g : Bool) : (s.setGuard g).fcode = s.fcode := rfl
@[simp] theorem fcmd_setGuard (g : Bool) : (s.setGuard g).fcmd = s.fcmd := rfl
@[simp] theorem sizesHeld_setGuard (g : Bool) : (s.setGuard g).sizesHeld = s.sizesHeld := rfl
@[simp] theorem kindHeld_setGuard (g : Bool) : (s.setGuard g).kindHeld = s.kindHeld := rfl
@[simp] theorem resultHeld_setGuard (g : Bool) : (s.setGuard g).resultHeld = s.resultHeld := rfl
@[simp] theorem bufLen_setGuard (g : Bool) : (s.setGuard g).bufLen = s.bufLen := rfl
@[simp] theorem script_setGuard (g : Bool) : (s.setGuard g).script = s.script := rfl
@[simp] theorem arrivals_setGuard (g : Bool) : (s.setGuard g).arrivals = s.arrivals := rfl
@[simp] theorem reads_setGuard (g : Bool) : (s.setGuard g).reads = s.reads := rfl
@[simp] theorem draws_setGuard (g : Bool) : (s.setGuard g).draws = s.draws := rfl
@[simp] theorem xf_setGuard (g : Bool) : (s.setGuard g).xf = s.xf := rfl
@[simp] theorem xi_setGuard (g : Bool) : (s.setGuard g).xi = s.xi := rfl
@[simp] theorem wf_setGuard (g : Bool) : (s.setGuard g).wf = s.wf := rfl
@[simp] theorem wi_setGuard (g : Bool) : (s.setGuard g).wi = s.wi := rfl
@[simp] theorem scr_setGuard (g : Bool) : (s.setGuard g).scr = s.scr := rfl
@[simp] theorem buf_setGuard (g : Bool) : (s.setGuard g).buf = s.buf := rfl
@[simp] theorem space_setGuard (g : Bool) (sp : Space) : (s.setGuard g).space sp = s.space sp := by cases sp <;> rfl

/-! setSizes -/

@[simp] theorem n_setSizes (a b : Word) : (s.setSizes a b).n = a := rfl
@[simp] theorem m_setSizes (a b : Word) : (s.setSizes a b).m = b := rfl
@[simp] theorem kind_setSizes (a b : Word) : (s.setSizes a b).kind = s.kind := rfl
@[simp] theorem scale_setSizes (a b : Word) : (s.setSizes a b).scale = s.scale := rfl
@[simp] theorem result_setSizes (a b : Word) : (s.setSizes a b).result = s.result := rfl
@[simp] theorem phase_setSizes (a b : Word) : (s.setSizes a b).phase = s.phase := rfl
@[simp] theorem guard_setSizes (a b : Word) : (s.setSizes a b).guard = s.guard := rfl
@[simp] theorem fcode_setSizes (a b : Word) : (s.setSizes a b).fcode = s.fcode := rfl
@[simp] theorem fcmd_setSizes (a b : Word) : (s.setSizes a b).fcmd = s.fcmd := rfl
@[simp] theorem sizesHeld_setSizes (a b : Word) : (s.setSizes a b).sizesHeld = true := rfl
@[simp] theorem kindHeld_setSizes (a b : Word) : (s.setSizes a b).kindHeld = s.kindHeld := rfl
@[simp] theorem resultHeld_setSizes (a b : Word) : (s.setSizes a b).resultHeld = s.resultHeld := rfl
@[simp] theorem bufLen_setSizes (a b : Word) : (s.setSizes a b).bufLen = s.bufLen := rfl
@[simp] theorem script_setSizes (a b : Word) : (s.setSizes a b).script = s.script := rfl
@[simp] theorem arrivals_setSizes (a b : Word) : (s.setSizes a b).arrivals = s.arrivals := rfl
@[simp] theorem reads_setSizes (a b : Word) : (s.setSizes a b).reads = s.reads := rfl
@[simp] theorem draws_setSizes (a b : Word) : (s.setSizes a b).draws = s.draws := rfl
@[simp] theorem xf_setSizes (a b : Word) : (s.setSizes a b).xf = s.xf := rfl
@[simp] theorem xi_setSizes (a b : Word) : (s.setSizes a b).xi = s.xi := rfl
@[simp] theorem wf_setSizes (a b : Word) : (s.setSizes a b).wf = s.wf := rfl
@[simp] theorem wi_setSizes (a b : Word) : (s.setSizes a b).wi = s.wi := rfl
@[simp] theorem scr_setSizes (a b : Word) : (s.setSizes a b).scr = s.scr := rfl
@[simp] theorem buf_setSizes (a b : Word) : (s.setSizes a b).buf = s.buf := rfl
@[simp] theorem space_setSizes (a b : Word) (sp : Space) : (s.setSizes a b).space sp = s.space sp := by cases sp <;> rfl

/-! setKind -/

@[simp] theorem n_setKind (k : Kind) (x : R) : (s.setKind k x).n = s.n := rfl
@[simp] theorem m_setKind (k : Kind) (x : R) : (s.setKind k x).m = s.m := rfl
@[simp] theorem kind_setKind (k : Kind) (x : R) : (s.setKind k x).kind = k := rfl
@[simp] theorem scale_setKind (k : Kind) (x : R) : (s.setKind k x).scale = x := rfl
@[simp] theorem result_setKind (k : Kind) (x : R) : (s.setKind k x).result = s.result := rfl
@[simp] theorem phase_setKind (k : Kind) (x : R) : (s.setKind k x).phase = s.phase := rfl
@[simp] theorem guard_setKind (k : Kind) (x : R) : (s.setKind k x).guard = s.guard := rfl
@[simp] theorem fcode_setKind (k : Kind) (x : R) : (s.setKind k x).fcode = s.fcode := rfl
@[simp] theorem fcmd_setKind (k : Kind) (x : R) : (s.setKind k x).fcmd = s.fcmd := rfl
@[simp] theorem sizesHeld_setKind (k : Kind) (x : R) : (s.setKind k x).sizesHeld = s.sizesHeld := rfl
@[simp] theorem kindHeld_setKind (k : Kind) (x : R) : (s.setKind k x).kindHeld = true := rfl
@[simp] theorem resultHeld_setKind (k : Kind) (x : R) : (s.setKind k x).resultHeld = s.resultHeld := rfl
@[simp] theorem bufLen_setKind (k : Kind) (x : R) : (s.setKind k x).bufLen = s.bufLen := rfl
@[simp] theorem script_setKind (k : Kind) (x : R) : (s.setKind k x).script = s.script := rfl
@[simp] theorem arrivals_setKind (k : Kind) (x : R) : (s.setKind k x).arrivals = s.arrivals := rfl
@[simp] theorem reads_setKind (k : Kind) (x : R) : (s.setKind k x).reads = s.reads := rfl
@[simp] theorem draws_setKind (k : Kind) (x : R) : (s.setKind k x).draws = s.draws := rfl
@[simp] theorem xf_setKind (k : Kind) (x : R) : (s.setKind k x).xf = s.xf := rfl
@[simp] theorem xi_setKind (k : Kind) (x : R) : (s.setKind k x).xi = s.xi := rfl
@[simp] theorem wf_setKind (k : Kind) (x : R) : (s.setKind k x).wf = s.wf := rfl
@[simp] theorem wi_setKind (k : Kind) (x : R) : (s.setKind k x).wi = s.wi := rfl
@[simp] theorem scr_setKind (k : Kind) (x : R) : (s.setKind k x).scr = s.scr := rfl
@[simp] theorem buf_setKind (k : Kind) (x : R) : (s.setKind k x).buf = s.buf := rfl
@[simp] theorem space_setKind (k : Kind) (x : R) (sp : Space) : (s.setKind k x).space sp = s.space sp := by cases sp <;> rfl

/-! setResult -/

@[simp] theorem n_setResult (w : Word) : (s.setResult w).n = s.n := rfl
@[simp] theorem m_setResult (w : Word) : (s.setResult w).m = s.m := rfl
@[simp] theorem kind_setResult (w : Word) : (s.setResult w).kind = s.kind := rfl
@[simp] theorem scale_setResult (w : Word) : (s.setResult w).scale = s.scale := rfl
@[simp] theorem result_setResult (w : Word) : (s.setResult w).result = w := rfl
@[simp] theorem phase_setResult (w : Word) : (s.setResult w).phase = s.phase := rfl
@[simp] theorem guard_setResult (w : Word) : (s.setResult w).guard = s.guard := rfl
@[simp] theorem fcode_setResult (w : Word) : (s.setResult w).fcode = s.fcode := rfl
@[simp] theorem fcmd_setResult (w : Word) : (s.setResult w).fcmd = s.fcmd := rfl
@[simp] theorem sizesHeld_setResult (w : Word) : (s.setResult w).sizesHeld = s.sizesHeld := rfl
@[simp] theorem kindHeld_setResult (w : Word) : (s.setResult w).kindHeld = s.kindHeld := rfl
@[simp] theorem resultHeld_setResult (w : Word) : (s.setResult w).resultHeld = true := rfl
@[simp] theorem bufLen_setResult (w : Word) : (s.setResult w).bufLen = s.bufLen := rfl
@[simp] theorem script_setResult (w : Word) : (s.setResult w).script = s.script := rfl
@[simp] theorem arrivals_setResult (w : Word) : (s.setResult w).arrivals = s.arrivals := rfl
@[simp] theorem reads_setResult (w : Word) : (s.setResult w).reads = s.reads := rfl
@[simp] theorem draws_setResult (w : Word) : (s.setResult w).draws = s.draws := rfl
@[simp] theorem xf_setResult (w : Word) : (s.setResult w).xf = s.xf := rfl
@[simp] theorem xi_setResult (w : Word) : (s.setResult w).xi = s.xi := rfl
@[simp] theorem wf_setResult (w : Word) : (s.setResult w).wf = s.wf := rfl
@[simp] theorem wi_setResult (w : Word) : (s.setResult w).wi = s.wi := rfl
@[simp] theorem scr_setResult (w : Word) : (s.setResult w).scr = s.scr := rfl
@[simp] theorem buf_setResult (w : Word) : (s.setResult w).buf = s.buf := rfl
@[simp] theorem space_setResult (w : Word) (sp : Space) : (s.setResult w).space sp = s.space sp := by cases sp <;> rfl

/-! setCause -/

@[simp] theorem n_setCause (c : FatalCode) (b : Byte) : (s.setCause c b).n = s.n := rfl
@[simp] theorem m_setCause (c : FatalCode) (b : Byte) : (s.setCause c b).m = s.m := rfl
@[simp] theorem kind_setCause (c : FatalCode) (b : Byte) : (s.setCause c b).kind = s.kind := rfl
@[simp] theorem scale_setCause (c : FatalCode) (b : Byte) : (s.setCause c b).scale = s.scale := rfl
@[simp] theorem result_setCause (c : FatalCode) (b : Byte) : (s.setCause c b).result = s.result := rfl
@[simp] theorem phase_setCause (c : FatalCode) (b : Byte) : (s.setCause c b).phase = s.phase := rfl
@[simp] theorem guard_setCause (c : FatalCode) (b : Byte) : (s.setCause c b).guard = s.guard := rfl
@[simp] theorem fcode_setCause (c : FatalCode) (b : Byte) : (s.setCause c b).fcode = c := rfl
@[simp] theorem fcmd_setCause (c : FatalCode) (b : Byte) : (s.setCause c b).fcmd = b := rfl
@[simp] theorem sizesHeld_setCause (c : FatalCode) (b : Byte) : (s.setCause c b).sizesHeld = s.sizesHeld := rfl
@[simp] theorem kindHeld_setCause (c : FatalCode) (b : Byte) : (s.setCause c b).kindHeld = s.kindHeld := rfl
@[simp] theorem resultHeld_setCause (c : FatalCode) (b : Byte) : (s.setCause c b).resultHeld = s.resultHeld := rfl
@[simp] theorem bufLen_setCause (c : FatalCode) (b : Byte) : (s.setCause c b).bufLen = s.bufLen := rfl
@[simp] theorem script_setCause (c : FatalCode) (b : Byte) : (s.setCause c b).script = s.script := rfl
@[simp] theorem arrivals_setCause (c : FatalCode) (b : Byte) : (s.setCause c b).arrivals = s.arrivals := rfl
@[simp] theorem reads_setCause (c : FatalCode) (b : Byte) : (s.setCause c b).reads = s.reads := rfl
@[simp] theorem draws_setCause (c : FatalCode) (b : Byte) : (s.setCause c b).draws = s.draws := rfl
@[simp] theorem xf_setCause (c : FatalCode) (b : Byte) : (s.setCause c b).xf = s.xf := rfl
@[simp] theorem xi_setCause (c : FatalCode) (b : Byte) : (s.setCause c b).xi = s.xi := rfl
@[simp] theorem wf_setCause (c : FatalCode) (b : Byte) : (s.setCause c b).wf = s.wf := rfl
@[simp] theorem wi_setCause (c : FatalCode) (b : Byte) : (s.setCause c b).wi = s.wi := rfl
@[simp] theorem scr_setCause (c : FatalCode) (b : Byte) : (s.setCause c b).scr = s.scr := rfl
@[simp] theorem buf_setCause (c : FatalCode) (b : Byte) : (s.setCause c b).buf = s.buf := rfl
@[simp] theorem space_setCause (c : FatalCode) (b : Byte) (sp : Space) : (s.setCause c b).space sp = s.space sp := by cases sp <;> rfl

/-! draw -/

@[simp] theorem n_draw (k : Nat) : (s.draw k).n = s.n := rfl
@[simp] theorem m_draw (k : Nat) : (s.draw k).m = s.m := rfl
@[simp] theorem kind_draw (k : Nat) : (s.draw k).kind = s.kind := rfl
@[simp] theorem scale_draw (k : Nat) : (s.draw k).scale = s.scale := rfl
@[simp] theorem result_draw (k : Nat) : (s.draw k).result = s.result := rfl
@[simp] theorem phase_draw (k : Nat) : (s.draw k).phase = s.phase := rfl
@[simp] theorem guard_draw (k : Nat) : (s.draw k).guard = s.guard := rfl
@[simp] theorem fcode_draw (k : Nat) : (s.draw k).fcode = s.fcode := rfl
@[simp] theorem fcmd_draw (k : Nat) : (s.draw k).fcmd = s.fcmd := rfl
@[simp] theorem sizesHeld_draw (k : Nat) : (s.draw k).sizesHeld = s.sizesHeld := rfl
@[simp] theorem kindHeld_draw (k : Nat) : (s.draw k).kindHeld = s.kindHeld := rfl
@[simp] theorem resultHeld_draw (k : Nat) : (s.draw k).resultHeld = s.resultHeld := rfl
@[simp] theorem bufLen_draw (k : Nat) : (s.draw k).bufLen = s.bufLen := rfl
@[simp] theorem script_draw (k : Nat) : (s.draw k).script = s.script := rfl
@[simp] theorem arrivals_draw (k : Nat) : (s.draw k).arrivals = s.arrivals := rfl
@[simp] theorem reads_draw (k : Nat) : (s.draw k).reads = s.reads := rfl
@[simp] theorem draws_draw (k : Nat) : (s.draw k).draws = s.draws + k := rfl
@[simp] theorem xf_draw (k : Nat) : (s.draw k).xf = s.xf := rfl
@[simp] theorem xi_draw (k : Nat) : (s.draw k).xi = s.xi := rfl
@[simp] theorem wf_draw (k : Nat) : (s.draw k).wf = s.wf := rfl
@[simp] theorem wi_draw (k : Nat) : (s.draw k).wi = s.wi := rfl
@[simp] theorem scr_draw (k : Nat) : (s.draw k).scr = s.scr := rfl
@[simp] theorem buf_draw (k : Nat) : (s.draw k).buf = s.buf := rfl
@[simp] theorem space_draw (k : Nat) (sp : Space) : (s.draw k).space sp = s.space sp := by cases sp <;> rfl

/-! setScript -/

@[simp] theorem n_setScript (l : List (ScriptLine R)) : (s.setScript l).n = s.n := rfl
@[simp] theorem m_setScript (l : List (ScriptLine R)) : (s.setScript l).m = s.m := rfl
@[simp] theorem kind_setScript (l : List (ScriptLine R)) : (s.setScript l).kind = s.kind := rfl
@[simp] theorem scale_setScript (l : List (ScriptLine R)) : (s.setScript l).scale = s.scale := rfl
@[simp] theorem result_setScript (l : List (ScriptLine R)) : (s.setScript l).result = s.result := rfl
@[simp] theorem phase_setScript (l : List (ScriptLine R)) : (s.setScript l).phase = s.phase := rfl
@[simp] theorem guard_setScript (l : List (ScriptLine R)) : (s.setScript l).guard = s.guard := rfl
@[simp] theorem fcode_setScript (l : List (ScriptLine R)) : (s.setScript l).fcode = s.fcode := rfl
@[simp] theorem fcmd_setScript (l : List (ScriptLine R)) : (s.setScript l).fcmd = s.fcmd := rfl
@[simp] theorem sizesHeld_setScript (l : List (ScriptLine R)) : (s.setScript l).sizesHeld = s.sizesHeld := rfl
@[simp] theorem kindHeld_setScript (l : List (ScriptLine R)) : (s.setScript l).kindHeld = s.kindHeld := rfl
@[simp] theorem resultHeld_setScript (l : List (ScriptLine R)) : (s.setScript l).resultHeld = s.resultHeld := rfl
@[simp] theorem bufLen_setScript (l : List (ScriptLine R)) : (s.setScript l).bufLen = s.bufLen := rfl
@[simp] theorem script_setScript (l : List (ScriptLine R)) : (s.setScript l).script = l := rfl
@[simp] theorem arrivals_setScript (l : List (ScriptLine R)) : (s.setScript l).arrivals = s.arrivals := rfl
@[simp] theorem reads_setScript (l : List (ScriptLine R)) : (s.setScript l).reads = s.reads := rfl
@[simp] theorem draws_setScript (l : List (ScriptLine R)) : (s.setScript l).draws = s.draws := rfl
@[simp] theorem xf_setScript (l : List (ScriptLine R)) : (s.setScript l).xf = s.xf := rfl
@[simp] theorem xi_setScript (l : List (ScriptLine R)) : (s.setScript l).xi = s.xi := rfl
@[simp] theorem wf_setScript (l : List (ScriptLine R)) : (s.setScript l).wf = s.wf := rfl
@[simp] theorem wi_setScript (l : List (ScriptLine R)) : (s.setScript l).wi = s.wi := rfl
@[simp] theorem scr_setScript (l : List (ScriptLine R)) : (s.setScript l).scr = s.scr := rfl
@[simp] theorem buf_setScript (l : List (ScriptLine R)) : (s.setScript l).buf = s.buf := rfl
@[simp] theorem space_setScript (l : List (ScriptLine R)) (sp : Space) : (s.setScript l).space sp = s.space sp := by cases sp <;> rfl

/-! setArrivals -/

@[simp] theorem n_setArrivals (l : List (Arrival R)) : (s.setArrivals l).n = s.n := rfl
@[simp] theorem m_setArrivals (l : List (Arrival R)) : (s.setArrivals l).m = s.m := rfl
@[simp] theorem kind_setArrivals (l : List (Arrival R)) : (s.setArrivals l).kind = s.kind := rfl
@[simp] theorem scale_setArrivals (l : List (Arrival R)) : (s.setArrivals l).scale = s.scale := rfl
@[simp] theorem result_setArrivals (l : List (Arrival R)) : (s.setArrivals l).result = s.result := rfl
@[simp] theorem phase_setArrivals (l : List (Arrival R)) : (s.setArrivals l).phase = s.phase := rfl
@[simp] theorem guard_setArrivals (l : List (Arrival R)) : (s.setArrivals l).guard = s.guard := rfl
@[simp] theorem fcode_setArrivals (l : List (Arrival R)) : (s.setArrivals l).fcode = s.fcode := rfl
@[simp] theorem fcmd_setArrivals (l : List (Arrival R)) : (s.setArrivals l).fcmd = s.fcmd := rfl
@[simp] theorem sizesHeld_setArrivals (l : List (Arrival R)) : (s.setArrivals l).sizesHeld = s.sizesHeld := rfl
@[simp] theorem kindHeld_setArrivals (l : List (Arrival R)) : (s.setArrivals l).kindHeld = s.kindHeld := rfl
@[simp] theorem resultHeld_setArrivals (l : List (Arrival R)) : (s.setArrivals l).resultHeld = s.resultHeld := rfl
@[simp] theorem bufLen_setArrivals (l : List (Arrival R)) : (s.setArrivals l).bufLen = s.bufLen := rfl
@[simp] theorem script_setArrivals (l : List (Arrival R)) : (s.setArrivals l).script = s.script := rfl
@[simp] theorem arrivals_setArrivals (l : List (Arrival R)) : (s.setArrivals l).arrivals = l := rfl
@[simp] theorem reads_setArrivals (l : List (Arrival R)) : (s.setArrivals l).reads = s.reads := rfl
@[simp] theorem draws_setArrivals (l : List (Arrival R)) : (s.setArrivals l).draws = s.draws := rfl
@[simp] theorem xf_setArrivals (l : List (Arrival R)) : (s.setArrivals l).xf = s.xf := rfl
@[simp] theorem xi_setArrivals (l : List (Arrival R)) : (s.setArrivals l).xi = s.xi := rfl
@[simp] theorem wf_setArrivals (l : List (Arrival R)) : (s.setArrivals l).wf = s.wf := rfl
@[simp] theorem wi_setArrivals (l : List (Arrival R)) : (s.setArrivals l).wi = s.wi := rfl
@[simp] theorem scr_setArrivals (l : List (Arrival R)) : (s.setArrivals l).scr = s.scr := rfl
@[simp] theorem buf_setArrivals (l : List (Arrival R)) : (s.setArrivals l).buf = s.buf := rfl
@[simp] theorem space_setArrivals (l : List (Arrival R)) (sp : Space) : (s.setArrivals l).space sp = s.space sp := by cases sp <;> rfl

/-! logRead -/

@[simp] theorem n_logRead (r : HostRead R) : (s.logRead r).n = s.n := rfl
@[simp] theorem m_logRead (r : HostRead R) : (s.logRead r).m = s.m := rfl
@[simp] theorem kind_logRead (r : HostRead R) : (s.logRead r).kind = s.kind := rfl
@[simp] theorem scale_logRead (r : HostRead R) : (s.logRead r).scale = s.scale := rfl
@[simp] theorem result_logRead (r : HostRead R) : (s.logRead r).result = s.result := rfl
@[simp] theorem phase_logRead (r : HostRead R) : (s.logRead r).phase = s.phase := rfl
@[simp] theorem guard_logRead (r : HostRead R) : (s.logRead r).guard = s.guard := rfl
@[simp] theorem fcode_logRead (r : HostRead R) : (s.logRead r).fcode = s.fcode := rfl
@[simp] theorem fcmd_logRead (r : HostRead R) : (s.logRead r).fcmd = s.fcmd := rfl
@[simp] theorem sizesHeld_logRead (r : HostRead R) : (s.logRead r).sizesHeld = s.sizesHeld := rfl
@[simp] theorem kindHeld_logRead (r : HostRead R) : (s.logRead r).kindHeld = s.kindHeld := rfl
@[simp] theorem resultHeld_logRead (r : HostRead R) : (s.logRead r).resultHeld = s.resultHeld := rfl
@[simp] theorem bufLen_logRead (r : HostRead R) : (s.logRead r).bufLen = s.bufLen := rfl
@[simp] theorem script_logRead (r : HostRead R) : (s.logRead r).script = s.script := rfl
@[simp] theorem arrivals_logRead (r : HostRead R) : (s.logRead r).arrivals = s.arrivals := rfl
@[simp] theorem reads_logRead (r : HostRead R) : (s.logRead r).reads = s.reads ++ [r] := rfl
@[simp] theorem draws_logRead (r : HostRead R) : (s.logRead r).draws = s.draws := rfl
@[simp] theorem xf_logRead (r : HostRead R) : (s.logRead r).xf = s.xf := rfl
@[simp] theorem xi_logRead (r : HostRead R) : (s.logRead r).xi = s.xi := rfl
@[simp] theorem wf_logRead (r : HostRead R) : (s.logRead r).wf = s.wf := rfl
@[simp] theorem wi_logRead (r : HostRead R) : (s.logRead r).wi = s.wi := rfl
@[simp] theorem scr_logRead (r : HostRead R) : (s.logRead r).scr = s.scr := rfl
@[simp] theorem buf_logRead (r : HostRead R) : (s.logRead r).buf = s.buf := rfl
@[simp] theorem space_logRead (r : HostRead R) (sp : Space) : (s.logRead r).space sp = s.space sp := by cases sp <;> rfl

/-! replaceBuf -/

@[simp] theorem n_replaceBuf (l : Word) (b : Memory R) : (s.replaceBuf l b).n = s.n := rfl
@[simp] theorem m_replaceBuf (l : Word) (b : Memory R) : (s.replaceBuf l b).m = s.m := rfl
@[simp] theorem kind_replaceBuf (l : Word) (b : Memory R) : (s.replaceBuf l b).kind = s.kind := rfl
@[simp] theorem scale_replaceBuf (l : Word) (b : Memory R) : (s.replaceBuf l b).scale = s.scale := rfl
@[simp] theorem result_replaceBuf (l : Word) (b : Memory R) : (s.replaceBuf l b).result = s.result := rfl
@[simp] theorem phase_replaceBuf (l : Word) (b : Memory R) : (s.replaceBuf l b).phase = s.phase := rfl
@[simp] theorem guard_replaceBuf (l : Word) (b : Memory R) : (s.replaceBuf l b).guard = s.guard := rfl
@[simp] theorem fcode_replaceBuf (l : Word) (b : Memory R) : (s.replaceBuf l b).fcode = s.fcode := rfl
@[simp] theorem fcmd_replaceBuf (l : Word) (b : Memory R) : (s.replaceBuf l b).fcmd = s.fcmd := rfl
@[simp] theorem sizesHeld_replaceBuf (l : Word) (b : Memory R) : (s.replaceBuf l b).sizesHeld = s.sizesHeld := rfl
@[simp] theorem kindHeld_replaceBuf (l : Word) (b : Memory R) : (s.replaceBuf l b).kindHeld = s.kindHeld := rfl
@[simp] theorem resultHeld_replaceBuf (l : Word) (b : Memory R) : (s.replaceBuf l b).resultHeld = s.resultHeld := rfl
@[simp] theorem bufLen_replaceBuf (l : Word) (b : Memory R) : (s.replaceBuf l b).bufLen = l := rfl
@[simp] theorem script_replaceBuf (l : Word) (b : Memory R) : (s.replaceBuf l b).script = s.script := rfl
@[simp] theorem arrivals_replaceBuf (l : Word) (b : Memory R) : (s.replaceBuf l b).arrivals = s.arrivals := rfl
@[simp] theorem reads_replaceBuf (l : Word) (b : Memory R) : (s.replaceBuf l b).reads = s.reads := rfl
@[simp] theorem draws_replaceBuf (l : Word) (b : Memory R) : (s.replaceBuf l b).draws = s.draws := rfl
@[simp] theorem xf_replaceBuf (l : Word) (b : Memory R) : (s.replaceBuf l b).xf = s.xf := rfl
@[simp] theorem xi_replaceBuf (l : Word) (b : Memory R) : (s.replaceBuf l b).xi = s.xi := rfl
@[simp] theorem wf_replaceBuf (l : Word) (b : Memory R) : (s.replaceBuf l b).wf = s.wf := rfl
@[simp] theorem wi_replaceBuf (l : Word) (b : Memory R) : (s.replaceBuf l b).wi = s.wi := rfl
@[simp] theorem scr_replaceBuf (l : Word) (b : Memory R) : (s.replaceBuf l b).scr = s.scr := rfl
@[simp] theorem buf_replaceBuf (l : Word) (b : Memory R) : (s.replaceBuf l b).buf = b := rfl
@[simp] theorem space_replaceBuf (l : Word) (b : Memory R) (sp : Space) :
    (s.replaceBuf l b).space sp = if sp = .buf then b else s.space sp := by cases sp <;> rfl
end Sys2Proof.Machine.State
end

