-- ==== Sys2Proof/Laws/Ops.lean ====
section
/-! SUPPORT. For each shared operation, once, everything it can do. Provers cite these and do not unfold the operations. -/

namespace Sys2Proof.Machine

variable {R : Type}

/-! store -/

theorem State.space_store (s : State R) (sp tp : Space) (lo : Nat) (vs : List (Sample R)) :
    (s.store sp lo vs).space tp = if tp = sp then (s.space sp).writeFrom lo vs else s.space tp := by
  simp [State.store]

@[simp] theorem State.store_n (s : State R) (sp : Space) (lo : Nat) (vs : List (Sample R)) : (s.store sp lo vs).n = s.n := by
  simp [State.store]
@[simp] theorem State.store_m (s : State R) (sp : Space) (lo : Nat) (vs : List (Sample R)) : (s.store sp lo vs).m = s.m := by
  simp [State.store]
@[simp] theorem State.store_kind (s : State R) (sp : Space) (lo : Nat) (vs : List (Sample R)) :
    (s.store sp lo vs).kind = s.kind := by simp [State.store]
@[simp] theorem State.store_scale (s : State R) (sp : Space) (lo : Nat) (vs : List (Sample R)) :
    (s.store sp lo vs).scale = s.scale := by simp [State.store]
@[simp] theorem State.store_phase (s : State R) (sp : Space) (lo : Nat) (vs : List (Sample R)) :
    (s.store sp lo vs).phase = s.phase := by simp [State.store]
@[simp] theorem State.store_guard (s : State R) (sp : Space) (lo : Nat) (vs : List (Sample R)) :
    (s.store sp lo vs).guard = s.guard := by simp [State.store]

/-! command -/

/-- What presenting a legal frame can do: it is ignored, it stops the engine, or it is accepted; it never faults. -/
theorem command_cases [Inhabited R] (cmd : Byte) (checks : List (Bool × FatalCode)) (effect : State R → Result R) (s : State R) :
    (s.phase = .fatal ∧ command cmd checks effect s = .next s) ∨
    (s.phase ≠ .fatal ∧ ∃ code, firstFailing checks = some code ∧
      command cmd checks effect s = .next (raiseFatal code cmd s)) ∨
    (s.phase ≠ .fatal ∧ firstFailing checks = none ∧ command cmd checks effect s = effect s) := by
  unfold command
  by_cases h : s.phase = .fatal
  · exact .inl ⟨h, if_pos h⟩
  · rw [if_neg h]
    cases hc : firstFailing checks with
    | some code => exact .inr (.inl ⟨h, code, rfl, rfl⟩)
    | none => exact .inr (.inr ⟨h, rfl, rfl⟩)

theorem command_fatal [Inhabited R] {cmd : Byte} {checks : List (Bool × FatalCode)} {effect : State R → Result R} {s : State R}
    (h : s.phase = .fatal) : command cmd checks effect s = .next s := if_pos h

theorem command_accept [Inhabited R] {cmd : Byte} {checks : List (Bool × FatalCode)} {effect : State R → Result R} {s : State R}
    (h : s.phase ≠ .fatal) (hc : firstFailing checks = none) :
    command cmd checks effect s = effect s := by
  simp only [command, if_neg h, hc]

theorem command_stop [Inhabited R] {cmd : Byte} {checks : List (Bool × FatalCode)} {effect : State R → Result R} {s : State R}
    {code : FatalCode} (h : s.phase ≠ .fatal) (hc : firstFailing checks = some code) :
    command cmd checks effect s = .next (raiseFatal code cmd s) := by
  simp only [command, if_neg h, hc]

@[simp] theorem firstFailing_nil : firstFailing [] = none := rfl

theorem firstFailing_cons (b : Bool) (c : FatalCode) (rest : List (Bool × FatalCode)) :
    firstFailing ((b, c) :: rest) = if b then some c else firstFailing rest := rfl

theorem firstFailing_none_iff (l : List (Bool × FatalCode)) :
    firstFailing l = none ↔ ∀ p ∈ l, p.1 = false := by
  induction l with
  | nil => simp
  | cons p l ih =>
    obtain ⟨b, c⟩ := p
    cases b <;> simp [firstFailing_cons, ih]

/-- A cause that a list of checks reports stands in the list. -/
theorem firstFailing_mem {l : List (Bool × FatalCode)} {c : FatalCode} (h : firstFailing l = some c) :
    (true, c) ∈ l := by
  induction l with
  | nil => cases h
  | cons p l ih =>
    obtain ⟨b, d⟩ := p
    cases b
    · exact List.mem_cons_of_mem _ (ih (by simpa [firstFailing_cons] using h))
    · simp only [firstFailing_cons, if_true, Option.some.injEq] at h
      subst h
      exact List.mem_cons_self

/-! withRange and invoke -/

theorem withRange_next {s : State R} {sp : Space} {n : Nat} {k : Vector (Sample R) n → Result R} {t : State R}
    (h : withRange s sp n k = .next t) : ∃ vs, (s.space sp).readRange n = .ok vs ∧ k vs = .next t := by
  unfold withRange at h
  split at h
  · exact ⟨_, ‹_›, h⟩
  · cases h

theorem withRange_ok {s : State R} {sp : Space} {n : Nat} {k : Vector (Sample R) n → Result R} {vs : Vector (Sample R) n}
    (h : (s.space sp).readRange n = .ok vs) : withRange s sp n k = k vs := by
  simp only [withRange, h]

theorem withRange_fault {s : State R} {sp : Space} {n : Nat} {k : Vector (Sample R) n → Result R} {r : Fault}
    (h : withRange s sp n k = .fault r) :
    (∃ i, i < n ∧ (s.space sp).read i = none ∧ r = .noValue sp i) ∨
    ∃ vs, (s.space sp).readRange n = .ok vs ∧ k vs = .fault r := by
  unfold withRange at h
  split at h
  · exact .inr ⟨_, ‹_›, h⟩
  · rename_i i hi
    obtain ⟨h1, h2⟩ := readRange_error hi
    cases h
    exact .inl ⟨i, h1, h2, rfl⟩

theorem withRange_refused {s : State R} {sp : Space} {n : Nat} {k : Vector (Sample R) n → Result R} {r : Refusal}
    (h : withRange s sp n k = .refused r) : ∃ vs, (s.space sp).readRange n = .ok vs ∧ k vs = .refused r := by
  unfold withRange at h
  split at h
  · exact ⟨_, ‹_›, h⟩
  · cases h

/-- What an invocation that answers has done: it has replaced the `M` elements of the space. -/
theorem invoke_next [Inhabited R] {inner : Inner R} {op : Vector (Sample R) inner.L → Vector (Sample R) inner.L} {sp : Space}
    {k : State R → State R} {s t : State R} (h : invoke inner op sp k s = .next t) :
    ∃ vs j, vs.length = s.sizeM ∧ t = k ((s.store sp 0 vs).draw j) := by
  unfold invoke at h
  split at h
  · obtain ⟨z, _, hk⟩ := withRange_next h
    cases hk
    exact ⟨_, 0, by simpa using (‹s.sizeM = inner.L›).symm, rfl⟩
  · obtain ⟨_, _, hk⟩ := withRange_next h
    cases hk
    exact ⟨_, 1, by simp, rfl⟩

/-- The capability attached has length `M`: its operation is applied to the space (R172, R173). -/
theorem invoke_ok [Inhabited R] {inner : Inner R} {op : Vector (Sample R) inner.L → Vector (Sample R) inner.L} {sp : Space}
    {k : State R → State R} {s : State R} {z : Vector (Sample R) inner.L} (hm : s.sizeM = inner.L)
    (h : (s.space sp).readRange inner.L = .ok z) :
    invoke inner op sp k s = .next (k (s.store sp 0 (samples (op z)))) := by
  rw [invoke, if_pos hm, withRange_ok h]

/-- An invocation reads the `M` elements of its space, and stops only where one of them holds no value. -/
theorem invoke_fault [Inhabited R] {inner : Inner R} {op : Vector (Sample R) inner.L → Vector (Sample R) inner.L} {sp : Space}
    {k : State R → State R} {s : State R} {r : Fault} (h : invoke inner op sp k s = .fault r) :
    ∃ i, i < s.sizeM ∧ (s.space sp).read i = none ∧ r = .noValue sp i := by
  unfold invoke at h
  split at h
  · rcases withRange_fault h with ⟨i, h1, h2, h3⟩ | ⟨_, _, hk⟩
    · exact ⟨i, by rw [‹s.sizeM = inner.L›]; exact h1, h2, h3⟩
    · cases hk
  · rcases withRange_fault h with ⟨i, h1, h2, h3⟩ | ⟨_, _, hk⟩
    · exact ⟨i, h1, h2, h3⟩
    · cases hk

theorem withRange_not_refused {s : State R} {sp : Space} {n : Nat} {k : Vector (Sample R) n → Result R}
    (hk : ∀ vs r, k vs ≠ .refused r) (r : Refusal) : withRange s sp n k ≠ .refused r := by
  intro h
  obtain ⟨vs, _, h⟩ := withRange_refused h
  exact hk vs r h

theorem invoke_not_refused [Inhabited R] {inner : Inner R}
    {op : Vector (Sample R) inner.L → Vector (Sample R) inner.L} {sp : Space} {k : State R → State R} {s : State R}
    (r : Refusal) : invoke inner op sp k s ≠ .refused r := by
  unfold invoke
  split <;> exact withRange_not_refused (fun _ _ h => by cases h) r

/-! forget, abandon, raiseFatal -/

theorem State.space_forget [Inhabited R] (s : State R) (sp tp : Space) :
    (s.forget sp).space tp =
      if tp = sp then (s.space sp).replaceWith (Config.freeSample s.draws) else s.space tp := by
  simp [State.forget]

/-- Forgetting changes the content of the space and the counter, nothing else. -/
theorem State.forget_eq [Inhabited R] (s : State R) (sp : Space) :
    ∃ mem, (s.forget sp) = (s.setSpace sp mem).draw 1 ∧ ∀ i, (mem.read i).isSome = ((s.space sp).read i).isSome :=
  ⟨_, rfl, fun i => by simp [read_replaceWith]⟩

/-- The registers an abandoned command leaves: all of them. -/
theorem State.abandon_registers [Inhabited R] (s : State R) :
    (s.abandon).n = s.n ∧ (s.abandon).m = s.m ∧ (s.abandon).kind = s.kind ∧ (s.abandon).scale = s.scale ∧
    (s.abandon).result = s.result ∧ (s.abandon).phase = s.phase ∧ (s.abandon).guard = s.guard ∧
    (s.abandon).fcode = s.fcode ∧ (s.abandon).fcmd = s.fcmd ∧ (s.abandon).sizesHeld = s.sizesHeld ∧
    (s.abandon).kindHeld = s.kindHeld ∧ (s.abandon).resultHeld = s.resultHeld ∧ (s.abandon).bufLen = s.bufLen ∧
    (s.abandon).script = s.script ∧ (s.abandon).arrivals = s.arrivals ∧ (s.abandon).reads = s.reads := by
  unfold State.abandon
  split
  · split <;> simp [State.forget]
  · simp

/-- Abandoning keeps the canonical form of every space, and which of its elements hold a value. -/
theorem State.abandon_space [Inhabited R] (s : State R) (sp : Space) :
    ((s.space sp).wf → (s.abandon.space sp).wf) ∧
    ∀ i, ((s.abandon.space sp).read i).isSome = ((s.space sp).read i).isSome := by
  have key : ∀ (t : State R) (tp : Space),
      ((t.space sp).wf → ((t.forget tp).space sp).wf) ∧
      ∀ i, (((t.forget tp).space sp).read i).isSome = ((t.space sp).read i).isSome := by
    intro t tp
    rw [State.space_forget]
    split
    · subst_vars
      exact ⟨fun h => wf_replaceWith h _, fun i => by simp [read_replaceWith]⟩
    · exact ⟨id, fun _ => rfl⟩
  unfold State.abandon
  split
  · split
    · exact ⟨fun h => (key _ _).1 ((key _ _).1 ((key _ _).1 h)),
        fun i => by rw [(key _ _).2, (key _ _).2, (key _ _).2]⟩
    · exact ⟨fun h => (key _ _).1 ((key _ _).1 ((key _ _).1 h)),
        fun i => by rw [(key _ _).2, (key _ _).2, (key _ _).2]⟩
    · exact ⟨fun h => (key _ _).1 ((key _ _).1 h), fun i => by rw [(key _ _).2, (key _ _).2]⟩
  · exact ⟨id, fun _ => rfl⟩

/-- With no command in progress nothing is abandoned. -/
theorem State.abandon_idle [Inhabited R] {s : State R} (h : s.guard = false) : s.abandon = s := by simp [State.abandon, h]

@[simp] theorem raiseFatal_phase [Inhabited R] (code : FatalCode) (cmd : Byte) (s : State R) :
    (raiseFatal code cmd s).phase = .fatal := rfl
@[simp] theorem raiseFatal_fcode [Inhabited R] (code : FatalCode) (cmd : Byte) (s : State R) :
    (raiseFatal code cmd s).fcode = code := rfl
@[simp] theorem raiseFatal_fcmd [Inhabited R] (code : FatalCode) (cmd : Byte) (s : State R) :
    (raiseFatal code cmd s).fcmd = cmd := rfl
@[simp] theorem raiseFatal_guard [Inhabited R] (code : FatalCode) (cmd : Byte) (s : State R) :
    (raiseFatal code cmd s).guard = s.guard := s.abandon_registers.2.2.2.2.2.2.1
@[simp] theorem raiseFatal_space [Inhabited R] (code : FatalCode) (cmd : Byte) (s : State R) (sp : Space) :
    (raiseFatal code cmd s).space sp = s.abandon.space sp := by simp [raiseFatal]

/-! The attached capability -/

/-- The capability handed over with a power of two as `A1` has that length (R131). -/
theorem capabilityOf_length {a1 : Word} {k : Nat} (h : a1.toNat = 2 ^ k) : (capabilityOf a1).L = a1.toNat := by
  simp [capabilityOf, h, Nat.log2_two_pow]

/-! innerSize -/

theorem badSize_iff (n : Nat) : badSize n = true ↔ n = 0 ∨ Config.nMax < n := by simp [badSize]

/-- The doubling loop finds the least doubling of `p` that is at least `bound`, given fuel enough. -/
theorem doubleUntil_spec (bound : Nat) : ∀ (fuel p : Nat), bound ≤ 2 ^ fuel * p →
    bound ≤ doubleUntil bound fuel p ∧ ∃ k, k ≤ fuel ∧ doubleUntil bound fuel p = 2 ^ k * p ∧
      ∀ j, j < k → 2 ^ j * p < bound := by
  intro fuel
  induction fuel with
  | zero => intro p h; exact ⟨by simpa [doubleUntil] using h, 0, le_rfl, by simp [doubleUntil], by simp⟩
  | succ fuel ih =>
    intro p h
    simp only [doubleUntil]
    split
    · rename_i hlt
      have h2 : bound ≤ 2 ^ fuel * (2 * p) := by rw [pow_succ] at h; linarith
      obtain ⟨h3, k, hk, he, hj⟩ := ih (2 * p) h2
      refine ⟨h3, k + 1, Nat.succ_le_succ hk, by rw [he, pow_succ]; ring, fun j hjk => ?_⟩
      cases j with
      | zero => simpa using hlt
      | succ j => have := hj j (by omega); rw [pow_succ]; linarith
    · exact ⟨by omega, 0, Nat.zero_le _, by simp, by simp⟩

/-- On the domain `innerSize` is a power of two (R95 (a)). -/
theorem innerSize_pow {n : Nat} (h : n ≤ Config.nMax) : ∃ k, innerSize n = 2 ^ k := by
  have hb : 2 * n - 1 ≤ 2 ^ 32 * 1 := by simp only [Config.nMax, Config.sizeW] at h; omega
  obtain ⟨_, k, _, he, _⟩ := doubleUntil_spec (2 * n - 1) 32 1 hb
  exact ⟨k, by rw [← Nat.mul_one (2 ^ k)]; exact he⟩

/-- On the domain `innerSize` is a power of two no greater than `2^31`, so it fits a size register (R95). -/
theorem innerSize_lt {n : Nat} (h : n ≤ Config.nMax) : innerSize n < 2 ^ 32 := by
  have hb : 2 * n - 1 ≤ 2 ^ 32 * 1 := by simp only [Config.nMax, Config.sizeW] at h; omega
  obtain ⟨_, k, _, he, hj⟩ := doubleUntil_spec (2 * n - 1) 32 1 hb
  have : innerSize n = 2 ^ k * 1 := he
  rw [this, Nat.mul_one]
  refine Nat.pow_lt_pow_right (by norm_num) ?_
  by_contra hk
  have := hj 31 (by omega)
  simp only [Config.nMax, Config.sizeW] at h
  omega

/-- CONSTRUCT's check of `A1` makes the capability attached one of length `innerSize N` (R131). -/
theorem capabilityOf_innerSize {n : Nat} {a1 : Word} (hn : n ≤ Config.nMax) (h : a1.toNat = innerSize n) :
    (capabilityOf a1).L = a1.toNat := by
  obtain ⟨k, hk⟩ := innerSize_pow hn
  exact capabilityOf_length (h.trans hk)

end Sys2Proof.Machine
end

