-- ==== Sys2Proof/Laws/Exec.lean ====
section
/-! SUPPORT. Each arm of exec as the shared operation its meaning is, and exec as an instance of the generic machine. -/

namespace Sys2Proof.Machine

variable (s : State)

theorem exec_construct (n l a b c d e : Word) :
    exec (.construct n l a b c d e) s = command Cmd.construct (constructChecks n l a b c d e s)
      (fun s => if l.toNat = (capabilityOf l).L
        then .next ((s.setSizes n (BitVec.ofNat 32 (innerSize n.toNat))).begin .cXgen)
        else .refused .falseInnerLength) s := rfl
theorem exec_size :
    exec .size s = command Cmd.size [(s.phase == .uncon, .notConstructed)] (fun s => .next (s.setResult s.n)) s := rfl
theorem exec_isize (n : Word) :
    exec (.isize n) s = command Cmd.isize [(badSize n.toNat, .badSize)]
      (fun s => .next (s.setResult (BitVec.ofNat 32 (innerSize n.toNat)))) s := rfl
theorem exec_xformFft (w : Word) : exec (.xformFft w) s = xform Config.num Cmd.fft .fft w s := rfl
theorem exec_xformIfft (w : Word) : exec (.xformIfft w) s = xform Config.num Cmd.ifft .ifft w s := rfl
theorem exec_xformUifft (w : Word) : exec (.xformUifft w) s = xform Config.num Cmd.uifft .uifft w s := rfl
theorem exec_xformSfft (w : Word) : exec (.xformSfft w) s = xform Config.num Cmd.sfft .sfft w s := rfl
theorem exec_xformSifft (w : Word) : exec (.xformSifft w) s = xform Config.num Cmd.sifft .sifft w s := rfl
theorem exec_xgen : exec .xgen s = fillXTables Config.num Config.trig s := rfl
theorem exec_wgen : exec .wgen s = fillWTables Config.num Config.trig s := rfl
theorem exec_wfwdF :
    exec .wfwdF s = invoke s.attached s.attached.fwd .wf (fun t => t.setPhase .cWfwdI) s := rfl
theorem exec_wfwdI : exec .wfwdI s = invoke s.attached s.attached.fwd .wi State.complete s := rfl
theorem exec_mod : exec .mod s = modulateBuf Config.num s := rfl
theorem exec_zpad : exec .zpad s = zeroPad Config.num s := rfl
theorem exec_ifwd :
    exec .ifwd s = invoke s.attached s.attached.fwd .scr (fun t => t.setPhase .tFmul) s := rfl
theorem exec_fmul : exec .fmul s = multiplyScr Config.num s := rfl
theorem exec_iinv :
    exec .iinv s = invoke s.attached s.attached.inv .scr (fun t => t.setPhase .tDemod) s := rfl
theorem exec_demod : exec .demod s = demodulateScr Config.num s := rfl

/-- A CONSTRUCT that passes its checks is accepted: the capability its frame hands over has the length it declares
(R131, R225). -/
theorem construct_true {n l a b c d e : Word} {s : State} (h : firstFailing (constructChecks n l a b c d e s) = none) :
    l.toNat = (capabilityOf l).L := by
  rw [firstFailing_none_iff] at h
  simp [constructChecks] at h
  have hb : ¬ badSize n.toNat = true := by simp [h]
  rw [badSize_iff] at hb
  exact (capabilityOf_innerSize (by omega) h.2.2.2.1).symm

/-- CONSTRUCT on the fixed machine: no frame is refused. -/
theorem exec_construct_next (n l a b c d e : Word) :
    exec (.construct n l a b c d e) s = command Cmd.construct (constructChecks n l a b c d e s)
      (fun s => .next ((s.setSizes n (BitVec.ofNat 32 (innerSize n.toNat))).begin .cXgen)) s := by
  rw [exec_construct]
  rcases command_cases Cmd.construct (constructChecks n l a b c d e s)
    (fun s => if l.toNat = (capabilityOf l).L
        then .next ((s.setSizes n (BitVec.ofNat 32 (innerSize n.toNat))).begin .cXgen)
        else .refused .falseInnerLength) s with ⟨h, e⟩ | ⟨h, code, hc, e⟩ | ⟨h, hc, e⟩
  · rw [e, command_fatal h]
  · rw [e, command_stop h hc]
  · rw [e, command_accept h hc, if_pos (construct_true hc)]

/-- What a legal frame decodes to: the five XFORM commands are one operation, with their command byte and kind. -/
theorem exec_frame {f : Frame} {i : Instr} (h : decode f = .ok i) :
    (∃ n l a b c d e, i = .construct n l a b c d e ∧ f.cmd = Cmd.construct) ∨ (i = .size ∧ f.cmd = Cmd.size) ∨
    (∃ n, i = .isize n ∧ f.cmd = Cmd.isize) ∨
    ∃ k w, f.ops = [w] ∧ f.cmd ∈ [Cmd.fft, Cmd.ifft, Cmd.uifft, Cmd.sfft, Cmd.sifft] ∧
      ∀ s, exec i s = xform Config.num f.cmd k w s := by
  obtain ⟨cmd, ops⟩ := f
  have one : ∀ (c : Byte) (mk : Word → Instr), decodeOne c ops mk = .ok i → ∃ w, ops = [w] ∧ i = mk w := by
    intro c mk h
    unfold decodeOne at h
    split at h
    · cases h; exact ⟨_, rfl, rfl⟩
    · cases h
  simp only [decode] at h
  split at h
  · split at h
    · cases h; exact .inl ⟨_, _, _, _, _, _, _, rfl, ‹_›⟩
    · cases h
  split at h
  · split at h
    · cases h; exact .inr (.inl ⟨rfl, ‹_›⟩)
    · cases h
  split at h
  · obtain ⟨w, rfl, rfl⟩ := one _ _ h; subst_vars; exact .inr (.inr (.inr ⟨.fft, w, rfl, by simp, fun _ => rfl⟩))
  split at h
  · obtain ⟨w, rfl, rfl⟩ := one _ _ h; subst_vars; exact .inr (.inr (.inr ⟨.ifft, w, rfl, by simp, fun _ => rfl⟩))
  split at h
  · obtain ⟨w, rfl, rfl⟩ := one _ _ h; subst_vars; exact .inr (.inr (.inr ⟨.uifft, w, rfl, by simp, fun _ => rfl⟩))
  split at h
  · obtain ⟨w, rfl, rfl⟩ := one _ _ h; subst_vars; exact .inr (.inr (.inr ⟨.sfft, w, rfl, by simp, fun _ => rfl⟩))
  split at h
  · obtain ⟨w, rfl, rfl⟩ := one _ _ h; subst_vars; exact .inr (.inr (.inr ⟨.sifft, w, rfl, by simp, fun _ => rfl⟩))
  split at h
  · obtain ⟨w, rfl, rfl⟩ := one _ _ h; exact .inr (.inr (.inl ⟨w, rfl, ‹_›⟩))
  · cases h

/-- The fixed machine's exec is the generic one with the attached capability among its parameters. -/
theorem exec_eq_execOn (i : Instr) (s : State) : exec i s = execOn (paramsOf (lengthAttached i s)) i s := by
  cases i <;> rfl

end Sys2Proof.Machine
end

