-- ==== Sys2Proof/Laws/Ideal.lean ====
section
/-! SUPPORT. The small lemmas of the ideal instance: samples as complex numbers, `cis`, and the operations of `NumReal` where
they are exact. -/

namespace Sys2Proof.Ideal

open Machine

theorem toComplex_injective {a b : Sample ℝ} (h : toComplex a = toComplex b) : a = b := by
  cases a; cases b
  simp only [toComplex, Complex.mk.injEq] at h
  simp [h]

@[simp] theorem toComplex_ofComplex (z : ℂ) : toComplex (ofComplex z) = z := rfl

/-- Vectors of samples are equal when their entries are equal as complex numbers. -/
theorem vector_ext {n : Nat} {a b : Vector (Sample ℝ) n} (h : ∀ i : Fin n, toComplex a[i] = toComplex b[i]) :
    a = b := by
  apply Vector.ext
  intro i hi
  exact toComplex_injective (h ⟨i, hi⟩)

theorem toComplex_conj (z : Sample ℝ) : toComplex (conj numReal z) = (starRingEnd ℂ) (toComplex z) := by
  apply Complex.ext <;> simp [toComplex, conj, numReal]

theorem toComplex_rscale (z : Sample ℝ) (s : ℝ) : toComplex (rscale numReal z s) = toComplex z * s := by
  apply Complex.ext <;> simp [toComplex, rscale, numReal]

theorem numReal_div {a b : ℝ} (h : b ≠ 0) : numReal.div a b = a / b := if_neg h

theorem numReal_sqrt {a : ℝ} (h : 0 ≤ a) : numReal.sqrt a = Real.sqrt a := if_neg (not_lt.mpr h)

/-- The scale factors over the real numbers (R92). -/
theorem scale_numReal {n : Nat} (h : 1 ≤ n) (k : Kind) :
    scale numReal k n = match k with
      | .fft | .uifft => 1
      | .ifft => 1 / (n : ℝ)
      | .sfft | .sifft => 1 / Real.sqrt n := by
  have hn : (0 : ℝ) < n := by exact_mod_cast h
  cases k
  · rfl
  · exact numReal_div hn.ne'
  · rfl
  all_goals
    show numReal.div 1 (numReal.sqrt (n : ℝ)) = _
    rw [numReal_sqrt hn.le, numReal_div (Real.sqrt_ne_zero'.mpr hn)]

/-- The twiddle of the ideal evaluator (R91 `HT_Ideal`). -/
theorem halfTwiddle_trigReal (k : Int) {n : Nat} (h : 1 ≤ n) :
    halfTwiddle trigReal k n = ⟨Real.cos (k * Real.pi / n), -Real.sin (k * Real.pi / n)⟩ := by
  have hn : (n : ℝ) ≠ 0 := by positivity
  have ht : theta trigReal k n = k * Real.pi / n := numReal_div hn
  have hs : ∀ x : ℝ, trigReal.neg x = -x := fun _ => rfl
  simp only [halfTwiddle, ht, hs]
  rfl

theorem cis_zero : cis 0 = 1 := by simp [cis]

theorem cis_add (a b : ℝ) : cis (a + b) = cis a * cis b := by simp [cis, add_mul, Complex.exp_add]

theorem cis_eq (t : ℝ) : cis t = ⟨Real.cos t, Real.sin t⟩ := by
  apply Complex.ext
  · simp [cis, Complex.exp_ofReal_mul_I_re]
  · simp [cis, Complex.exp_ofReal_mul_I_im]

theorem conj_cis (t : ℝ) : (starRingEnd ℂ) (cis t) = cis (-t) := by
  rw [cis_eq, cis_eq]
  apply Complex.ext <;> simp

end Sys2Proof.Ideal
end

