-- ==== Sys2Proof/Laws/PerInstr.lean ====
section
/-! SUPPORT. Statements made once per instruction. Family Encoded: the encoder gives a code the tables of R62 to R64
list, with the operand words its opcode fixes. -/

namespace Sys2Proof.Laws.Encoded

/-- The code of an instruction is well formed. -/
def Statement (i : Instr) : Prop := (encode i).wellFormed = true

theorem construct (n l a b c d e : Word) : Statement (.construct n l a b c d e) := rfl
theorem size : Statement .size := rfl
theorem xformFft (w : Word) : Statement (.xformFft w) := rfl
theorem xformIfft (w : Word) : Statement (.xformIfft w) := rfl
theorem xformUifft (w : Word) : Statement (.xformUifft w) := rfl
theorem xformSfft (w : Word) : Statement (.xformSfft w) := rfl
theorem xformSifft (w : Word) : Statement (.xformSifft w) := rfl
theorem isize (n : Word) : Statement (.isize n) := rfl
theorem xgen : Statement .xgen := rfl
theorem wgen : Statement .wgen := rfl
theorem wfwdF : Statement .wfwdF := rfl
theorem wfwdI : Statement .wfwdI := rfl
theorem mod : Statement .mod := rfl
theorem zpad : Statement .zpad := rfl
theorem ifwd : Statement .ifwd := rfl
theorem fmul : Statement .fmul := rfl
theorem iinv : Statement .iinv := rfl
theorem demod : Statement .demod := rfl

end Sys2Proof.Laws.Encoded
end

