-- ==== Sys2Proof/Laws/Step.lean ====
section
/-! SUPPORT. What presenting a frame, one step and a run can do, said once; and the terms of Safety for the shared
operations. -/

namespace Sys2Proof.Machine

open Safety

/-! Presenting a frame. -/

theorem decode_illegal_iff (f : Frame) :
    decode f = .error (.illegalCmd f.cmd) ↔ Cmd.operandWords f.cmd = none := by
  obtain ⟨cmd, ops⟩ := f
  simp only [decode, Cmd.operandWords]
  (repeat' split) <;> simp_all [decodeOne] <;> (try split) <;> simp

/-- How the decoder of frames can answer: no other error arises from a frame. -/
theorem decode_cases (f : Frame) :
    (∃ i, decode f = .ok i) ∨ decode f = .error (.operandCount f.cmd) ∨ decode f = .error (.illegalCmd f.cmd) := by
  obtain ⟨cmd, ops⟩ := f
  simp only [decode, decodeOne]
  (repeat' split) <;> simp

section
variable {R : Type} [Inhabited R]

theorem presentBy_ok {run : Instr → State R → Result R} {f : Frame} {i : Instr} (h : decode f = .ok i) (s : State R) :
    presentBy run f s = run i s := by
  simp only [presentBy, h]

theorem presentBy_illegal {run : Instr → State R → Result R} {f : Frame} (h : decode f = .error (.illegalCmd f.cmd))
    (s : State R) : presentBy run f s = command f.cmd [(true, .illegalCmd)] .next s := by simp only [presentBy, h]

theorem presentBy_count {run : Instr → State R → Result R} {f : Frame} (h : decode f = .error (.operandCount f.cmd))
    (s : State R) :
    presentBy run f s = if s.phase = .fatal then .next s else .refused (.malformedFrame f.cmd) := by
  simp only [presentBy, h]
end

theorem present_ok {f : Frame} {i : Instr} (h : decode f = .ok i) (s : State) : present f s = exec i s :=
  presentBy_ok h s

theorem present_illegal {f : Frame} (h : decode f = .error (.illegalCmd f.cmd)) (s : State) :
    present f s = command f.cmd [(true, .illegalCmd)] .next s := presentBy_illegal h s

theorem present_count {f : Frame} (h : decode f = .error (.operandCount f.cmd)) (s : State) :
    present f s = if s.phase = .fatal then .next s else .refused (.malformedFrame f.cmd) := presentBy_count h s

theorem hostAct_frame (f : Frame) (s : State) : hostAct (.frame f) s = present f s := rfl
theorem hostAct_reset (s : State) : hostAct .reset s = .next (s.assertReset Config.num.zero) := rfl
theorem hostAct_writeBuf (len : Word) (vs : List C) (s : State) :
    hostAct (.writeBuf len vs) s = hostWriteBuf len vs s := rfl
theorem hostAct_readBuf (s : State) : hostAct .readBuf s = hostReadBuf s := rfl
theorem hostAct_readCsr (k : Fin 8) (s : State) : hostAct (.readCsr k) s = .next (hostReadCsr k s) := rfl

/-! One step. -/

theorem microOp_isNone_iff (p : Phase) : p.microOp = none ↔ p.busy = false := by cases p <;> decide

section
variable {R : Type}

/-- With nothing pending, nothing arrives. -/
theorem takeArrival_nil (p : Phase) : takeArrival p ([] : List (Arrival R)) = none := rfl

/-- In a rest phase nothing arrives. -/
theorem takeArrival_rest {p : Phase} (h : p.busy = false) (l : List (Arrival R)) : takeArrival p l = none := by
  have hi : p.invoking = false := by revert h; cases p <;> decide
  have hl : ∀ w : Arrival R, w.lands p = none := by
    intro w
    unfold Arrival.lands
    split <;> simp [hi, h]
  induction l with
  | nil => rfl
  | cons w l ih => simp [takeArrival, hl, ih]

/-- Letting the pending moves wait writes nothing but their queue. -/
@[simp] theorem State.passArrivals_eq (s : State R) :
    s.passArrivals = s.setArrivals (s.arrivals.map (Arrival.pass s.phase)) := rfl

/-- With nothing pending, nothing waits. -/
theorem passArrivals_nil {s : State R} (h : s.arrivals = []) : s.passArrivals = s := by
  cases s
  simp only at h
  subst h
  rfl

variable [Inhabited R] {run : Instr → State R → Result R} {zero : R} {s : State R}

theorem stepBy_arrival {a : HostAction R} {rest : List (Arrival R)}
    (h : takeArrival s.phase s.arrivals = some (a, rest)) :
    stepBy run zero s = hostActBy run zero a (s.setArrivals rest) := by
  simp only [stepBy, h]

theorem stepBy_micro {i : Instr} (h : takeArrival s.phase s.arrivals = none) (hi : s.phase.microOp = some i) :
    stepBy run zero s = run i s.passArrivals := by simp only [stepBy, h, advanceBy, hi]

theorem stepBy_act {a : HostAction R} {rest : List (ScriptLine R)} (h : s.phase.busy = false)
    (hs : s.script = .act a :: rest) : stepBy run zero s = hostActBy run zero a (s.setScript rest) := by
  simp only [stepBy, takeArrival_rest h, advanceBy, (microOp_isNone_iff _).mpr h, hs]

theorem stepBy_later {w : Arrival R} {rest : List (ScriptLine R)} (h : s.phase.busy = false)
    (hs : s.script = .later w :: rest) :
    stepBy run zero s = .next ((s.setScript rest).setArrivals (s.arrivals ++ [w])) := by
  simp only [stepBy, takeArrival_rest h, advanceBy, (microOp_isNone_iff _).mpr h, hs]

theorem stepBy_rest (h : s.phase.busy = false) (hs : s.script = []) : stepBy run zero s = .next s := by
  simp only [stepBy, takeArrival_rest h, advanceBy, (microOp_isNone_iff _).mpr h, hs]
end

theorem step_arrival {s : State} {a : HostAction} {rest : List Arrival}
    (h : takeArrival s.phase s.arrivals = some (a, rest)) : step s = hostAct a (s.setArrivals rest) := stepBy_arrival h

theorem step_micro {s : State} {i : Instr} (h : takeArrival s.phase s.arrivals = none)
    (hi : s.phase.microOp = some i) : step s = exec i s.passArrivals := stepBy_micro h hi

theorem step_host {s : State} {a : HostAction} {rest : List ScriptLine} (h : s.phase.busy = false)
    (hs : s.script = .act a :: rest) : step s = hostAct a (s.setScript rest) := stepBy_act h hs

theorem step_later {s : State} {w : Arrival} {rest : List ScriptLine} (h : s.phase.busy = false)
    (hs : s.script = .later w :: rest) : step s = .next ((s.setScript rest).setArrivals (s.arrivals ++ [w])) :=
  stepBy_later h hs

theorem step_rest {s : State} (h : s.phase.busy = false) (hs : s.script = []) : step s = .next s := stepBy_rest h hs

/-- Everything a step can be: an arrival, a micro-operation, the host's next action, an announcement, or nothing left to
do. -/
theorem step_cases (s : State) :
    (∃ a rest, s.phase.busy = true ∧ takeArrival s.phase s.arrivals = some (a, rest) ∧ nextAction s = some a ∧
      step s = hostAct a (s.setArrivals rest)) ∨
    (∃ i, s.phase.busy = true ∧ nextAction s = none ∧ s.phase.microOp = some i ∧ step s = exec i s.passArrivals) ∨
    (∃ a rest, s.phase.busy = false ∧ s.script = .act a :: rest ∧ nextAction s = some a ∧
      step s = hostAct a (s.setScript rest)) ∨
    (∃ w rest, s.phase.busy = false ∧ s.script = .later w :: rest ∧ nextAction s = none ∧
      step s = .next ((s.setScript rest).setArrivals (s.arrivals ++ [w]))) ∨
    (s.phase.busy = false ∧ s.script = [] ∧ nextAction s = none ∧ step s = .next s) := by
  cases hb : s.phase.busy with
  | false =>
    have ha := takeArrival_rest hb s.arrivals
    cases hs : s.script with
    | nil => exact .inr (.inr (.inr (.inr ⟨rfl, rfl, by simp [nextAction, ha, hb, hs], step_rest hb hs⟩)))
    | cons line rest =>
      cases line with
      | act a => exact .inr (.inr (.inl ⟨a, rest, rfl, rfl, by simp [nextAction, ha, hb, hs], step_host hb hs⟩))
      | later w =>
        exact .inr (.inr (.inr (.inl ⟨w, rest, rfl, rfl, by simp [nextAction, ha, hb, hs], step_later hb hs⟩)))
  | true =>
    cases ha : takeArrival s.phase s.arrivals with
    | some p => exact .inl ⟨p.1, p.2, rfl, rfl, by simp [nextAction, ha], step_arrival ha⟩
    | none =>
      cases hm : s.phase.microOp with
      | none => rw [(microOp_isNone_iff _).mp hm] at hb; cases hb
      | some i => exact .inr (.inl ⟨i, rfl, by simp [nextAction, ha, hb], rfl, step_micro ha hm⟩)

/-! Runs. -/

theorem run_zero (M : Host.Core) (s : M.State) : Host.Core.run M 0 s = .next s := rfl

theorem run_succ {M : Host.Core} {s t : M.State} (k : Nat) (h : M.step s = .next t) :
    Host.Core.run M (k + 1) s = Host.Core.run M k t := by
  simp only [Host.Core.run, h]

/-- One undisturbed micro-operation of a run of the fixed machine. -/
theorem run_micro {s t : State} {i : Instr} (k : Nat) (h : s.arrivals = []) (hi : s.phase.microOp = some i)
    (he : exec i s = .next t) : Host.Core.run Sys2Proof.core (k + 1) s = Host.Core.run Sys2Proof.core k t :=
  run_succ k (show step s = .next t by rw [step_micro (by rw [h]; rfl) hi, passArrivals_nil h, he])

/-- One undisturbed micro-operation of a run of an instance. -/
theorem run_micro_on {R T : Type} [Inhabited R] {p : Params R T} {s t : State R} {i : Instr} (k : Nat)
    (h : s.arrivals = []) (hi : s.phase.microOp = some i) (he : execOn p i s = .next t) :
    Host.Core.run (coreOn p) (k + 1) s = Host.Core.run (coreOn p) k t :=
  run_succ k (show stepOn p s = .next t by
    rw [stepOn, stepBy_micro (by rw [h]; rfl) hi, passArrivals_nil h, he])

/-! The terms of Safety. -/

/-- A fatal stop is as Safety says it. -/
theorem raiseFatal_stoppedAt (code : FatalCode) (cmd : Byte) (s : State) :
    StoppedAt code cmd s (raiseFatal code cmd s) :=
  ⟨rfl, rfl, rfl, raiseFatal_guard _ _ _⟩

/-- Storing a whole array in a space. -/
theorem store_samples (s : State) (sp : Space) {n : Nat} (v : Vector C n) :
    SameRegisters s (s.store sp 0 (samples v)) ∧ SameQueues s (s.store sp 0 (samples v)) ∧
    SameSpacesBut [sp] s (s.store sp 0 (samples v)) ∧
    (∀ i (h : i < n), ((s.store sp 0 (samples v)).space sp).read i = some v[i]) ∧
    ∀ i, n ≤ i → ((s.store sp 0 (samples v)).space sp).read i = (s.space sp).read i := by
  refine ⟨by simp [SameRegisters, State.store], by simp [SameQueues, State.store], ?_, ?_, ?_⟩
  · intro tp h i
    simp only [List.mem_singleton] at h
    simp [State.space_store, h]
  · intro i h
    simp [State.space_store, read_writeFrom_samples, h]
  · intro i h
    have : ¬ i < n := by omega
    simp [State.space_store, read_writeFrom_samples, this]

theorem space_xTable (s : State) : s.space s.xTable = xOf s := by
  unfold State.xTable xOf; cases s.kind <;> rfl

theorem space_wTable (s : State) : s.space s.wTable = wOf s := by
  unfold State.wTable wOf; cases s.kind <;> rfl

/-- A range of a space can be read, or a read of it faults at an element that holds no value. -/
theorem range_cases (s : State) (sp : Space) (n : Nat) :
    (holds (s.space sp) n ∧ ∃ v, (s.space sp).readRange n = .ok v) ∨
    (¬ holds (s.space sp) n ∧ ∃ i, i < n ∧ (s.space sp).read i = none ∧
      ∀ k, withRange s sp n k = .fault (.noValue sp i)) := by
  by_cases h : holds (s.space sp) n
  · exact .inl ⟨h, readRange_total h⟩
  · refine .inr ⟨h, ?_⟩
    cases hr : (s.space sp).readRange n with
    | ok v => exact absurd (fun i hi => by rw [(readRange_ok_iff _ _ _).mp hr i hi]; rfl) h
    | error i =>
      obtain ⟨h1, h2⟩ := readRange_error hr
      exact ⟨i, h1, h2, fun k => by simp [withRange, hr]⟩

/-! Inversion: what frames, host actions and micro-operations can do. -/

/-- What a presented frame can do: nothing (in FATAL), stop the engine, write RESULT, or start a command. -/
def FrameEffect (f : Frame) (s t : State) : Prop :=
  (s.phase = .fatal ∧ t = s) ∨ (s.phase ≠ .fatal ∧ ∃ code, code ≠ .noStop ∧ t = raiseFatal code f.cmd s) ∨
  (s.phase ≠ .fatal ∧ ∃ w, t = s.setResult w) ∨
  (s.phase = .uncon ∧ s.guard = false ∧ ∃ n : Word, 1 ≤ n.toNat ∧ n.toNat ≤ Config.nMax ∧
    t = (s.setSizes n (BitVec.ofNat 32 (innerSize n.toNat))).begin .cXgen) ∨
  (s.phase ≠ .uncon ∧ s.phase ≠ .fatal ∧ s.guard = false ∧
    ∃ k, t = (s.setKind k (scale Config.num k s.sizeN)).begin .tMod)

theorem exec_frame_cases {f : Frame} {i : Instr} {s t : State} (hd : decode f = .ok i) (he : exec i s = .next t) :
    FrameEffect f s t := by
  rcases exec_frame hd with ⟨n,l,a,b,c,d,e,rfl,hc⟩ | ⟨rfl,hc⟩ | ⟨n,rfl,hc⟩ | ⟨k,w,_,hc,hx⟩
  · rw [exec_construct_next, ← hc] at he
    rcases command_cases f.cmd _ _ s with ⟨h, h'⟩ | ⟨h, c, hcc, h'⟩ | ⟨h, hcc, h'⟩ <;> rw [h'] at he <;> cases he
    · exact .inl ⟨h, rfl⟩
    · refine .inr (.inl ⟨h, _, ?_, rfl⟩)
      have := firstFailing_mem hcc; rintro rfl; simp [constructChecks] at this
    · rw [firstFailing_none_iff] at hcc
      simp [constructChecks] at hcc
      have hb : ¬ badSize n.toNat = true := by simp [hcc]
      rw [badSize_iff] at hb
      exact .inr (.inr (.inr (.inl ⟨hcc.2.1, hcc.1, n, by omega, by omega, rfl⟩)))
  · rw [exec_size, ← hc] at he
    rcases command_cases f.cmd _ _ s with ⟨h, h'⟩ | ⟨h, c, hcc, h'⟩ | ⟨h, hcc, h'⟩ <;> rw [h'] at he <;> cases he
    · exact .inl ⟨h, rfl⟩
    · refine .inr (.inl ⟨h, _, ?_, rfl⟩)
      have := firstFailing_mem hcc; rintro rfl; simp at this
    · exact .inr (.inr (.inl ⟨h, _, rfl⟩))
  · rw [exec_isize, ← hc] at he
    rcases command_cases f.cmd _ _ s with ⟨h, h'⟩ | ⟨h, c, hcc, h'⟩ | ⟨h, hcc, h'⟩ <;> rw [h'] at he <;> cases he
    · exact .inl ⟨h, rfl⟩
    · refine .inr (.inl ⟨h, _, ?_, rfl⟩)
      have := firstFailing_mem hcc; rintro rfl; simp at this
    · exact .inr (.inr (.inl ⟨h, _, rfl⟩))
  · rw [hx, xform] at he
    rcases command_cases f.cmd _ _ s with ⟨h, h'⟩ | ⟨h, c, hcc, h'⟩ | ⟨h, hcc, h'⟩ <;> rw [h'] at he <;> cases he
    · exact .inl ⟨h, rfl⟩
    · refine .inr (.inl ⟨h, _, ?_, rfl⟩)
      have := firstFailing_mem hcc; rintro rfl; simp [xformChecks] at this
    · rw [firstFailing_none_iff] at hcc
      simp [xformChecks] at hcc
      exact .inr (.inr (.inr (.inr ⟨hcc.2.1, h, hcc.1, k, rfl⟩)))

theorem present_cases {f : Frame} {s t : State} (he : present f s = .next t) :
    FrameEffect f s t := by
  rcases decode_cases f with ⟨i, hi⟩ | hi | hi
  · rw [present_ok hi] at he; exact exec_frame_cases hi he
  · rw [present_count hi] at he; split at he <;> cases he; exact .inl ⟨‹_›, rfl⟩
  · rw [present_illegal hi] at he
    by_cases h : s.phase = .fatal
    · rw [command_fatal h] at he; cases he; exact .inl ⟨h, rfl⟩
    · rw [command_stop h rfl] at he; cases he; exact .inr (.inl ⟨h, _, by simp, rfl⟩)

/-- What a host action can do: reset, a frame, or something that leaves the engine alone. -/
theorem hostAct_cases {a : HostAction} {s t : State} (he : hostAct a s = .next t) :
   (a = .reset ∧ t = s.assertReset Config.num.zero) ∨ (∃ f, a = .frame f ∧ present f s = .next t) ∨
   (a ≠ .reset ∧ SameEngine s t ∧ ((t.buf = s.buf) ∨ (s.guard = false ∧ t.buf.wf))) := by
  cases a with
  | frame f => exact .inr (.inl ⟨f, rfl, he⟩)
  | reset => rw [hostAct_reset] at he; cases he; exact .inl ⟨rfl, rfl⟩
  | writeBuf l v =>
    rw [hostAct_writeBuf, hostWriteBuf] at he
    split at he
    · cases he
    · split at he <;> cases he
      exact .inr (.inr ⟨by simp, by simp [SameEngine], .inr ⟨by rename_i h _; simpa using h, wf_writeFrom wf_nil _ _⟩⟩)
  | readBuf =>
      rw [hostAct_readBuf, hostReadBuf] at he
      split at he
      · cases he
      · split at he
        · cases he; exact .inr (.inr ⟨by simp, by simp [SameEngine], .inl rfl⟩)
        · obtain ⟨v, _, hk⟩ := withRange_next he; cases hk; exact .inr (.inr ⟨by simp, by simp [SameEngine], .inl rfl⟩)
  | readCsr k => rw [hostAct_readCsr] at he; cases he; exact .inr (.inr ⟨by simp, by simp [SameEngine, hostReadCsr], .inl rfl⟩)

/-- What a micro-operation can do to the registers: nothing but the move of PHASE, or completion; of HOST's queues only
the counter of free values may move. -/
theorem micro_cases {s t : State} {i : Instr} (hm : s.phase.microOp = some i) (he : exec i s = .next t) :
    ∃ s', SameRegisters s s' ∧ (∃ j, SameQueues (s.draw j) s') ∧ s'.phase = s.phase ∧ s'.guard = s.guard ∧
    ((t = s'.complete ∧ (s.phase = .cWfwdI ∨ s.phase = .tDemod)) ∨
      (∃ p, t = s'.setPhase p ∧ (s.phase, p) ∈ advances ∧ p ≠ .idle)) := by
  have none : ∀ {s' : State}, SameQueues s s' → ∃ j, SameQueues (s.draw j) s' := fun h => ⟨0, h⟩
  have pass : ∀ {sp vs p}, (s.phase, p) ∈ advances → p ≠ .idle → ∃ s', SameRegisters s s' ∧
      (∃ j, SameQueues (s.draw j) s') ∧ s'.phase = s.phase ∧ s'.guard = s.guard ∧
      (((s.store sp 0 vs).setPhase p = s'.complete ∧ (s.phase = .cWfwdI ∨ s.phase = .tDemod)) ∨
        (∃ q, (s.store sp 0 vs).setPhase p = s'.setPhase q ∧ (s.phase, q) ∈ advances ∧ q ≠ .idle)) :=
    fun hp hq => ⟨s.store _ 0 _, by simp [SameRegisters, State.store], none (by simp [SameQueues, State.store]),
      by simp, by simp, .inr ⟨_, rfl, hp, hq⟩⟩
  have drawn : ∀ {sp vs j p}, (s.phase, p) ∈ advances → p ≠ .idle → ∃ s', SameRegisters s s' ∧
      (∃ j, SameQueues (s.draw j) s') ∧ s'.phase = s.phase ∧ s'.guard = s.guard ∧
      ((((s.store sp 0 vs).draw j).setPhase p = s'.complete ∧ (s.phase = .cWfwdI ∨ s.phase = .tDemod)) ∨
        (∃ q, ((s.store sp 0 vs).draw j).setPhase p = s'.setPhase q ∧ (s.phase, q) ∈ advances ∧ q ≠ .idle)) :=
    fun {_ _ j _} hp hq => ⟨(s.store _ 0 _).draw j, by simp [SameRegisters, State.store],
      ⟨j, by simp [SameQueues, State.store]⟩, by simp, by simp, .inr ⟨_, rfl, hp, hq⟩⟩
  cases hp : s.phase <;> rw [hp] at hm <;> cases hm <;> rw [hp] at pass drawn
  · cases he
    exact ⟨_, by simp [SameRegisters, State.store], none (by simp [SameQueues, State.store]), by simp [hp], by simp,
      .inr ⟨_, rfl, by decide, by decide⟩⟩
  · cases he
    exact ⟨_, by simp [SameRegisters, State.store], none (by simp [SameQueues, State.store]), by simp [hp], by simp,
      .inr ⟨_, rfl, by decide, by decide⟩⟩
  · rw [exec_wfwdF] at he
    obtain ⟨_, _, _, rfl⟩ := invoke_next he
    exact drawn (by decide) (by decide)
  · rw [exec_wfwdI] at he
    obtain ⟨_, j, _, rfl⟩ := invoke_next he
    exact ⟨(s.store _ 0 _).draw j, by simp [SameRegisters, State.store], ⟨j, by simp [SameQueues, State.store]⟩,
      by simp [hp], by simp, .inl ⟨rfl, .inl rfl⟩⟩
  · rw [exec_mod, modulateBuf] at he
    obtain ⟨_, _, hk⟩ := withRange_next he
    obtain ⟨_, _, hk⟩ := withRange_next hk
    cases hk
    exact pass (by decide) (by decide)
  · cases he
    exact ⟨_, by simp [SameRegisters, State.store], none (by simp [SameQueues, State.store]), by simp [hp], by simp,
      .inr ⟨_, rfl, by decide, by decide⟩⟩
  · rw [exec_ifwd] at he
    obtain ⟨_, _, _, rfl⟩ := invoke_next he
    exact drawn (by decide) (by decide)
  · rw [exec_fmul, multiplyScr] at he
    obtain ⟨_, _, hk⟩ := withRange_next he
    obtain ⟨_, _, hk⟩ := withRange_next hk
    cases hk
    exact pass (by decide) (by decide)
  · rw [exec_iinv] at he
    obtain ⟨_, _, _, rfl⟩ := invoke_next he
    exact drawn (by decide) (by decide)
  · rw [exec_demod, demodulateScr] at he
    obtain ⟨_, _, hk⟩ := withRange_next he
    obtain ⟨_, _, hk⟩ := withRange_next hk
    cases hk
    exact ⟨_, by simp [SameRegisters, State.store], none (by simp [SameQueues, State.store]), by simp [hp], by simp,
      .inl ⟨rfl, .inr rfl⟩⟩

end Sys2Proof.Machine
end

