-- ==== Sys2Proof/Tests/Slice0.lean ====
section
/-! SUPPORT. The model's own tests: expected results are the spec's (95_test_vectors, cited as V<n>), and for each
statement with hypotheses a state and operands that meet them. -/

namespace Sys2Proof.Tests

open Machine Safety

/-! Helpers. -/

def z0 : C := ⟨⟨0⟩, ⟨0⟩⟩
def cells (n : Nat) : Memory RealScalar := (List.range n).map fun i => (i, z0)

/-- An engine of size `n`, inner size `m`, in phase `p`, with every element of every space written. -/
def engine (n m : Word) (p : Phase) (g : Bool) : State :=
  { State.reset with
    n := n, m := m, phase := p, guard := g, sizesHeld := true, kindHeld := true, scale := Config.num.one,
    xf := cells n.toNat, xi := cells n.toNat, wf := cells m.toNat, wi := cells m.toNat, scr := cells m.toNat,
    buf := cells n.toNat, bufLen := n }

/-- The capability of length 1 and the buffer an engine of size 1 hands to it. -/
def unit : Inner RealScalar := capabilityOf 1#32
def unitBuf : Vector C unit.L := Vector.replicate _ z0

/-- What a test looks at in a next state. -/
def after {α : Type} (r : Result) (f : State → α) : Option α :=
  match r with
  | .next t => some (f t)
  | _ => none

def stopView (t : State) : BitVec 8 × BitVec 4 × Byte := (t.status, t.fcode.code, t.fcmd)
def phaseView (t : State) : Phase × Bool := (t.phase, t.guard)

/-! Well-formedness: each check refuses an ill-formed term. -/

theorem test_frame_operands : (Frame.wellFormed ⟨0x10#8, [1#32]⟩, Frame.wellFormed ⟨0x20#8, [0#32]⟩,
    Frame.wellFormed ⟨0x30#8, []⟩, Frame.wellFormed ⟨0x40#8, [1#32, 2#32]⟩) = (false, false, false, false) := by decide
theorem test_frame_ok : (Frame.wellFormed ⟨0x20#8, []⟩, Frame.wellFormed ⟨0x33#8, [7#32]⟩) = (true, true) := by decide
theorem test_frame_illegal : (Frame.legal ⟨0x00#8, []⟩, Frame.legal ⟨0x38#8, []⟩, Frame.legal ⟨0x34#8, []⟩) =
    (false, false, true) := by decide
theorem test_code_refused : (Code.wellFormed (.u 5#4), Code.wellFormed (.u 12#4), Code.wellFormed (.h ⟨0x35#8, [4#32]⟩),
    Code.wellFormed (.h ⟨0x20#8, [4#32]⟩), Code.wellFormed (.u 11#4)) = (false, false, false, false, true) := by decide

/-! Decoding: V9, R64, and the frames of the programs P1 to P6. -/

theorem test_decode_construct : decode ⟨0b00010000#8, [5#32, 16#32, 15#32, 14#32, 4#32, 3#32, 13#32]⟩ =
    .ok (.construct 5#32 16#32 15#32 14#32 4#32 3#32 13#32) := by rfl
theorem test_decode_size : decode ⟨0b00100000#8, []⟩ = .ok .size := by rfl
theorem test_decode_xform : [0b00110000#8, 0b00110001#8, 0b00110010#8, 0b00110011#8, 0b00110100#8].map
    (fun c => (decode ⟨c, [4#32]⟩).toOption) = [some (.xformFft 4#32), some (.xformIfft 4#32), some (.xformUifft 4#32),
      some (.xformSfft 4#32), some (.xformSifft 4#32)] := by decide
theorem test_decode_isize : decode ⟨0b01000000#8, [0x80000000#32]⟩ = .ok (.isize 0x80000000#32) := by rfl
theorem test_decode_illegal : [0x00#8, 0x11#8, 0x21#8, 0x35#8, 0x36#8, 0x37#8, 0x38#8, 0x3C#8, 0x44#8, 0x50#8, 0xF0#8,
    0xFF#8].map Cmd.operandWords = List.replicate 12 none := by decide
theorem test_decode_micro : (List.range 16).map (fun c => (decodeMicro (BitVec.ofNat 4 c)).toOption) =
    [none, some .xgen, some .wgen, some .wfwdF, some .wfwdI, none, some .mod, some .zpad, some .ifwd, some .fmul,
      some .iinv, some .demod, none, none, none, none] := by decide
theorem test_table_words : [(8, 0x10), (8, 0x20), (8, 0x34), (8, 0x40), (8, 1), (8, 11)].map
    (fun p => decodeTableWord p.1 p.2) = [some (.construct 0 0 0 0 0 0 0), some .size, some (.xformSifft 0),
      some (.isize 0), some .xgen, some .demod] := by decide
theorem test_table_words_long : decodeTableWord 40 0x0000000530 = some (.xformFft 5#32) := by decide
theorem test_fetch : after (step (State.reset.withFetchWord 8 0x40)) stopView = some (0x4F#8, 4#4, 0x40#8) := by decide
theorem test_fetch_micro : after (step (State.reset.withFetchWord 8 7)) (fun t => t.phase) = some .tIfwd := by decide

/-! Primitives over exact integers: V1, V2, V3, V7, V10, R66. -/

def intNum : Num Int where
  zero := 0
  one := 1
  add a b := a + b
  sub a b := a - b
  mul a b := a * b
  neg a := -a
  div a b := a / b
  sqrt a := a
  ofNat n := n
  ofF64 _ := 0

theorem test_cmul : [cmul intNum ⟨1, 2⟩ ⟨3, 4⟩, cmul intNum ⟨0, 1⟩ ⟨0, 1⟩, cmul intNum ⟨2, 5⟩ ⟨1, -2⟩,
    cmul intNum ⟨-3, -2⟩ ⟨0, -1⟩] = [⟨-5, 10⟩, ⟨-1, 0⟩, ⟨12, 1⟩, ⟨-2, 3⟩] := by decide
theorem test_conj_rscale : (conj intNum ⟨0, 1⟩, rscale intNum ⟨3, 2⟩ 1, rscale intNum ⟨2, -4⟩ 4) =
    (⟨0, -1⟩, ⟨3, 2⟩, ⟨8, -16⟩) := by decide
theorem test_innerSize : [1, 2, 3, 4, 5, 6, 7, 8, 9, 12, 13, 16, 17, 32, 33].map innerSize =
    [1, 4, 8, 8, 16, 16, 16, 16, 32, 32, 32, 32, 64, 64, 128] := by decide
theorem test_innerSize_top : innerSize 1073741824 = 2147483648 := by decide
theorem test_widx_4 : (List.range 8).map (widx 4 8) =
    [some 0, some 1, some 4, some 9, none, some 9, some 4, some 1] := by decide
theorem test_widx_small : (widx 1 1 0, (List.range 4).map (widx 2 4)) = (some 0, [some 0, some 1, none, some 1]) := by
  decide
theorem test_direction : [Kind.fft, .ifft, .uifft, .sfft, .sifft].map (fun k => (k.code, isForward k, scaleClass k)) =
    [(0, true, .one), (1, false, .invN), (2, false, .one), (3, true, .invSqrtN), (4, false, .invSqrtN)] := by decide

/-! The passes over exact integers: the trace V21. -/

theorem test_modulate : modulate intNum #v[⟨1, 0⟩, ⟨0, -1⟩] #v[⟨1, 2⟩, ⟨3, -1⟩] = #v[⟨1, 2⟩, ⟨-1, -3⟩] := by decide
theorem test_freqMultiply : freqMultiply intNum #v[⟨0, -1⟩, ⟨-2, 3⟩, ⟨2, 5⟩, ⟨4, 1⟩]
    #v[⟨1, 2⟩, ⟨1, 0⟩, ⟨1, -2⟩, ⟨1, 0⟩] = #v[⟨2, -1⟩, ⟨-2, 3⟩, ⟨12, 1⟩, ⟨4, 1⟩] := by decide
theorem test_demodulate : demodulate intNum #v[⟨4, 1⟩, ⟨-3, -2⟩] #v[⟨1, 0⟩, ⟨0, -1⟩] 1 = #v[⟨4, 1⟩, ⟨-2, 3⟩] := by
  decide

/-! Rounded instances: V5, V6, V8, and R82 for NaN, infinite and negative operands. -/

theorem test_f64_cmul : cmul numF64 ⟨0x3FB999999999999A#64, 0x3FC999999999999A#64⟩ ⟨0x3FD3333333333333#64, 0x3FD999999999999A#64⟩ =
    ⟨0xBFA999999999999C#64, 0x3FB999999999999A#64⟩ := by decide +kernel
theorem test_f64_scale : [scale numF64 .ifft 3, scale numF64 .sfft 3, scale numF64 .sfft 2, scale numF64 .ifft 5,
    scale numF64 .sifft 4, scale numF64 .uifft 4] = [0x3FD5555555555555#64, 0x3FE279A74590331D#64,
      0x3FE6A09E667F3BCC#64, 0x3FC999999999999A#64, 0x3FE0000000000000#64, 0x3FF0000000000000#64] := by
  decide +kernel
theorem test_f64_theta : [theta (trig64 numF64 id id) 1 4, theta (trig64 numF64 id id) 9 4,
    theta (trig64 numF64 id id) (-4) 5, theta (trig64 numF64 id id) 16 5] = [0x3FE921FB54442D18#64,
      0x401C463ABECCB2BB#64, 0xC0041B2F769CF0E0#64, 0x40241B2F769CF0E0#64] := by
  decide +kernel
theorem test_f64_mul_one : [0xFFF8000000000123#64, 0xFFF0000000000000#64, 0x8000000000000001#64, 0x7FF0000000000001#64].map
    (fun a => (numF64.mul a numF64.one, binary64.signalling a.toNat)) = [(0xFFF8000000000123#64, false),
      (0xFFF0000000000000#64, false), (0x8000000000000001#64, false), (0x7FF8000000000001#64, true)] := by decide +kernel
theorem test_f64_mul_zero : numF64.mul 0x7FF0000000000000#64 numF64.zero = 0x7FF8000000000000#64 ∧
    numF64.mul 0xBFF0000000000000#64 numF64.zero = 0x8000000000000000#64 := by decide +kernel
theorem test_f32_convert : numF32.ofF64 0x3FE6A09E667F3BCD#64 = 0x3F3504F3#32 := by decide +kernel

/-! One step of each command: V15, V16, V27, V28. -/

theorem test_construct : after (exec (.construct 5 16 16 16 5 5 16) State.reset) (fun t => (t.n, t.m, t.status)) =
    some (5#32, 16#32, 0x11#8) := by decide
theorem test_construct_checks : [Instr.construct 5 8 8 8 5 4 8, .construct 5 32 32 32 5 5 32,
    .construct 5 16 16 16 5 4 16, .construct 0 1 1 1 0 0 1, .construct 1073741825 1 1 1 1 1 1].map
    (fun i => after (exec i State.reset) fun t => t.fcode.code) = [some 2#4, some 2#4, some 1#4, some 4#4, some 4#4] := by
  decide
theorem test_construct_twice : after (exec (.construct 0 1 1 1 0 0 1) (engine 4 8 .idle false)) stopView =
    some (0x4F#8, 6#4, 0x10#8) := by decide
theorem test_size : after (exec .size (engine 4 8 .tIfwd true)) (fun t => (t.result, t.phase, t.guard)) =
    some (4#32, .tIfwd, true) := by decide
theorem test_size_uncon : after (exec .size State.reset) stopView = some (0x4F#8, 5#4, 0x20#8) := by decide
theorem test_isize : [1#32, 2#32, 4#32, 5#32, 8#32, 9#32, 1073741824#32].map (fun n =>
    after (exec (.isize n) State.reset) fun t => t.result) = [some 1#32, some 4#32, some 8#32, some 16#32, some 16#32,
      some 32#32, some 2147483648#32] := by decide
theorem test_isize_bad : [0#32, 1073741825#32].map (fun n => after (exec (.isize n) (engine 4 8 .tMod true)) stopView) =
    [some (0x5F#8, 4#4, 0x40#8), some (0x5F#8, 4#4, 0x40#8)] := by decide
theorem test_xform_kinds : [Instr.xformFft 5, .xformIfft 5, .xformUifft 5, .xformSfft 5, .xformSifft 5].map
    (fun i => after (exec i (engine 5 16 .idle false)) fun t => (t.kind, t.status)) = [some (.fft, 0x16#8),
      some (.ifft, 0x16#8), some (.uifft, 0x16#8), some (.sfft, 0x16#8), some (.sifft, 0x16#8)] := by decide
theorem test_xform_length : [Instr.xformFft 4, .xformSifft 6].map (fun i =>
    after (exec i (engine 5 16 .idle false)) stopView) = [some (0x4F#8, 1#4, 0x30#8), some (0x4F#8, 1#4, 0x34#8)] := by
  decide
theorem test_xform_order : (after (exec (.xformFft 9) State.reset) (fun t => t.fcode.code),
    after (exec (.xformFft 4) (engine 4 8 .tIfwd true)) stopView) = (some 5#4, some (0x5F#8, 3#4, 0x30#8)) := by decide
theorem test_nested_illegal : after (present ⟨0x38#8, [4#32]⟩ (engine 4 8 .tIinv true)) stopView =
    some (0x5F#8, 7#4, 0x38#8) := by decide
theorem test_fatal_ignores : after (exec .size (raiseFatal .reentrant 0x30#8 (engine 4 8 .idle false)))
    (fun t => (t.result, t.fcode, t.fcmd)) = some (0#32, .reentrant, 0x30#8) := by decide

/-! One step of each micro-operation: R64, R110 to R115, R151 to R156. -/

theorem test_micro_phases : [(Instr.xgen, Phase.cXgen), (.wgen, .cWgen), (.wfwdF, .cWfwdF), (.wfwdI, .cWfwdI),
    (.mod, .tMod), (.zpad, .tZpad), (.ifwd, .tIfwd), (.fmul, .tFmul), (.iinv, .tIinv), (.demod, .tDemod)].map
    (fun p => after (exec p.1 (engine 2 4 p.2 true)) phaseView) = [some (.cWgen, true), some (.cWfwdF, true),
      some (.cWfwdI, true), some (.idle, false), some (.tZpad, true), some (.tIfwd, true), some (.tFmul, true),
      some (.tIinv, true), some (.tDemod, true), some (.idle, false)] := by decide
theorem test_xgen : after (exec .xgen (engine 4 8 .cXgen true)) (fun t => t.xi.read 3) =
    some (some (halfTwiddle Config.trig (-9) 4)) := by rfl
theorem test_wgen : after (exec .wgen (engine 4 8 .cWgen true)) (fun t => (t.wi.read 4, t.wi.read 5)) =
    some (some (czero Config.num), some (halfTwiddle Config.trig 9 4)) := by rfl
theorem test_wfwdF : after (exec .wfwdF (engine 1 1 .cWfwdF true)) (fun t => t.wf.read 0) =
    some (some (unit.fwd unitBuf)[0]) := by rfl
theorem test_wfwdI : after (exec .wfwdI (engine 1 1 .cWfwdI true)) (fun t => t.wi.read 0) =
    some (some (unit.fwd unitBuf)[0]) := by rfl
theorem test_mod : after (exec .mod (engine 1 1 .tMod true)) (fun t => t.scr.read 0) =
    some (some (cmul Config.num z0 z0)) := by rfl
theorem test_mod_unwritten : exec .mod { engine 2 4 .tMod true with buf := cells 1 } = .fault (.noValue .buf 1) := by rfl
theorem test_zpad : after (exec .zpad (engine 2 4 .tZpad true)) (fun t => (t.scr.read 1, t.scr.read 2, t.scr.read 3)) =
    some (some z0, some (czero Config.num), some (czero Config.num)) := by rfl
theorem test_ifwd : after (exec .ifwd (engine 1 1 .tIfwd true)) (fun t => t.scr.read 0) =
    some (some (unit.fwd unitBuf)[0]) := by rfl
theorem test_fmul : after (exec .fmul (engine 1 1 .tFmul true)) (fun t => t.scr.read 0) =
    some (some (cmul Config.num z0 z0)) := by rfl
theorem test_iinv : after (exec .iinv (engine 1 1 .tIinv true)) (fun t => t.scr.read 0) =
    some (some (unit.inv unitBuf)[0]) := by rfl
theorem test_demod : after (exec .demod (engine 1 1 .tDemod true)) (fun t => t.buf.read 0) =
    some (some (rscale Config.num (cmul Config.num z0 z0) Config.num.one)) := by rfl

/-! The host's side: V29, V30, the write of BUF, and which action moves. -/

theorem test_status : [Phase.uncon, .cXgen, .cWgen, .cWfwdF, .cWfwdI, .idle, .tMod, .tZpad, .tIfwd, .tFmul, .tIinv,
    .tDemod, .fatal].map (fun p => (engine 1 1 p p.busy).status) = [0x00#8, 0x11#8, 0x12#8, 0x13#8, 0x14#8, 0x25#8,
      0x16#8, 0x17#8, 0x18#8, 0x19#8, 0x1A#8, 0x1B#8, 0x4F#8] := by decide
theorem test_reset : after (hostAct .reset (raiseFatal .reentrant 0x30#8 (engine 4 8 .tIfwd true)))
    (fun t => (stopView t, t.xf.length, t.scr.length)) =
    some ((0x00#8, 0#4, 0x00#8), 0, 0) := by decide
theorem test_buf_guarded : (hostAct (.writeBuf 1 [z0]) (engine 1 1 .tMod true), hostAct .readBuf (engine 1 1 .tMod true)) =
    (.refused .hostBufWhileGuarded, .refused .hostBufWhileGuarded) := by rfl
theorem test_buf_malformed : hostAct (.writeBuf 2 [z0]) State.reset = .refused .malformedWriteBuf := by rfl
theorem test_frame_malformed : present ⟨0x10#8, [4#32]⟩ State.reset = .refused (.malformedFrame 0x10#8) := by rfl
theorem test_nest_waits : after (step { engine 1 1 .tMod true with arrivals := [.inner 0 ⟨0x20#8, []⟩] })
    (fun t => (t.phase, t.result)) = some (.tZpad, 0#32) := by decide
theorem test_nest_lands : after (step { engine 1 1 .tIfwd true with arrivals := [.inner 0 ⟨0x20#8, []⟩] })
    (fun t => (t.phase, t.result, t.arrivals)) = some (.tIfwd, 1#32, []) := by decide
theorem test_nest_counts : after (step { engine 1 1 .tIfwd true with arrivals := [.inner 1 ⟨0x20#8, []⟩] })
    (fun t => (t.phase, t.arrivals)) = some (.tFmul, [.inner 0 ⟨0x20#8, []⟩]) := by decide
theorem test_nest_iinv : after (step { engine 1 1 .tIinv true with arrivals := [.inner 0 ⟨0x30#8, [1#32]⟩] }) stopView =
    some (0x5F#8, 3#4, 0x30#8) := by decide
theorem test_host_counts : after (step { engine 1 1 .tMod true with arrivals := [.host 1 (.readCsr 0)] })
    (fun t => (t.phase, t.arrivals, t.reads.length)) = some (.tZpad, [.host 0 (.readCsr 0)], 0) := by decide
theorem test_host_reads_busy : after (step { engine 1 1 .tMod true with arrivals := [.host 0 (.readCsr 0)] })
    (fun t => (t.phase, t.reads)) = some (.tMod, [.csr (.status 0x16#8)]) := by decide
theorem test_script_later : after (step { engine 1 1 .idle false with script := [.later (.host 8 .reset)] })
    (fun t => (t.phase, t.script, t.arrivals)) = some (.idle, [], [.host 8 .reset]) := by decide
theorem test_false_length : construct 32 5 16 16 16 5 5 16 State.reset = .refused .falseInnerLength := by rfl
theorem test_true_length : after (construct 16 5 16 16 16 5 5 16 State.reset) phaseView = some (.cXgen, true) := by decide
theorem test_pseudo : (pseudoConstruct 5#32, pseudoXform .sfft (engine 5 16 .idle false)) =
    (.construct 5 16 16 16 5 5 16, .xformSfft 5) := by decide

/-! For each statement with hypotheses, what meets them; each clause at the ends of its range. -/

theorem within_cells (v : C) : within ([(0, v)] : Memory RealScalar) 1 := by
  intro i h
  by_contra hc
  have : i ≠ 0 := by omega
  simp [Memory.read, this] at h
theorem holds_cells (v : C) : holds ([(0, v)] : Memory RealScalar) 1 := by
  intro i h
  have : i = 0 := by omega
  subst this
  rfl

/-- An engine of size 1 in any phase from C_XGEN to T_DEMOD meets the invariant. -/
theorem inv_engine (p : Phase) (h : sized p = true) : EngineInv (engine 1 1 p p.busy) := by
  refine ⟨fun sp => by cases sp <;> exact List.pairwise_singleton _ _, fun _ => rfl, ⟨fun _ => ⟨rfl, rfl⟩, fun hp => ?_⟩,
    fun _ => ⟨Nat.le_refl 1, (by decide : 1 ≤ Config.nMax), rfl, rfl⟩, ⟨fun _ => ?_, fun hp => ?_⟩, ?_, fun _ => ⟨rfl, rfl⟩⟩
  · have hp : p = .fatal := hp
    subst hp
    cases h
  · exact ⟨within_cells _, within_cells _, within_cells _, within_cells _, within_cells _⟩
  · have hp : p = .uncon := hp
    subst hp
    cases h
  · exact ⟨fun _ => ⟨holds_cells _, holds_cells _⟩, fun _ => ⟨holds_cells _, holds_cells _⟩, fun _ => holds_cells _,
      fun _ => holds_cells _⟩

theorem inv_reset : EngineInv State.reset := by
  refine ⟨fun sp => by cases sp <;> decide, fun _ => rfl, ⟨fun _ => ⟨rfl, rfl⟩, ?_⟩, ?_, ⟨?_, fun _ => ?_⟩, ⟨?_, ?_, ?_, ?_⟩, ?_⟩
  rotate_left 3
  · exact ⟨nofun, nofun, nofun, nofun, nofun⟩
  all_goals exact nofun

theorem witness_IllegalCommandBytes : decode ⟨0x00#8, []⟩ = .error (.illegalCmd 0x00#8) ∧ State.reset.phase ≠ .fatal ∧
    decode ⟨0x0F#8, []⟩ = .error (.illegalCmd 0x0F#8) ∧ decode ⟨0x50#8, []⟩ = .error (.illegalCmd 0x50#8) ∧
    decode ⟨0x48#8, []⟩ = .error (.illegalCmd 0x48#8) ∧ decode ⟨0x37#8, []⟩ = .error (.illegalCmd 0x37#8) :=
  ⟨rfl, by decide, rfl, rfl, rfl, rfl⟩
theorem witness_ConstructAccepted : State.reset.phase = .uncon ∧ State.reset.guard = false ∧
    (1 ≤ (1#32).toNat ∧ (1#32).toNat ≤ Config.nMax ∧ (1#32).toNat = innerSize (1#32).toNat) ∧
    (0x40000000#32).toNat ≤ Config.nMax ∧ (0x80000000#32).toNat = innerSize (0x40000000#32).toNat := by decide
theorem witness_ConstructStopsInOrder : (engine 1 1 .tMod true).phase ≠ .fatal ∧ (engine 1 1 .tMod true).guard = true ∧
    (engine 1 1 .idle false).guard = false ∧ (engine 1 1 .idle false).phase ≠ .uncon ∧ State.reset.guard = false ∧
    State.reset.phase = .uncon ∧ (0#32).toNat = 0 ∧ Config.nMax < (0x40000001#32).toNat ∧
    (2#32).toNat ≠ innerSize (1#32).toNat ∧ (1#32).toNat = innerSize (1#32).toNat := by decide
theorem witness_SizeReturnsN : State.reset.phase = .uncon ∧ (engine 1 1 .cXgen true).phase ≠ .uncon ∧
    (engine 1 1 .cXgen true).phase ≠ .fatal ∧ (engine 1 1 .fatal false).phase = .fatal := by decide
theorem witness_IsizeReturnsInnerSize : State.reset.phase ≠ .fatal ∧ 1 ≤ (1#32).toNat ∧ (0x40000000#32).toNat ≤ 2 ^ 30 ∧
    (0#32).toNat = 0 ∧ 2 ^ 30 < (0x40000001#32).toNat := by decide
theorem witness_XformAccepted : (engine 5 16 .idle false).phase = .idle ∧ (engine 5 16 .idle false).guard = false := by
  decide
theorem witness_XformStopsInOrder : (engine 5 16 .tMod true).guard = true ∧ (engine 5 16 .tMod true).phase ≠ .fatal ∧
    State.reset.guard = false ∧ State.reset.phase = .uncon ∧ (engine 5 16 .idle false).guard = false ∧
    (engine 5 16 .idle false).phase ≠ .uncon ∧ 4#32 ≠ (engine 5 16 .idle false).n ∧
    5#32 = (engine 5 16 .idle false).n := by decide
theorem witness_CommandFrames : decode ⟨0x40#8, [5#32]⟩ = .ok (.isize 5#32) ∧
    after (exec (.isize 5#32) State.reset) (fun t => t.result) = some 16#32 := ⟨rfl, by decide⟩
theorem witness_WgenFillsTables : 2 * (engine 2 4 .cWgen true).n.toNat - 1 ≤ (engine 2 4 .cWgen true).m.toNat ∧
    (1 < 2 ∧ 1 < 4) ∧ (4 - 2 < 3 ∧ 3 < 4) ∧ (2 ≤ 2 ∧ 2 ≤ 4 - 2 ∧ 2 < 4) ∧ 4 ≤ 4 := by decide
theorem unit_index {i : Nat} (h : i < unit.L) : i = 0 := by
  have : unit.L = 1 := by decide
  omega
theorem witness_TableTransforms : (engine 1 1 .cWfwdF true).m.toNat = (engine 1 1 .cWfwdF true).attached.L ∧
    ∀ i (h : i < unit.L), (engine 1 1 .cWfwdF true).wf.read i = some unitBuf[i] ∧
      (engine 1 1 .cWfwdI true).wi.read i = some unitBuf[i] := by
  refine ⟨by decide, fun i h => ?_⟩
  obtain rfl := unit_index h
  exact ⟨rfl, rfl⟩
theorem witness_ConstructBuildsTables :
    let s := { State.reset with script := [.act (.frame ⟨0x10#8, [1#32, 1#32, 1#32, 1#32, 1#32, 1#32, 1#32]⟩)] }
    s.phase = .uncon ∧ s.guard = false ∧ s.arrivals = [] ∧ 1 ≤ (1#32).toNat ∧ (1#32).toNat ≤ Config.nMax ∧
      (1#32).toNat = innerSize (1#32).toNat ∧ s.script = .act (.frame ⟨0x10#8, [1#32, 1#32, 1#32, 1#32, 1#32, 1#32, 1#32]⟩) :: [] :=
  ⟨rfl, rfl, rfl, by decide, by decide, by decide, rfl⟩
theorem witness_ModulatorProducts : (∀ i (h : i < 1), (xOf (engine 1 1 .tMod true)).read i = some (#v[z0] : Vector C 1)[i] ∧
    (engine 1 1 .tMod true).buf.read i = some (#v[z0] : Vector C 1)[i]) ∧
    (let s := { engine 1 1 .tMod true with buf := [] };
      holds (xOf s) s.n.toNat ∧ 0 < s.n.toNat ∧ s.buf.read 0 = none ∧ holds s.buf 0) := by
  refine ⟨fun i h => ?_, holds_cells _, by decide, rfl, nofun⟩
  have : i = 0 := by omega
  subst this
  exact ⟨rfl, rfl⟩
theorem witness_ZeroPadding : (2 ≤ 2 ∧ 2 < 4) ∧ (1 < 2 ∨ 4 ≤ 1) ∧ (4 < 2 ∨ 4 ≤ 4) := by decide
theorem witness_ScratchTransforms : (engine 1 1 .tIfwd true).m.toNat = (engine 1 1 .tIfwd true).attached.L ∧
    ∀ i (h : i < unit.L), (engine 1 1 .tIfwd true).scr.read i = some unitBuf[i] := by
  refine ⟨by decide, fun i h => ?_⟩
  obtain rfl := unit_index h
  rfl
theorem witness_FrequencyMultiplier : ∀ i (h : i < 1), (engine 1 1 .tFmul true).scr.read i = some (#v[z0] : Vector C 1)[i] ∧
    (wOf (engine 1 1 .tFmul true)).read i = some (#v[z0] : Vector C 1)[i] := by
  intro i h
  have : i = 0 := by omega
  subst this
  exact ⟨rfl, rfl⟩
theorem witness_DemodulatorAndScaler : ∀ i (h : i < 1), (engine 1 1 .tDemod true).scr.read i = some (#v[z0] : Vector C 1)[i] ∧
    (xOf (engine 1 1 .tDemod true)).read i = some (#v[z0] : Vector C 1)[i] := by
  intro i h
  have : i = 0 := by omega
  subst this
  exact ⟨rfl, rfl⟩
/-- IFWD with SCR written, and with SCR not written: each clause at `M = L = 1`, and the first at `M = 3`, no power of
two (log 31). -/
theorem witness_MicroOpsFaultOnlyOnNoValue :
    (∀ m ∈ [1#32, 3#32], ∀ q ∈ [(Space.scr, m.toNat)], holds ((engine 1 m .tIfwd true).space q.1) q.2) ∧
    (engine 1 3 .tIfwd true).m.toNat ≠ (engine 1 3 .tIfwd true).attached.L ∧
    let s := { engine 1 1 .tIfwd true with scr := [] }
    ∃ q ∈ [(Space.scr, s.m.toNat)], ¬ holds (s.space q.1) q.2 := by
  refine ⟨fun m hm q hq => ?_, by decide, (.scr, 1), by decide, fun h => by have := h 0 (by decide); cases this⟩
  obtain rfl := List.mem_singleton.mp hq
  obtain rfl | rfl : m = 1#32 ∨ m = 3#32 := by simpa using hm
  · exact holds_cells _
  · have h : ∀ i < 3, ((cells 3).read i).isSome := by decide
    exact h
theorem witness_XformBigStep :
    let s := { engine 1 1 .idle false with script := [.act (.frame ⟨0x30#8, [1#32]⟩)] }
    s.n.toNat ≤ s.attached.L ∧ s.m.toNat = s.attached.L ∧ s.phase = .idle ∧ s.guard = false ∧ s.arrivals = [] ∧
      s.script = .act (.frame ⟨0x30#8, [s.n]⟩) :: [] ∧
      (∀ i (h : i < 1), s.buf.read i = some (#v[z0] : Vector C 1)[i] ∧ s.xf.read i = some (#v[z0] : Vector C 1)[i]) ∧
      ∀ i (h : i < unit.L), s.wf.read i = some unitBuf[i] := by
  refine ⟨by decide, by decide, rfl, rfl, rfl, rfl, fun i h => ?_, fun i h => ?_⟩
  · have : i = 0 := by omega
    subst this
    exact ⟨rfl, rfl⟩
  · obtain rfl := unit_index h
    rfl
theorem witness_TransformsAreIndependent :
    let s := engine 1 1 .idle false
    let s' := { engine 1 1 .idle false with kind := .sfft, result := 7#32 }
    EngineInv s ∧ EngineInv s' ∧ s.phase = .idle ∧ s'.phase = .idle ∧ s.arrivals = [] ∧ s'.arrivals = [] ∧ s.n = s'.n ∧
      s.xf = s'.xf ∧ s.xi = s'.xi ∧ s.wf = s'.wf ∧ s.wi = s'.wi ∧ s.buf = s'.buf ∧ holds s.buf s.n.toNat := by
  have h := inv_engine .idle rfl
  refine ⟨h, ?_, rfl, rfl, rfl, rfl, rfl, rfl, rfl, rfl, rfl, rfl, holds_cells _⟩
  obtain ⟨h1, h2, h3, h4, h5, h6, _⟩ := h
  exact ⟨fun sp => h1 sp, h2, h3, h4, h5, h6, nofun⟩
theorem witness_NestedFrames : (engine 4 8 .tIfwd true).phase.busy = true ∧ (engine 4 8 .tIfwd true).guard = true ∧
    decode ⟨0x30#8, [4#32]⟩ = .ok (.xformFft 4#32) ∧ 1 ≤ (1#32).toNat ∧ (0x40000000#32).toNat ≤ Config.nMax ∧
    (0#32).toNat = 0 ∧ Config.nMax < (0x40000001#32).toNat ∧ decode ⟨0x38#8, [4#32]⟩ = .error (.illegalCmd 0x38#8) :=
  ⟨rfl, rfl, rfl, by decide, by decide, rfl, by decide, rfl⟩
theorem witness_FatalStopFrame : State.reset.phase ≠ .fatal ∧
    after (present ⟨0x00#8, []⟩ State.reset) (fun t => t.phase) = some .fatal ∧
    (engine 1 1 .cWfwdF true).phase ≠ .fatal ∧ spoiled (engine 1 1 .cWfwdF true) = [.scr, .buf, .wf] ∧
    after (present ⟨0x30#8, [1#32]⟩ (engine 1 1 .cWfwdF true)) (fun t => (t.phase, t.guard, t.draws)) =
      some (.fatal, true, 3) := by decide
theorem witness_FatalIsSticky : (engine 4 8 .fatal false).phase = .fatal ∧
    nextAction { engine 4 8 .fatal false with script := [.act .reset] } = some .reset := by decide
theorem witness_ResetValues : Space.xf ≠ .buf := by decide
theorem witness_StatusValues : EngineInv (engine 1 1 .tMod true) ∧ EngineInv State.reset :=
  ⟨inv_engine .tMod rfl, inv_reset⟩
theorem witness_StatusPortReads : (engine 4 8 .idle false).sizesHeld = true ∧ (engine 4 8 .idle false).kindHeld = true ∧
    (engine 4 8 .idle false).phase ≠ .fatal ∧ { engine 4 8 .idle false with resultHeld := true }.resultHeld = true := by
  decide
theorem witness_HostOwnsBuf : ([z0] : List C).length = (1#32).toNat ∧ (engine 1 1 .idle false).guard = false ∧
    (engine 1 1 .idle false).phase ≠ .fatal ∧ (engine 1 1 .tMod true).guard = true := by decide
theorem witness_StepRunsDecoded :
    takeArrival (engine 1 1 .tMod true).phase (engine 1 1 .tMod true).arrivals = none ∧
    decodeMicro (engine 1 1 .tMod true).phase.code = .ok .mod ∧ State.reset.phase.busy = false ∧
    decode ⟨0x20#8, []⟩ = .ok .size ∧ State.reset.script = [] ∧
    takeArrival .tMod [(.host 0 (.frame ⟨0x20#8, []⟩) : Arrival)] = some (.frame ⟨0x20#8, []⟩, []) ∧
    { State.reset with script := [.later (.host 1 .reset)] }.script = .later (.host 1 .reset) :: [] :=
  ⟨rfl, rfl, rfl, rfl, rfl, rfl, rfl⟩
theorem witness_ArrivalsWaitForTheirMoment : (engine 1 1 .tIinv true).phase.busy = true ∧
    { engine 1 1 .tIinv true with arrivals := [.inner 0 ⟨0x20#8, []⟩] }.arrivals = [.inner 0 ⟨0x20#8, []⟩] ∧
    (engine 1 1 .tIinv true).phase ∈ [Phase.cWfwdF, .cWfwdI, .tIfwd, .tIinv] ∧
    decodeMicro (engine 1 1 .tIinv true).phase.code = .ok .iinv ∧
    (engine 1 1 .tDemod true).phase ∉ [Phase.cWfwdF, .cWfwdI, .tIfwd, .tIinv] ∧
    decodeMicro (engine 1 1 .tDemod true).phase.code = .ok .demod := ⟨rfl, rfl, by decide, rfl, by decide, rfl⟩
theorem witness_PhaseTransitions : GuardMatchesPhase (engine 1 1 .tZpad true) ∧
    after (step (engine 1 1 .tZpad true)) (fun t => t.phase) = some .tIfwd ∧
    nextAction { engine 1 1 .idle false with script := [.act .reset] } = some .reset := ⟨fun _ => rfl, by decide, rfl⟩
theorem witness_EveryStepKeepsTheInvariant : EngineInv (engine 1 1 .tMod true) ∧
    after (step (engine 1 1 .tMod true)) (fun t => t.phase) = some .tZpad := ⟨inv_engine .tMod rfl, by decide⟩
theorem witness_OnlyBufCanBeUnwritten :
    let s := { engine 1 1 .tMod true with buf := [] }
    let s' := { State.reset with bufLen := 1#32, script := [.act .readBuf] }
    EngineInv s ∧ step s = .fault (.noValue .buf 0) ∧ EngineInv s' ∧ nextAction s' = some .readBuf ∧
      step s' = .fault (.noValue .buf 0) := by
  obtain ⟨h1, h2, h3, h4, h5, h6, h7⟩ := inv_engine .tMod rfl
  obtain ⟨i1, i2, i3, i4, i5, i6, i7⟩ := inv_reset
  exact ⟨⟨fun sp => by cases sp <;> decide, h2, h3, h4, h5, h6, h7⟩, rfl, ⟨fun sp => i1 sp, i2, i3, i4, i5, i6, i7⟩, rfl, rfl⟩
theorem witness_TablesAreImmutable : (engine 1 1 .idle false).phase = .idle ∧
    after (step (engine 1 1 .idle false)) (fun t => t.phase) = some .idle ∧
    (engine 1 1 .tZpad true).phase.transforming = true ∧
    after (step (engine 1 1 .tZpad true)) (fun t => t.phase) = some .tIfwd ∧
    nextAction (engine 1 1 .tZpad true) ≠ some .reset ∧
    after (hostAct (.readCsr 0) (engine 1 1 .idle false)) (fun t => t.reads.length) = some 1 := by decide
theorem witness_AttachedLengthIsM : EngineInv (engine 1 1 .idle false) ∧ sized (engine 1 1 .idle false).phase = true ∧
    (0x80000000#32).toNat = 2 ^ 31 ∧ (1#32).toNat = 2 ^ 0 := ⟨inv_engine .idle rfl, rfl, by decide, by decide⟩
theorem witness_FixedMachineIsAnInstance : (engine 1 1 .idle false).phase ≠ .uncon := by decide
theorem witness_CauseWrittenOnce : after (step (engine 1 1 .tZpad true)) (fun t => t.fcode) = some .noStop ∧
    nextAction (engine 1 1 .tZpad true) ≠ some .reset := by decide
theorem witness_ElementOrderIsUnobservable : (cells 2).wf ∧ [0, 1].Perm [1, 0] := by decide
theorem witness_InnerSizeProperties : 1 ≤ 1 ∧ 1 ≤ Config.nMax ∧ 2 ≤ 2 ∧ 1 ≤ Config.nMax ∧ Config.nMax ≤ Config.nMax := by
  decide
theorem witness_IndexPartition : (1 ≤ 2 ∧ 2 * 2 - 1 ≤ 4) ∧ 1 < 2 ∧ 4 - 2 < 3 ∧ (2 ≤ 2 ∧ 2 ≤ 4 - 2) := by decide
theorem witness_WTablesAreEven : (2 ≤ 2 ∧ 2 ≤ Config.nMax ∧ 1 ≤ 1 ∧ 1 ≤ 2 - 1) ∧
    (2 ≤ 5 ∧ 5 ≤ Config.nMax ∧ 5 ≤ 6 ∧ 6 ≤ innerSize 5 - 5 ∧ 6 < innerSize 5) := by decide
theorem witness_ScaleFactors : Ideal.UnitConversions Ideal.numReal :=
  ⟨by simp [Ideal.numReal], (Ideal.numReal_sqrt zero_le_one).trans Real.sqrt_one,
    (Ideal.numReal_div one_ne_zero).trans (div_one 1)⟩
theorem witness_RoundedInstanceProperties : binary64.unpack (0x3FF0000000000000#64).toNat ≠ .nan ∧
    binary32.unpack (0x3F800000#32).toNat ≠ .nan ∧ binary64.signalling (0xFFF8000000000123#64).toNat = false ∧
    binary32.signalling (0x7FC00000#32).toNat = false := by decide +kernel
theorem witness_IdealXTables : Ideal.HtIdeal Ideal.trigReal := by
  intro k n h
  rw [Ideal.halfTwiddle_trigReal k h, Ideal.cis_eq]
  simp [Ideal.toComplex, mul_comm]
theorem witness_ReferenceCapability : 1 ≤ 1 := by decide

/-- A length-1 capability that is the identity in both directions (R163). -/
noncomputable def identityOps : InnerOps ℝ 1 := ⟨fun z => z, fun z => z, 1⟩
noncomputable def identityInner : Inner ℝ := ⟨0, identityOps⟩

theorem witness_TransformIsTheDFT : 1 ≤ 1 ∧ 2 * 1 - 1 ≤ 1 ∧ Ideal.ConvThm identityOps ∧ Ideal.InvFwd identityOps 1 := by
  refine ⟨le_refl 1, le_refl 1, fun a b k => ?_, fun z k => by simp [identityOps]⟩
  have : k = 0 := Subsingleton.elim _ _
  subst this
  apply Complex.ext <;> simp [identityOps, Ideal.cyclicConv, Ideal.ofComplex, Ideal.toComplex]
theorem witness_RelationsBetweenKinds : 1 ≤ 1 ∧ 2 * 1 - 1 ≤ 1 ∧ Ideal.ConvThm identityOps ∧ Ideal.InvFwd identityOps 1 :=
  witness_TransformIsTheDFT
theorem witness_UnitaryKindsPreserveEnergy : 1 ≤ 1 ∧ 2 * 1 - 1 ≤ 1 ∧ Ideal.ConvThm identityOps ∧
    Ideal.InvFwd identityOps 1 := witness_TransformIsTheDFT
theorem witness_LengthOneIsIdentity : (∀ z, identityOps.fwd z = z) ∧ ∀ z, identityOps.inv z = z :=
  ⟨fun _ => rfl, fun _ => rfl⟩
theorem witness_IdealMeetsTheBounds : Ideal.ConvThm identityInner.ops ∧ Ideal.InvFwd identityInner.ops 1 ∧
    Ideal.AcceptsExact (⟨fun _ _ _ => true, fun _ _ => true⟩ : Tol ℝ) ∧ 1 ∈ [1, 5, 6, 12, 13] ∧ innerSize 1 = identityInner.L ∧
    1 ≤ identityInner.L :=
  ⟨witness_TransformIsTheDFT.2.2.1, witness_TransformIsTheDFT.2.2.2, fun _ _ _ => ⟨rfl, rfl⟩, by decide, by decide,
    by decide⟩
theorem witness_IdealMachineComputesTheDFT : 1 ≤ (1#32).toNat ∧ (1#32).toNat ≤ Config.nMax ∧
    innerSize (1#32).toNat = identityInner.L ∧ (1#32).toNat = identityInner.L ∧ Ideal.ConvThm identityInner.ops ∧
    Ideal.InvFwd identityInner.ops 1 :=
  ⟨by decide, by decide, by decide, by decide, witness_TransformIsTheDFT.2.2.1, witness_TransformIsTheDFT.2.2.2⟩
/-- A capability of length 2, which no engine of size 1 takes. -/
noncomputable def longerInner : Inner ℝ := ⟨1, Ideal.innerDFT 2⟩
theorem witness_ConstructTakesTheCapabilitysLength : (State.initial (0 : ℝ)).phase = .uncon ∧
    (State.initial (0 : ℝ)).guard = false ∧ 1 ≤ (1#32).toNat ∧ (1#32).toNat ≤ Config.nMax ∧
    (1#32).toNat = innerSize (1#32).toNat ∧ (1#32).toNat = identityInner.L ∧ (1#32).toNat ≠ longerInner.L :=
  ⟨rfl, rfl, by decide, by decide, by decide, by decide, by decide⟩

end Sys2Proof.Tests
end

section
/-! The steps of the phase machine with moves pending (R5, R22, R191), and the fixed machine as the
generic one with its own parameters (R6). -/

namespace Sys2Proof.Proofs

open Machine Safety

/-! Which phases are invocation phases, and what they select. -/

theorem invoking_iff_mem (p : Phase) : p.invoking = true ↔ p ∈ [Phase.cWfwdF, .cWfwdI, .tIfwd, .tIinv] := by
  cases p <;> decide

theorem microOp_of_decodeMicro {p : Phase} {i : Instr} (h : decodeMicro p.code = .ok i) : p.microOp = some i := by
  rw [Phase.microOp, h]
  rfl

/-! One pending move: it lands, or it waits while the micro-operation runs. -/

section
variable {R : Type}

theorem takeArrival_of_lands {p : Phase} {w : Arrival R} {a : HostAction R} (h : w.lands p = some a) :
    takeArrival p [w] = some (a, []) := by
  simp only [takeArrival, h]

theorem takeArrival_of_waits {p : Phase} {w : Arrival R} (h : w.lands p = none) : takeArrival p [w] = none := by
  simp only [takeArrival, h]

theorem inner_lands {p : Phase} {f : Frame} :
    (Arrival.inner 0 f : Arrival R).lands p = if p.invoking then some (.frame f) else none := rfl

theorem inner_waits_outside_invocation {p : Phase} (h : p.invoking = false) (k : Nat) (f : Frame) :
    (Arrival.inner k f : Arrival R).lands p = none ∧ (Arrival.inner k f : Arrival R).pass p = .inner k f := by
  cases k with
  | zero => exact ⟨by rw [inner_lands, h]; rfl, rfl⟩
  | succ k => exact ⟨rfl, by simp [Arrival.pass, h]⟩

theorem setArrivals_eq_self {s : State R} {l : List (Arrival R)} (h : s.arrivals = l) : s.setArrivals l = s := by
  subst h
  rfl
end

/-- A pending move whose moment has come is made in this step. -/
theorem step_of_lands {s : State} {w : Arrival} {a : HostAction} (hw : s.arrivals = [w])
    (h : w.lands s.phase = some a) : step s = hostAct a (s.setArrivals []) :=
  step_arrival (by rw [hw]; exact takeArrival_of_lands h)

/-- While a pending move waits the micro-operation runs, and the move's wait is counted down. -/
theorem step_of_waits {s : State} {w w' : Arrival} {i : Instr} (hw : s.arrivals = [w]) (h : w.lands s.phase = none)
    (hp : w.pass s.phase = w') (hi : decodeMicro s.phase.code = .ok i) : step s = exec i (s.setArrivals [w']) := by
  rw [step_micro (by rw [hw]; exact takeArrival_of_waits h) (microOp_of_decodeMicro hi), State.passArrivals_eq, hw]
  simp [hp]

/-- Settles O52: an arrival lands or waits by `Arrival.lands`, and a wait is counted down by `Arrival.pass`. -/
theorem arrivalsWaitForTheirMoment : Obligations.ArrivalsWaitForTheirMoment := by
  intro s w hbusy hw
  refine ⟨?_, ?_, ?_, ?_, ?_⟩
  · rintro f rfl hp
    rw [← invoking_iff_mem] at hp
    exact step_of_lands hw (by rw [inner_lands, if_pos hp])
  · rintro f k i rfl hp hi
    rw [← invoking_iff_mem, Bool.not_eq_true] at hp
    obtain ⟨hlands, hpass⟩ := inner_waits_outside_invocation hp k f
    rw [step_of_waits hw hlands hpass hi, setArrivals_eq_self hw]
  · rintro f k i rfl hp hi
    rw [← invoking_iff_mem] at hp
    exact step_of_waits hw rfl (by simp [Arrival.pass, hp]) hi
  · rintro a rfl
    exact step_of_lands hw (by simp [Arrival.lands, hbusy])
  · rintro a k i rfl hi
    exact step_of_waits hw rfl rfl hi

/-! The fixed machine as the generic one with its own parameters. -/

section
variable {R : Type} [Inhabited R] {run run' : Instr → State R → Result R}

theorem hostActBy_congr {s : State R} (h : ∀ i, run i s = run' i s) (zero : R) (a : HostAction R) :
    hostActBy run zero a s = hostActBy run' zero a s := by
  cases a with
  | frame f => simp only [hostActBy, presentBy, h]
  | _ => rfl

/-- A step runs its instruction in a state that differs from the present one in a queue only. -/
theorem stepBy_congr {s : State R} (zero : R) (harr : ∀ i l, run i (s.setArrivals l) = run' i (s.setArrivals l))
    (hscr : ∀ i l, run i (s.setScript l) = run' i (s.setScript l)) : stepBy run zero s = stepBy run' zero s := by
  cases hb : takeArrival s.phase s.arrivals with
  | some p => rw [stepBy_arrival hb, stepBy_arrival hb, hostActBy_congr fun i => harr i p.2]
  | none =>
    cases hm : s.phase.microOp with
    | some i => rw [stepBy_micro hb hm, stepBy_micro hb hm, State.passArrivals_eq, harr]
    | none =>
      have hrest := (microOp_isNone_iff _).mp hm
      rcases hs : s.script with _ | ⟨a | w, rest⟩
      · rw [stepBy_rest hrest hs, stepBy_rest hrest hs]
      · rw [stepBy_act hrest hs, stepBy_act hrest hs, hostActBy_congr fun i => hscr i rest]
      · rw [stepBy_later hrest hs, stepBy_later hrest hs]

/-- Outside UNCON no CONSTRUCT is accepted, so what it does depends on no capability (R131, R195). -/
theorem construct_of_not_uncon {s : State R} (h : s.phase ≠ .uncon) (L L' : Nat) (n l a b c d e : Word) :
    construct L n l a b c d e s = construct L' n l a b c d e s := by
  by_cases hf : s.phase = .fatal
  · rw [construct, construct, command_fatal hf, command_fatal hf]
  · have hfails : firstFailing (constructChecks n l a b c d e s) ≠ none := fun hnone => by
      simpa [h] using
        (firstFailing_none_iff _).mp hnone (s.phase != .uncon, .alreadyConstructed) (by simp [constructChecks])
    obtain ⟨code, hc⟩ := Option.ne_none_iff_exists'.mp hfails
    rw [construct, construct, command_stop hf hc, command_stop hf hc]
end

/-- Outside UNCON every instruction finds the capability of length `M` attached. -/
theorem exec_eq_execOn_sizeM {s : State} (h : s.phase ≠ .uncon) (i : Instr) : exec i s = execOn (paramsOf s.m) i s := by
  cases i with
  | construct n l a b c d e => exact construct_of_not_uncon h _ _ n l a b c d e
  | _ => exact exec_eq_execOn _ s

/-- Settles O54. -/
theorem fixedMachineIsAnInstance : Obligations.FixedMachineIsAnInstance :=
  ⟨exec_eq_execOn, fun s h =>
    stepBy_congr Config.num.zero (fun i l => exec_eq_execOn_sizeM (s := s.setArrivals l) h i)
      fun i l => exec_eq_execOn_sizeM (s := s.setScript l) h i⟩

end Sys2Proof.Proofs
end

section
/-! A run of the generic machine: CONSTRUCT builds the tables (R132), WRBUF fills BUF, and an XFORM
leaves the big-step transform in BUF (R143), over any parameters. -/

namespace Sys2Proof.Machine

variable {R T : Type}

/-! The tables a kind uses (R137), so that both directions are one case. -/

/-- The x-table of a kind. -/
def kindXTable (num : Num R) (trig : Trig T R) (k : Kind) (n : Nat) : Vector (Sample R) n :=
  if isForward k then tableXf num trig n else tableXi trig n

/-- The w-table of a kind in the time domain. -/
def kindTimeW (num : Num R) (trig : Trig T R) (k : Kind) (n m : Nat) : Vector (Sample R) m :=
  if isForward k then timeWf num trig n m else timeWi num trig n m

theorem bluestein_eq_transformed (num : Num R) (trig : Trig T R) {n m : Nat} (inner : InnerOps R m) (k : Kind)
    (h : n ≤ m) (u : Vector (Sample R) n) :
    bluestein num trig inner k h u =
      transformed num inner h (kindXTable num trig k n) (inner.fwd (kindTimeW num trig k n m)) (scale num k n) u := by
  cases k <;> rfl

/-! Ranges read back after the passes that wrote them. -/

theorem readRange_writeFrom_samples (mem : Memory R) {n : Nat} (v : Vector (Sample R) n) :
    (mem.writeFrom 0 (samples v)).readRange n = .ok v :=
  (readRange_ok_iff _ _ _).mpr fun i h => by rw [read_writeFrom_samples, dif_pos h]

theorem readRange_writeFrom_map (mem : Memory R) (n : Nat) (f : Nat → Sample R) :
    (mem.writeFrom 0 ((List.range n).map f)).readRange n = .ok (Vector.ofFn fun i => f i) :=
  (readRange_ok_iff _ _ _).mpr fun i h => by rw [read_writeFrom_map, if_pos h]; simp

/-- A shorter range of a space that holds a whole array. -/
theorem readRange_ofFn_of_le {mem : Memory R} {m n : Nat} {v : Vector (Sample R) m} (h : n ≤ m)
    (hv : mem.readRange m = .ok v) :
    mem.readRange n = .ok (Vector.ofFn fun i => v[i.val]'(i.isLt.trans_le h)) :=
  (readRange_ok_iff _ _ _).mpr fun i hi => by
    rw [(readRange_ok_iff _ _ _).mp hv i (hi.trans_le h)]
    simp

/-- SCR after MOD and ZPAD holds the zero-padded products (R151, R152). -/
theorem readRange_padded (num : Num R) (mem : Memory R) {n m : Nat} (h : n ≤ m) (x u : Vector (Sample R) n) :
    ((mem.writeFrom 0 (samples (modulate num x u))).writeFrom n (List.replicate (m - n) (czero num))).readRange m =
      .ok (padded num m x u) :=
  (readRange_ok_iff _ _ _).mpr fun i hi => by
    rw [read_writeFrom_replicate, read_writeFrom_samples]
    by_cases hin : i < n
    · rw [if_neg (by omega), dif_pos hin]
      simp [padded, hin]
    · rw [if_pos (by omega)]
      simp [padded, hin]

/-! The micro-operations that read a space, when the ranges they read hold values. -/

theorem modulateBuf_ok {num : Num R} {s : State R} {n : Nat} {x u : Vector (Sample R) n} (hn : s.sizeN = n)
    (hx : (s.space s.xTable).readRange n = .ok x) (hu : s.buf.readRange n = .ok u) :
    modulateBuf num s = .next ((s.store .scr 0 (samples (modulate num x u))).setPhase .tZpad) := by
  subst hn
  rw [modulateBuf, withRange_ok hx, withRange_ok (sp := .buf) hu]

theorem multiplyScr_ok {num : Num R} {s : State R} {m : Nat} {b w : Vector (Sample R) m} (hm : s.sizeM = m)
    (hb : s.scr.readRange m = .ok b) (hw : (s.space s.wTable).readRange m = .ok w) :
    multiplyScr num s = .next ((s.store .scr 0 (samples (freqMultiply num b w))).setPhase .tIinv) := by
  subst hm
  rw [multiplyScr, withRange_ok (sp := .scr) hb, withRange_ok hw]

theorem demodulateScr_ok {num : Num R} {s : State R} {n : Nat} {e x : Vector (Sample R) n} (hn : s.sizeN = n)
    (he : s.scr.readRange n = .ok e) (hx : (s.space s.xTable).readRange n = .ok x) :
    demodulateScr num s = .next (s.store .buf 0 (samples (demodulate num e x s.scale))).complete := by
  subst hn
  rw [demodulateScr, withRange_ok (sp := .scr) he, withRange_ok hx]

/-! The states of a run. -/

/-- The engine with these tables, in this phase. -/
def State.withTables (s : State R) (xf xi wf wi : Memory R) (ph : Phase) : State R :=
  { s with xf := xf, xi := xi, wf := wf, wi := wi, phase := ph }

/-- The engine with this content of SCR, in this phase. -/
def State.withScr (s : State R) (scr : Memory R) (ph : Phase) : State R := { s with scr := scr, phase := ph }

theorem space_xTable_withScr (s : State R) (scr : Memory R) (ph : Phase) :
    (s.withScr scr ph).space (s.withScr scr ph).xTable = s.space s.xTable := by
  change (s.withScr scr ph).space (if isForward s.kind then .xf else .xi) =
    s.space (if isForward s.kind then .xf else .xi)
  split <;> rfl

theorem space_wTable_withScr (s : State R) (scr : Memory R) (ph : Phase) :
    (s.withScr scr ph).space (s.withScr scr ph).wTable = s.space s.wTable := by
  change (s.withScr scr ph).space (if isForward s.kind then .wf else .wi) =
    s.space (if isForward s.kind then .wf else .wi)
  split <;> rfl

/-- An idle engine of size `size` with its finished tables (R132). -/
structure TablesReady (p : Params R T) (size : Word) (s : State R) : Prop where
  phase : s.phase = .idle
  guard : s.guard = false
  arrivals : s.arrivals = []
  n : s.n = size
  sizeM : s.sizeM = p.inner.L
  xf : s.xf.readRange size.toNat = .ok (tableXf p.num p.trig size.toNat)
  xi : s.xi.readRange size.toNat = .ok (tableXi p.trig size.toNat)
  wf : s.wf.readRange p.inner.L = .ok (tableWf p.num p.trig p.inner.ops size.toNat)
  wi : s.wi.readRange p.inner.L = .ok (tableWi p.num p.trig p.inner.ops size.toNat)

/-- An accepted XFORM of a kind finds the tables that the kind's big-step meaning uses (R137). -/
theorem TablesReady.readRange_begin {p : Params R T} {size : Word} {s : State R} (h : TablesReady p size s)
    (rest : List (ScriptLine R)) (k : Kind) (x : R) :
    let t := ((s.setScript rest).setKind k x).begin .tMod
    (t.space t.xTable).readRange size.toNat = .ok (kindXTable p.num p.trig k size.toNat) ∧
    (t.space t.wTable).readRange p.inner.L =
      .ok (p.inner.fwd (kindTimeW p.num p.trig k size.toNat p.inner.L)) := by
  cases k
  case fft | sfft => exact ⟨h.xf, h.wf⟩
  case ifft | uifft | sifft => exact ⟨h.xi, h.wi⟩

variable [Inhabited R] {p : Params R T}

/-! The two commands, accepted. -/

theorem construct_accepted {L : Nat} {n l : Word} {s : State R} (hph : s.phase = .uncon) (hg : s.guard = false)
    (h1 : 1 ≤ n.toNat) (hmax : n.toNat ≤ Config.nMax) (hl : l.toNat = innerSize n.toNat) (hL : l.toNat = L) :
    construct L n l l l n n l s = .next ((s.setSizes n (BitVec.ofNat 32 (innerSize n.toNat))).begin .cXgen) := by
  have hsize : badSize n.toNat = false := by
    rw [← Bool.not_eq_true, badSize_iff]
    omega
  have hchecks : firstFailing (constructChecks n l l l n n l s) = none := by
    simp [firstFailing_none_iff, constructChecks, hph, hg, hsize, hl]
  rw [construct, command_accept (by simp [hph]) hchecks, if_pos hL]

theorem xform_accepted {num : Num R} {cmd : Byte} {k : Kind} {w : Word} {s : State R} (hph : s.phase = .idle)
    (hg : s.guard = false) (hw : w = s.n) :
    xform num cmd k w s = .next ((s.setKind k (scale num k s.sizeN)).begin .tMod) := by
  have hchecks : firstFailing (xformChecks w s) = none := by
    simp [firstFailing_none_iff, xformChecks, hph, hg, hw]
  rw [xform, command_accept (by simp [hph]) hchecks]

/-- The five XFORM commands are one operation, with their kind. -/
theorem decode_xform {k : Kind} {cmd : Byte}
    (h : (k, cmd) ∈ [(Kind.fft, 0x30#8), (.ifft, 0x31#8), (.uifft, 0x32#8), (.sfft, 0x33#8), (.sifft, 0x34#8)])
    (w : Word) :
    ∃ i, decode ⟨cmd, [w]⟩ = .ok i ∧ ∀ (p : Params R T) (s : State R), execOn p i s = xform p.num cmd k w s := by
  simp only [List.mem_cons, Prod.mk.injEq, List.not_mem_nil, or_false] at h
  rcases h with ⟨rfl, rfl⟩ | ⟨rfl, rfl⟩ | ⟨rfl, rfl⟩ | ⟨rfl, rfl⟩ | ⟨rfl, rfl⟩ <;> exact ⟨_, rfl, fun _ _ => rfl⟩

/-! Runs. -/

/-- One line of HOST's script, taken at rest, in a run of the generic machine. -/
theorem run_act_on {s t : State R} {a : HostAction R} {rest : List (ScriptLine R)} (k : Nat)
    (hrest : s.phase.busy = false) (hs : s.script = .act a :: rest)
    (he : hostActBy (execOn p) p.num.zero a (s.setScript rest) = .next t) :
    Host.Core.run (coreOn p) (k + 1) s = Host.Core.run (coreOn p) k t :=
  run_succ k (show stepOn p s = .next t by rw [stepOn, stepBy_act hrest hs, he])

/-! CONSTRUCT's micro-operations write the four tables only. -/

section
variable {s : State R} {xf xi wf wi : Memory R} {ph : Phase}

theorem run_withTables {i : Instr} {t : State R} (k : Nat) (ha : s.arrivals = [])
    (he : execOn p i (s.withTables xf xi wf wi ph) = .next t) (hi : ph.microOp = some i) :
    Host.Core.run (coreOn p) (k + 1) (s.withTables xf xi wf wi ph) = Host.Core.run (coreOn p) k t :=
  run_micro_on k ha hi he

theorem execOn_xgen :
    execOn p .xgen s =
      .next (s.withTables (s.xf.writeFrom 0 ((List.range s.sizeN).map (xfEntry p.num p.trig s.sizeN)))
        (s.xi.writeFrom 0 ((List.range s.sizeN).map (xiEntry p.trig s.sizeN))) s.wf s.wi .cWgen) := rfl

theorem execOn_wgen_withTables :
    execOn p .wgen (s.withTables xf xi wf wi .cWgen) =
      .next (s.withTables xf xi
        (wf.writeFrom 0 ((List.range s.sizeM).map (wfEntry p.num p.trig s.sizeN s.sizeM)))
        (wi.writeFrom 0 ((List.range s.sizeM).map (wiEntry p.num p.trig s.sizeN s.sizeM))) .cWfwdF) := rfl

theorem execOn_wfwdF_withTables {z : Vector (Sample R) p.inner.L} (hm : s.sizeM = p.inner.L)
    (hz : wf.readRange p.inner.L = .ok z) :
    execOn p .wfwdF (s.withTables xf xi wf wi .cWfwdF) =
      .next (s.withTables xf xi (wf.writeFrom 0 (samples (p.inner.fwd z))) wi .cWfwdI) :=
  invoke_ok (sp := .wf) (k := fun t => t.setPhase .cWfwdI) hm hz

theorem execOn_wfwdI_withTables {z : Vector (Sample R) p.inner.L} (hm : s.sizeM = p.inner.L)
    (hz : wi.readRange p.inner.L = .ok z) :
    execOn p .wfwdI (s.withTables xf xi wf wi .cWfwdI) =
      .next ((s.withTables xf xi wf (wi.writeFrom 0 (samples (p.inner.fwd z))) .idle).setGuard false) :=
  invoke_ok (sp := .wi) (k := State.complete) hm hz
end

/-- The four micro-operations of CONSTRUCT finish the tables (R110, R113, R114, R115). -/
theorem run_construct_microOps {s : State R} (k : Nat) (hph : s.phase = .cXgen) (ha : s.arrivals = [])
    (hm : s.sizeM = p.inner.L) :
    ∃ t, Host.Core.run (coreOn p) (k + 4) s = Host.Core.run (coreOn p) k t ∧ TablesReady p s.n t ∧
      t.script = s.script := by
  have htime : ∀ (mem : Memory R) (f : Nat → Nat → Nat → Sample R),
      (mem.writeFrom 0 ((List.range s.sizeM).map (f s.sizeN s.sizeM))).readRange p.inner.L =
        .ok (Vector.ofFn fun i => f s.sizeN p.inner.L i) := by
    intro mem f
    rw [hm]
    exact readRange_writeFrom_map mem _ _
  have hrun :=
    (run_micro_on (k + 3) ha (by rw [hph]; rfl) (execOn_xgen (p := p))).trans <|
    (run_withTables (k + 2) ha execOn_wgen_withTables rfl).trans <|
    (run_withTables (k + 1) ha (execOn_wfwdF_withTables hm (htime s.wf (wfEntry p.num p.trig))) rfl).trans <|
    run_withTables k ha (execOn_wfwdI_withTables hm (htime s.wi (wiEntry p.num p.trig))) rfl
  exact ⟨_, hrun,
    ⟨rfl, rfl, ha, rfl, hm, readRange_writeFrom_map _ _ _, readRange_writeFrom_map _ _ _,
      readRange_writeFrom_samples _ _, readRange_writeFrom_samples _ _⟩, rfl⟩

/-! XFORM's micro-operations write SCR, and the last one BUF. -/

section
variable {s : State R} {scr : Memory R} {ph : Phase} {n : Nat}

theorem run_withScr {i : Instr} {t : State R} (k : Nat) (ha : s.arrivals = [])
    (he : execOn p i (s.withScr scr ph) = .next t) (hi : ph.microOp = some i) :
    Host.Core.run (coreOn p) (k + 1) (s.withScr scr ph) = Host.Core.run (coreOn p) k t := run_micro_on k ha hi he

theorem execOn_mod {x u : Vector (Sample R) n} (hn : s.sizeN = n) (hx : (s.space s.xTable).readRange n = .ok x)
    (hu : s.buf.readRange n = .ok u) :
    execOn p .mod s = .next (s.withScr (s.scr.writeFrom 0 (samples (modulate p.num x u))) .tZpad) :=
  modulateBuf_ok hn hx hu

theorem execOn_zpad_withScr :
    execOn p .zpad (s.withScr scr .tZpad) =
      .next (s.withScr (scr.writeFrom s.sizeN (List.replicate (s.sizeM - s.sizeN) (czero p.num))) .tIfwd) := rfl

theorem execOn_ifwd_withScr {z : Vector (Sample R) p.inner.L} (hm : s.sizeM = p.inner.L)
    (hz : scr.readRange p.inner.L = .ok z) :
    execOn p .ifwd (s.withScr scr .tIfwd) = .next (s.withScr (scr.writeFrom 0 (samples (p.inner.fwd z))) .tFmul) :=
  invoke_ok (sp := .scr) (k := fun t => t.setPhase .tFmul) hm hz

theorem execOn_fmul_withScr {b w : Vector (Sample R) n} (hm : s.sizeM = n) (hb : scr.readRange n = .ok b)
    (hw : (s.space s.wTable).readRange n = .ok w) :
    execOn p .fmul (s.withScr scr .tFmul) =
      .next (s.withScr (scr.writeFrom 0 (samples (freqMultiply p.num b w))) .tIinv) :=
  multiplyScr_ok hm hb (by rwa [space_wTable_withScr])

theorem execOn_iinv_withScr {z : Vector (Sample R) p.inner.L} (hm : s.sizeM = p.inner.L)
    (hz : scr.readRange p.inner.L = .ok z) :
    execOn p .iinv (s.withScr scr .tIinv) = .next (s.withScr (scr.writeFrom 0 (samples (p.inner.inv z))) .tDemod) :=
  invoke_ok (sp := .scr) (k := fun t => t.setPhase .tDemod) hm hz

theorem execOn_demod_withScr {e x : Vector (Sample R) n} (hn : s.sizeN = n) (he : scr.readRange n = .ok e)
    (hx : (s.space s.xTable).readRange n = .ok x) :
    execOn p .demod (s.withScr scr .tDemod) =
      .next ((s.withScr scr .tDemod).store .buf 0 (samples (demodulate p.num e x s.scale))).complete :=
  demodulateScr_ok hn he (by rwa [space_xTable_withScr])
end

/-- The six micro-operations of an XFORM leave the big-step transform in BUF (R143). -/
theorem run_xform_microOps {s : State R} {n : Nat} {x u : Vector (Sample R) n} {w : Vector (Sample R) p.inner.L}
    (k : Nat) (hx : (s.space s.xTable).readRange n = .ok x) (hw : (s.space s.wTable).readRange p.inner.L = .ok w)
    (hu : s.buf.readRange n = .ok u) (hph : s.phase = .tMod) (ha : s.arrivals = []) (hn : s.sizeN = n)
    (hm : s.sizeM = p.inner.L) (hle : n ≤ p.inner.L) :
    ∃ t, Host.Core.run (coreOn p) (k + 6) s = Host.Core.run (coreOn p) k t ∧ t.phase = .idle ∧ t.guard = false ∧
      t.script = s.script ∧ t.buf.readRange n = .ok (transformed p.num p.inner.ops hle x w s.scale u) := by
  have hpad : ((s.scr.writeFrom 0 (samples (modulate p.num x u))).writeFrom s.sizeN
      (List.replicate (s.sizeM - s.sizeN) (czero p.num))).readRange p.inner.L = .ok (padded p.num p.inner.L x u) := by
    rw [hm, hn]
    exact readRange_padded p.num s.scr hle x u
  have hres : transformed p.num p.inner.ops hle x w s.scale u =
      demodulate p.num (Vector.ofFn fun i : Fin n => (convolved p.num p.inner.ops x w u)[i.val]) x s.scale := by
    simp [transformed, demodulate]
  have hrun :=
    (run_micro_on (k + 5) ha (by rw [hph]; rfl) (execOn_mod (p := p) hn hx hu)).trans <|
    (run_withScr (k + 4) ha execOn_zpad_withScr rfl).trans <|
    (run_withScr (k + 3) ha (execOn_ifwd_withScr hm hpad) rfl).trans <|
    (run_withScr (k + 2) ha (execOn_fmul_withScr hm (readRange_writeFrom_samples _ _) hw) rfl).trans <|
    (run_withScr (k + 1) ha (execOn_iinv_withScr hm (readRange_writeFrom_samples _ _)) rfl).trans <|
    run_withScr k ha (execOn_demod_withScr hn (readRange_ofFn_of_le hle (readRange_writeFrom_samples _ _)) hx) rfl
  rw [hres]
  exact ⟨_, hrun, rfl, rfl, rfl, readRange_writeFrom_samples _ _⟩

/-- CONSTRUCT in a run, from the moment HOST presents it (R131, R132). -/
theorem run_construct {s : State R} {n l : Word} {rest : List (ScriptLine R)} (k : Nat) (hph : s.phase = .uncon)
    (hg : s.guard = false) (ha : s.arrivals = []) (h1 : 1 ≤ n.toNat) (hmax : n.toNat ≤ Config.nMax)
    (hsize : innerSize n.toNat = p.inner.L) (hl : l.toNat = p.inner.L)
    (hs : s.script = .act (.frame ⟨0x10#8, [n, l, l, l, n, n, l]⟩) :: rest) :
    ∃ t, Host.Core.run (coreOn p) (k + 5) s = Host.Core.run (coreOn p) k t ∧ TablesReady p n t ∧ t.script = rest := by
  have haccept : hostActBy (execOn p) p.num.zero (.frame ⟨0x10#8, [n, l, l, l, n, n, l]⟩) (s.setScript rest) =
      .next (((s.setScript rest).setSizes n (BitVec.ofNat 32 (innerSize n.toNat))).begin .cXgen) :=
    construct_accepted hph hg h1 hmax (hl.trans hsize.symm) hl
  have hm : (BitVec.ofNat 32 (innerSize n.toNat)).toNat = p.inner.L := by
    rw [BitVec.toNat_ofNat, Nat.mod_eq_of_lt (innerSize_lt hmax), hsize]
  obtain ⟨t, hrun, hready, hscript⟩ := run_construct_microOps (p := p)
    (s := ((s.setScript rest).setSizes n (BitVec.ofNat 32 (innerSize n.toNat))).begin .cXgen) k rfl ha hm
  exact ⟨t, (run_act_on (k + 4) (by rw [hph]; rfl) hs haccept).trans hrun, hready, hscript⟩

/-- WRBUF in a run (R26, R69). -/
theorem run_writeBuf {s : State R} {n : Word} {u : Vector (Sample R) n.toNat} {rest : List (ScriptLine R)} (k : Nat)
    (h : TablesReady p n s) (hs : s.script = .act (.writeBuf n (samples u)) :: rest) :
    ∃ t, Host.Core.run (coreOn p) (k + 1) s = Host.Core.run (coreOn p) k t ∧ TablesReady p n t ∧ t.script = rest ∧
      t.buf.readRange n.toNat = .ok u := by
  have hwrite : hostActBy (execOn p) p.num.zero (.writeBuf n (samples u)) (s.setScript rest) =
      .next ((s.setScript rest).replaceBuf n (Memory.writeFrom [] 0 (samples u))) := by
    simp [hostActBy, hostWriteBuf, h.guard]
  exact ⟨_, run_act_on k (by rw [h.phase]; rfl) hs hwrite,
    ⟨h.phase, h.guard, h.arrivals, h.n, h.sizeM, h.xf, h.xi, h.wf, h.wi⟩, rfl, readRange_writeFrom_samples _ _⟩

/-- XFORM in a run, from the moment HOST presents it (R135, R143). -/
theorem run_xform {s : State R} {n : Word} {kind : Kind} {cmd : Byte} {u : Vector (Sample R) n.toNat}
    {rest : List (ScriptLine R)} (k : Nat) (h : TablesReady p n s) (hle : n.toNat ≤ p.inner.L)
    (hkind : (kind, cmd) ∈ [(Kind.fft, 0x30#8), (.ifft, 0x31#8), (.uifft, 0x32#8), (.sfft, 0x33#8), (.sifft, 0x34#8)])
    (hu : s.buf.readRange n.toNat = .ok u) (hs : s.script = .act (.frame ⟨cmd, [n]⟩) :: rest) :
    ∃ t, Host.Core.run (coreOn p) (k + 7) s = Host.Core.run (coreOn p) k t ∧ t.phase = .idle ∧ t.guard = false ∧
      t.script = rest ∧ t.buf.readRange n.toNat = .ok (bluestein p.num p.trig p.inner.ops kind hle u) := by
  obtain ⟨i, hdecode, hexec⟩ := decode_xform (R := R) (T := T) hkind n
  have hn : s.sizeN = n.toNat := congrArg BitVec.toNat h.n
  have haccept : hostActBy (execOn p) p.num.zero (.frame ⟨cmd, [n]⟩) (s.setScript rest) =
      .next (((s.setScript rest).setKind kind (scale p.num kind n.toNat)).begin .tMod) := by
    rw [← hn]
    exact (presentBy_ok hdecode _).trans ((hexec p _).trans (xform_accepted h.phase h.guard h.n.symm))
  obtain ⟨hx, hw⟩ := h.readRange_begin rest kind (scale p.num kind n.toNat)
  obtain ⟨t, hrun, ht⟩ := run_xform_microOps k hx hw hu rfl h.arrivals hn h.sizeM hle
  rw [bluestein_eq_transformed]
  exact ⟨t, (run_act_on (k + 6) (by rw [h.phase]; rfl) hs haccept).trans hrun, ht⟩

/-- From the state after reset a CONSTRUCT for the attached capability, a WRBUF of `u` and an XFORM leave the big-step
transform of `u` in BUF, thirteen steps on (R132, R143, R146). -/
theorem run_construct_writeBuf_xform {zero : R} {n l : Word} {kind : Kind} {cmd : Byte} (h1 : 1 ≤ n.toNat)
    (hmax : n.toNat ≤ Config.nMax) (hsize : innerSize n.toNat = p.inner.L) (hl : l.toNat = p.inner.L)
    (hle : n.toNat ≤ p.inner.L) (u : Vector (Sample R) n.toNat)
    (hkind : (kind, cmd) ∈
      [(Kind.fft, 0x30#8), (.ifft, 0x31#8), (.uifft, 0x32#8), (.sfft, 0x33#8), (.sifft, 0x34#8)]) :
    ∃ t, Host.Core.run (coreOn p) 13 ((State.initial zero).setScript [.act (.frame ⟨0x10#8, [n, l, l, l, n, n, l]⟩),
        .act (.writeBuf n (samples u)), .act (.frame ⟨cmd, [n]⟩)]) = .next t ∧ t.phase = .idle ∧ t.guard = false ∧
      t.script = [] ∧ t.buf.readRange n.toNat = .ok (bluestein p.num p.trig p.inner.ops kind hle u) := by
  obtain ⟨s1, hrun1, hready1, hscript1⟩ := run_construct (p := p) (s := (State.initial zero).setScript _) 8 rfl rfl rfl
    h1 hmax hsize hl rfl
  obtain ⟨s2, hrun2, hready2, hscript2, hbuf⟩ := run_writeBuf 7 hready1 hscript1
  obtain ⟨t, hrun3, ht⟩ := run_xform 0 hready2 hle hkind hbuf hscript2
  exact ⟨t, hrun1.trans (hrun2.trans hrun3), ht⟩

end Sys2Proof.Machine
end

section
/-! Bluestein's algorithm over the real numbers is the DFT (R144, R162): the chirp identity
`2*i*k = i^2 + k^2 - (k-i)^2` turns the DFT into a convolution, which `ConvThm` and `InvFwd(c)` evaluate. -/

namespace Sys2Proof.Ideal

open Machine

theorem toComplex_cmul (a b : Sample ℝ) : toComplex (cmul numReal a b) = toComplex a * toComplex b := by
  apply Complex.ext <;> simp [toComplex, cmul, numReal]

/-! Chirps. -/

/-- The chirp of kernel sign `sigma` at `t`. -/
noncomputable def chirp (sigma : ℝ) (n : Nat) (t : ℝ) : ℂ := cis (sigma * (Real.pi * t ^ 2 / n))

/-- The identity Bluestein's algorithm turns on. -/
theorem chirp_mul_chirp_mul_chirp (sigma : ℝ) (n : Nat) (i k : ℝ) :
    chirp sigma n k * (chirp sigma n i * chirp (-sigma) n (k - i)) = cis (sigma * (2 * Real.pi * i * k / n)) := by
  rw [chirp, chirp, chirp, ← cis_add, ← cis_add]
  congr 1
  ring

theorem toComplex_halfTwiddle (k : Int) {n : Nat} (h : 1 ≤ n) :
    toComplex (halfTwiddle trigReal k n) = cis (-(Real.pi * k / n)) := by
  rw [halfTwiddle_trigReal k h, cis_eq]
  simp [toComplex, mul_comm]

theorem toComplex_conj_halfTwiddle (k : Int) {n : Nat} (h : 1 ≤ n) :
    toComplex (conj numReal (halfTwiddle trigReal k n)) = cis (Real.pi * k / n) := by
  rw [toComplex_conj, toComplex_halfTwiddle k h, conj_cis, neg_neg]

theorem kernelSign_of_forward {k : Kind} (h : isForward k = true) : kernelSign k = -1 := if_pos h

theorem kernelSign_of_inverse {k : Kind} (h : ¬ isForward k = true) : kernelSign k = 1 := if_neg h

/-- The x-table of a kind is the chirp of its kernel sign. -/
theorem toComplex_kindXTable (k : Kind) {n i : Nat} (h : i < n) :
    toComplex (kindXTable numReal trigReal k n)[i] = chirp (kernelSign k) n i := by
  have hn : 1 ≤ n := by omega
  by_cases hk : isForward k = true
  · have hx : (kindXTable numReal trigReal k n)[i] = conj numReal (halfTwiddle trigReal (-((i : Int) * i)) n) := by
      simp [kindXTable, hk, tableXf, xfEntry, xiEntry]
    rw [hx, toComplex_conj_halfTwiddle _ hn, kernelSign_of_forward hk, chirp]
    congr 1
    push_cast
    ring
  · have hx : (kindXTable numReal trigReal k n)[i] = halfTwiddle trigReal (-((i : Int) * i)) n := by
      simp [kindXTable, hk, tableXi, xiEntry]
    rw [hx, toComplex_halfTwiddle _ hn, kernelSign_of_inverse hk, chirp]
    congr 1
    push_cast
    ring

/-- Where the partition gives a square, the w-table holds the chirp of the opposite sign. -/
theorem toComplex_kindTimeW (k : Kind) {n m j : Nat} {d : Int} (hn : 1 ≤ n) (hj : j < m)
    (hd : widx n m j = some (d * d)) :
    toComplex (kindTimeW numReal trigReal k n m)[j] = chirp (-kernelSign k) n d := by
  by_cases hk : isForward k = true
  · have hw : (kindTimeW numReal trigReal k n m)[j] = conj numReal (halfTwiddle trigReal (d * d) n) := by
      simp [kindTimeW, hk, timeWf, wfEntry, hd]
    rw [hw, toComplex_conj_halfTwiddle _ hn, kernelSign_of_forward hk, chirp]
    congr 1
    push_cast
    ring
  · have hw : (kindTimeW numReal trigReal k n m)[j] = halfTwiddle trigReal (d * d) n := by
      simp [kindTimeW, hk, timeWi, wiEntry, hd]
    rw [hw, toComplex_halfTwiddle _ hn, kernelSign_of_inverse hk, chirp]
    congr 1
    push_cast
    ring

/-- For `i, k < n` the cyclic difference `k - i` falls in the partition's outer ranges, where the index is `(k - i)^2`
(R112, R162). -/
theorem widx_cyclic_sub {n m : Nat} (hm : 2 * n - 1 ≤ m) {i k : Fin m} (hi : i.val < n) (hk : k.val < n) :
    widx n m (k - i).val = some (((k.val : Int) - i.val) * ((k.val : Int) - i.val)) := by
  by_cases h : i.val ≤ k.val
  · have hv : (k - i).val = k.val - i.val := Fin.sub_val_of_le h
    rw [widx, if_pos (by omega), hv, Nat.cast_sub h]
  · have hv : (k - i).val = m - (i.val - k.val) := by
      rw [Fin.coe_sub_iff_lt.mpr (by omega)]
      omega
    have hc : (((k - i).val : Nat) : Int) - m = k.val - i.val := by omega
    rw [widx, if_neg (by omega), if_pos (by omega), hc]

/-! The convolution. -/

/-- A product in the frequency domain is a cyclic convolution, scaled by `c` (R175). -/
theorem toComplex_inv_freqMultiply {m : Nat} {inner : InnerOps ℝ m} {c : ℝ} (hconv : ConvThm inner)
    (hinv : InvFwd inner c) (a b : Vector (Sample ℝ) m) (k : Fin m) :
    toComplex (inner.inv (freqMultiply numReal (inner.fwd a) (inner.fwd b)))[k] =
      c * ∑ i : Fin m, toComplex a[i] * toComplex b[(k - i : Fin m)] := by
  have hprod : freqMultiply numReal (inner.fwd a) (inner.fwd b) = inner.fwd (cyclicConv a b) :=
    vector_ext fun i => by
      rw [hconv a b i, ← toComplex_cmul]
      simp [freqMultiply]
  rw [hprod, hinv]
  simp [cyclicConv]

theorem toComplex_padded_of_lt {n m : Nat} (x u : Vector (Sample ℝ) n) {i : Nat} (hi : i < n) (him : i < m) :
    toComplex (padded numReal m x u)[i] = toComplex x[i] * toComplex u[i] := by
  rw [← toComplex_cmul]
  simp [padded, modulate, hi]

theorem toComplex_padded_of_ge {n m : Nat} (x u : Vector (Sample ℝ) n) {i : Nat} (hi : n ≤ i) (him : i < m) :
    toComplex (padded numReal m x u)[i] = 0 := by
  have : ¬ i < n := by omega
  apply Complex.ext <;> simp [padded, this, czero, numReal, toComplex]

/-- A cyclic convolution with a zero-padded operand is a sum over the operand's own indices. -/
theorem sum_padded_mul {n m : Nat} (h : n ≤ m) (x u : Vector (Sample ℝ) n) (g : Fin m → ℂ) :
    ∑ i : Fin m, toComplex (padded numReal m x u)[i] * g i =
      ∑ i : Fin n, toComplex x[i] * toComplex u[i] * g (Fin.castLE h i) := by
  symm
  apply Fintype.sum_of_injective (Fin.castLE h) (Fin.castLE_injective h)
  · intro i hi
    have hge : n ≤ i.val := by
      by_contra hlt
      exact hi ⟨⟨i.val, by omega⟩, rfl⟩
    rw [Fin.getElem_fin, toComplex_padded_of_ge x u hge, zero_mul]
  · intro i
    exact congrArg (· * g (Fin.castLE h i)) (toComplex_padded_of_lt x u i.isLt (i.isLt.trans_le h)).symm

/-- The transform is the DFT (R144): every kind, size, sufficient inner length, and capability with `ConvThm` and
`InvFwd(c)`. -/
theorem toComplex_bluestein {n m : Nat} {inner : InnerOps ℝ m} {c : ℝ} (k : Kind) (hle : n ≤ m)
    (u : Vector (Sample ℝ) n) (i : Fin n) (hm : 2 * n - 1 ≤ m) (hconv : ConvThm inner) (hinv : InvFwd inner c) :
    toComplex (bluestein numReal trigReal inner k hle u)[i] =
      c * scale numReal k n * dftEntry (kernelSign k) u i := by
  have hn : 1 ≤ n := by have := i.isLt; omega
  set x := kindXTable numReal trigReal k n with hx
  set w := kindTimeW numReal trigReal k n m with hw
  have hentry : (bluestein numReal trigReal inner k hle u)[i] =
      rscale numReal (cmul numReal
        (inner.inv (freqMultiply numReal (inner.fwd (padded numReal m x u)) (inner.fwd w)))[Fin.castLE hle i]
        x[i]) (scale numReal k n) := by
    rw [bluestein_eq_transformed]
    simp [transformed, convolved, ← hx, ← hw]
  have hterm : ∀ j : Fin n, toComplex x[i] * (toComplex x[j] * toComplex u[j] *
      toComplex w[(Fin.castLE hle i - Fin.castLE hle j : Fin m)]) =
        toComplex u[j] * cis (kernelSign k * (2 * Real.pi * j.val * i.val / n)) := by
    intro j
    have hidx := widx_cyclic_sub hm (i := Fin.castLE hle j) (k := Fin.castLE hle i) j.isLt i.isLt
    simp only [Fin.getElem_fin]
    rw [toComplex_kindXTable k i.isLt, toComplex_kindXTable k j.isLt, toComplex_kindTimeW k hn (Fin.isLt _) hidx,
      ← chirp_mul_chirp_mul_chirp]
    push_cast
    simp only [Fin.val_castLE]
    ring
  rw [hentry, toComplex_rscale, toComplex_cmul, toComplex_inv_freqMultiply hconv hinv, sum_padded_mul hle]
  calc c * (∑ j : Fin n, toComplex x[j] * toComplex u[j] *
          toComplex w[(Fin.castLE hle i - Fin.castLE hle j : Fin m)]) * toComplex x[i] * (scale numReal k n : ℝ)
      = c * scale numReal k n * ∑ j : Fin n, toComplex x[i] * (toComplex x[j] * toComplex u[j] *
          toComplex w[(Fin.castLE hle i - Fin.castLE hle j : Fin m)]) := by rw [← Finset.mul_sum]; ring
    _ = c * scale numReal k n * dftEntry (kernelSign k) u i := by rw [dftEntry, Finset.sum_congr rfl fun j _ => hterm j]

end Sys2Proof.Ideal
end

section
/-! The machine over the real numbers computes the DFT (R144): its run, and what its big-step meaning is. -/

namespace Sys2Proof.Proofs

open Machine Sys2Proof.Ideal

/-- The inner length is sufficient for the convolution (R95 (b)). -/
theorem two_mul_sub_one_le_innerSize {n : Nat} (h : n ≤ Config.nMax) : 2 * n - 1 ≤ innerSize n := by
  have hfuel : 2 * n - 1 ≤ 2 ^ Config.sizeW * 1 := by
    simp only [Config.nMax, Config.sizeW] at h ⊢
    omega
  exact (doubleUntil_spec (2 * n - 1) Config.sizeW 1 hfuel).1

/-- Settles O58. -/
theorem idealMachineComputesTheDFT : Obligations.IdealMachineComputesTheDFT := by
  intro inner tol c n l u k cmd h1 hmax hsize hl hconv hinv hk
  have hbound : 2 * n.toNat - 1 ≤ inner.L := hsize ▸ two_mul_sub_one_le_innerSize hmax
  have hle : n.toNat ≤ inner.L := by omega
  obtain ⟨t, hrun, hphase, hguard, hscript, hbuf⟩ :=
    run_construct_writeBuf_xform (p := idealParams inner tol) (zero := 0) h1 hmax hsize hl hle u hk
  exact ⟨t, hrun, hphase, hguard, hscript, fun i hi =>
    ⟨_, (readRange_ok_iff _ _ _).mp hbuf i hi, toComplex_bluestein k hle u ⟨i, hi⟩ hbound hconv hinv⟩⟩

end Sys2Proof.Proofs
end

section
/-! What a step, a host action and a micro-operation can do, said once more sharply than in Laws: the state a step acts on,
which elements a micro-operation writes, and which it reads. -/

namespace Sys2Proof.Proofs

open Machine Safety

/-! One step: what it runs, and on which state. -/

/-- A step is a host action, a micro-operation, or nothing, on the present state with other pending moves. -/
theorem step_eq_cases (s : State) : ∃ s', (∃ arr scr, s' = (s.setArrivals arr).setScript scr) ∧
    ((∃ a, nextAction s = some a ∧ step s = hostAct a s') ∨
      (nextAction s = none ∧ ∃ i, s'.phase.microOp = some i ∧ step s = exec i s') ∨
      (nextAction s = none ∧ step s = .next s')) := by
  rcases step_cases s with ⟨a, rest, _, _, ha, h⟩ | ⟨i, _, ha, hm, h⟩ | ⟨a, rest, _, _, ha, h⟩ |
    ⟨w, rest, _, _, ha, h⟩ | ⟨_, _, ha, h⟩
  · exact ⟨_, ⟨rest, s.script, rfl⟩, .inl ⟨a, ha, h⟩⟩
  · exact ⟨_, ⟨s.arrivals.map (Arrival.pass s.phase), s.script, rfl⟩, .inr (.inl ⟨ha, i, hm, h⟩)⟩
  · exact ⟨_, ⟨s.arrivals, rest, rfl⟩, .inl ⟨a, ha, h⟩⟩
  · exact ⟨_, ⟨s.arrivals ++ [w], rest, rfl⟩, .inr (.inr ⟨ha, h⟩)⟩
  · exact ⟨_, ⟨s.arrivals, s.script, rfl⟩, .inr (.inr ⟨ha, h⟩)⟩

/-! A fatal stop. -/

/-- A fatal stop keeps every register but PHASE, FCODE and FCMD, and HOST's queues (log 6). -/
theorem raiseFatal_keeps (code : FatalCode) (cmd : Byte) (s : State) :
    (raiseFatal code cmd s).n = s.n ∧ (raiseFatal code cmd s).m = s.m ∧ (raiseFatal code cmd s).kind = s.kind ∧
    (raiseFatal code cmd s).scale = s.scale ∧ (raiseFatal code cmd s).result = s.result ∧
    (raiseFatal code cmd s).sizesHeld = s.sizesHeld ∧ (raiseFatal code cmd s).kindHeld = s.kindHeld ∧
    (raiseFatal code cmd s).resultHeld = s.resultHeld ∧ (raiseFatal code cmd s).bufLen = s.bufLen ∧
    (raiseFatal code cmd s).script = s.script ∧ (raiseFatal code cmd s).arrivals = s.arrivals ∧
    (raiseFatal code cmd s).reads = s.reads := by
  simp [raiseFatal, s.abandon_registers]

/-- The x-tables are no part of what a command in progress leaves unspecified (log 7). -/
theorem abandon_keeps_xTables (s : State) {sp : Space} (h : sp = .xf ∨ sp = .xi) :
    s.abandon.space sp = s.space sp := by
  rcases h with rfl | rfl <;> unfold State.abandon <;> (repeat' split) <;> simp [State.forget]

/-! Micro-operations: which elements they write. -/

/-- `t` has, in each of the spaces `ws`, `k` consecutive elements from index `lo` written over those of `s`; the other
spaces are as in `s`. -/
def Writes (ws : List Space) (lo k : Nat) (s t : State) : Prop :=
  ∀ sp, ∃ vs : List C, vs.length = (if sp ∈ ws then k else 0) ∧ t.space sp = (s.space sp).writeFrom lo vs

theorem Writes.nil (lo k : Nat) (s : State) : Writes [] lo k s s := fun _ => ⟨[], by simp, rfl⟩

theorem Writes.store {ws : List Space} {lo k : Nat} {s t : State} (h : Writes ws lo k s t) {q : Space} (hq : q ∉ ws)
    {vs : List C} (hk : vs.length = k) : Writes (q :: ws) lo k s (t.store q lo vs) := by
  intro sp
  obtain ⟨us, hl, hsp⟩ := h sp
  rw [State.space_store]
  by_cases hs : sp = q
  · subst hs
    rw [if_neg hq] at hl
    rw [List.eq_nil_of_length_eq_zero hl] at hsp
    exact ⟨vs, by simp [hk], by rw [if_pos rfl, hsp]; rfl⟩
  · exact ⟨us, by simpa [hs] using hl, by rw [if_neg hs, hsp]⟩

theorem Writes.keeps {ws : List Space} {lo k : Nat} {s t : State} (h : Writes ws lo k s t) {sp : Space} (hs : sp ∉ ws) :
    t.space sp = s.space sp := by
  obtain ⟨vs, hl, hsp⟩ := h sp
  rw [if_neg hs] at hl
  rw [hsp, List.eq_nil_of_length_eq_zero hl]
  rfl

theorem Writes.spacesWf {ws : List Space} {lo k : Nat} {s t : State} (h : Writes ws lo k s t) (hs : SpacesWf s) :
    SpacesWf t := fun sp => by
  obtain ⟨vs, _, hsp⟩ := h sp
  rw [hsp]
  exact wf_writeFrom (hs sp) lo vs

theorem isSome_read_writeFrom (mem : Memory RealScalar) (lo : Nat) (vs : List C) (i : Nat) :
    ((mem.writeFrom lo vs).read i).isSome ↔ (lo ≤ i ∧ i < lo + vs.length) ∨ (mem.read i).isSome := by
  by_cases h : lo ≤ i ∧ i < lo + vs.length
  · simp [read_writeFrom_in h.1 h.2, h]
  · rcases Nat.lt_or_ge i lo with hi | hi
    · simp [read_writeFrom_of_lt hi, h]
    · simp [read_writeFrom_of_ge (show lo + vs.length ≤ i by omega), h]

/-- Which elements hold a value after the writes. -/
theorem Writes.isSome_iff {ws : List Space} {lo k : Nat} {s t : State} (h : Writes ws lo k s t) (sp : Space) (i : Nat) :
    ((t.space sp).read i).isSome ↔ (sp ∈ ws ∧ lo ≤ i ∧ i < lo + k) ∨ ((s.space sp).read i).isSome := by
  obtain ⟨vs, hl, hsp⟩ := h sp
  rw [hsp, isSome_read_writeFrom, hl]
  split <;> simp_all

theorem Writes.holds_of_holds {ws : List Space} {lo k : Nat} {s t : State} (h : Writes ws lo k s t) {sp : Space} {n : Nat}
    (hs : holds (s.space sp) n) : holds (t.space sp) n :=
  fun i hi => (h.isSome_iff sp i).mpr (.inr (hs i hi))

theorem holds_zero (mem : Memory RealScalar) : holds mem 0 := fun _ hi => absurd hi (Nat.not_lt_zero _)

/-- A pass that starts where the written elements end extends them. -/
theorem Writes.holds_pass {ws : List Space} {lo k : Nat} {s t : State} (h : Writes ws lo k s t) {sp : Space}
    (hsp : sp ∈ ws) (hs : holds (s.space sp) lo) {n : Nat} (hn : n ≤ lo + k) : holds (t.space sp) n := fun i hi =>
  (h.isSome_iff sp i).mpr ((Nat.lt_or_ge i lo).elim (fun hlo => .inr (hs i hlo))
    fun hlo => .inl ⟨hsp, hlo, hi.trans_le hn⟩)

/-- The spaces the micro-operation of a phase writes (R110 to R115, R151 to R156). -/
def writtenSpaces : Phase → List Space
  | .cXgen => [.xi, .xf]
  | .cWgen => [.wi, .wf]
  | .cWfwdF => [.wf]
  | .cWfwdI => [.wi]
  | .tMod | .tZpad | .tIfwd | .tFmul | .tIinv => [.scr]
  | .tDemod => [.buf]
  | .uncon | .idle | .fatal => []

/-- The first index of the pass of a phase. -/
def passStart (s : State) : Phase → Nat
  | .tZpad => s.sizeN
  | _ => 0

/-- The number of elements of the pass of a phase. -/
def passLength (s : State) : Phase → Nat
  | .cXgen | .tMod | .tDemod => s.sizeN
  | .tZpad => s.sizeM - s.sizeN
  | _ => s.sizeM

/-- A micro-operation writes the elements of its pass in its spaces, and no other space. -/
theorem micro_writes {p : Phase} {s t : State} {i : Instr} (hm : p.microOp = some i) (he : exec i s = .next t) :
    Writes (writtenSpaces p) (passStart s p) (passLength s p) s t := by
  have one : ∀ {q : Space} {lo k : Nat} {vs : List C}, vs.length = k → Writes [q] lo k s (s.store q lo vs) :=
    fun h => (Writes.nil _ _ s).store (by simp) h
  cases p <;> cases hm
  case cXgen | cWgen =>
    cases he
    exact (one (by simp [passLength])).store (by decide) (by simp [passLength])
  case cWfwdF | cWfwdI | tIfwd | tIinv =>
    simp only [exec_wfwdF, exec_wfwdI, exec_ifwd, exec_iinv] at he
    obtain ⟨vs, j, hl, rfl⟩ := invoke_next he
    exact one hl
  case tMod | tFmul | tDemod =>
    obtain ⟨_, _, hk⟩ := withRange_next he
    obtain ⟨_, _, hk⟩ := withRange_next hk
    cases hk
    exact one (length_samples _)
  case tZpad =>
    cases he
    exact one (by simp [passLength])

/-! Micro-operations: what they move. -/

theorem microOp_busy {p : Phase} {i : Instr} (h : p.microOp = some i) : p.busy = true := by
  cases hb : p.busy
  · rw [(microOp_isNone_iff p).mpr hb] at h; cases h
  · rfl

/-- A micro-operation writes none of the registers but PHASE and GUARD (R14). -/
theorem micro_registers {s t : State} {i : Instr} (hm : s.phase.microOp = some i) (he : exec i s = .next t) :
    SameRegisters s t ∧ (s.phase, t.phase) ∈ advances ∧ (s.guard = s.phase.busy → t.guard = t.phase.busy) := by
  obtain ⟨s', hs', _, hph, hg, ⟨rfl, hp⟩ | ⟨p, rfl, hp, hidle⟩⟩ := micro_cases hm he
  · refine ⟨hs', ?_, fun _ => rfl⟩
    rcases hp with hp | hp <;> rw [hp]
    · exact (by decide : (Phase.cWfwdI, Phase.idle) ∈ advances)
    · exact (by decide : (Phase.tDemod, Phase.idle) ∈ advances)
  · refine ⟨hs', hp, fun h => ?_⟩
    have hbusy : ∀ m ∈ advances, m.2 ≠ .idle → m.1.busy = true → m.2.busy = true := by decide
    calc s'.guard = s.phase.busy := hg.trans h
      _ = true := microOp_busy hm
      _ = p.busy := (hbusy _ hp hidle (microOp_busy hm)).symm

/-! Micro-operations: which elements they read. -/

/-- `r` is what reading the ranges `rs` of `s`, one after another, leads to: a next state, or a fault at an element of one
of them that holds no value (R30, R44). -/
def ReadsRanges (s : State) (rs : List (Space × Nat)) (r : Result) : Prop :=
  ((∀ q ∈ rs, holds (s.space q.1) q.2) → ∃ t, r = .next t) ∧
  ((∃ q ∈ rs, ¬ holds (s.space q.1) q.2) →
    ∃ sp i k, r = .fault (.noValue sp i) ∧ (sp, k) ∈ rs ∧ i < k ∧ (s.space sp).read i = none)

theorem ReadsRanges.next (s t : State) : ReadsRanges s [] (.next t) := ⟨fun _ => ⟨t, rfl⟩, by simp⟩

theorem ReadsRanges.withRange {s : State} {sp : Space} {n : Nat} {rs : List (Space × Nat)} {k : Vector C n → Result}
    (h : ∀ v, ReadsRanges s rs (k v)) : ReadsRanges s ((sp, n) :: rs) (withRange s sp n k) := by
  rcases range_cases s sp n with ⟨hh, v, hv⟩ | ⟨hh, i, hi, hr, hf⟩
  · rw [withRange_ok hv]
    obtain ⟨hnext, hfault⟩ := h v
    refine ⟨fun hall => hnext fun q hq => hall q (List.mem_cons_of_mem _ hq), ?_⟩
    rintro ⟨q, hq, hnot⟩
    rcases List.mem_cons.mp hq with rfl | hq
    · exact absurd hh hnot
    · obtain ⟨tp, j, l, hres, hmem, hj, hread⟩ := hfault ⟨q, hq, hnot⟩
      exact ⟨tp, j, l, hres, List.mem_cons_of_mem _ hmem, hj, hread⟩
  · exact ⟨fun hall => absurd (hall _ List.mem_cons_self) hh,
      fun _ => ⟨sp, i, n, hf k, List.mem_cons_self, hi, hr⟩⟩

theorem ReadsRanges.invoke {inner : Inner RealScalar} {op : Vector C inner.L → Vector C inner.L} {sp : Space}
    {k : State → State} {s : State} : ReadsRanges s [(sp, s.sizeM)] (invoke inner op sp k s) := by
  unfold Machine.invoke
  split
  · rw [‹s.sizeM = inner.L›]
    exact .withRange fun _ => .next _ _
  · exact .withRange fun _ => .next _ _

/-- The ranges the micro-operation of a phase reads, in their order. -/
def readRanges (s : State) : Phase → List (Space × Nat)
  | .cWfwdF => [(.wf, s.sizeM)]
  | .cWfwdI => [(.wi, s.sizeM)]
  | .tMod => [(s.xTable, s.sizeN), (.buf, s.sizeN)]
  | .tIfwd | .tIinv => [(.scr, s.sizeM)]
  | .tFmul => [(.scr, s.sizeM), (s.wTable, s.sizeM)]
  | .tDemod => [(.scr, s.sizeN), (s.xTable, s.sizeN)]
  | .uncon | .cXgen | .cWgen | .idle | .tZpad | .fatal => []

theorem micro_reads {p : Phase} {i : Instr} (hm : p.microOp = some i) (s : State) :
    ReadsRanges s (readRanges s p) (exec i s) := by
  cases p <;> cases hm
  case cXgen | cWgen | tZpad => exact .next _ _
  case cWfwdF | cWfwdI | tIfwd | tIinv =>
    simp only [exec_wfwdF, exec_wfwdI, exec_ifwd, exec_iinv]
    exact .invoke
  case tMod | tFmul | tDemod => exact .withRange fun _ => .withRange fun _ => .next _ _

/-- Settles O20: each micro-operation is a chain of range reads that ends in a next state. -/
theorem microOpsFaultOnlyOnNoValue : Obligations.MicroOpsFaultOnlyOnNoValue := by
  intro s p hp
  simp only [List.mem_cons, List.not_mem_nil, or_false] at hp
  rcases hp with rfl | rfl | rfl | rfl | rfl | rfl | rfl
  · exact micro_reads (p := .cWfwdF) rfl s
  · exact micro_reads (p := .cWfwdI) rfl s
  · exact micro_reads (p := .tMod) rfl s
  · exact micro_reads (p := .tIfwd) rfl s
  · exact micro_reads (p := .tFmul) rfl s
  · exact micro_reads (p := .tIinv) rfl s
  · exact micro_reads (p := .tDemod) rfl s

end Sys2Proof.Proofs
end

section
/-! The invariant of the engine: every step keeps it (R18, R20, R29, R30), and what follows from it. -/

namespace Sys2Proof.Proofs

open Machine Safety

/-! The lengths of the spaces, one statement for all of them. -/

/-- The length of a space of a constructed engine (R29, R43). -/
def lengthOf (s : State) : Space → Nat
  | .xf | .xi | .buf => s.sizeN
  | .wf | .wi | .scr => s.sizeM

theorem within_spaces_iff (s : State) (len : Space → Nat) :
    (within s.xf (len .xf) ∧ within s.xi (len .xi) ∧ within s.wf (len .wf) ∧ within s.wi (len .wi) ∧
      within s.scr (len .scr)) ↔ ∀ sp, sp ≠ .buf → within (s.space sp) (len sp) := by
  constructor
  · rintro ⟨hxf, hxi, hwf, hwi, hscr⟩ sp hsp
    cases sp
    case buf => exact absurd rfl hsp
    all_goals assumption
  · exact fun h => ⟨h .xf (by decide), h .xi (by decide), h .wf (by decide), h .wi (by decide), h .scr (by decide)⟩

/-- The inner length is at least the size (R95 (b)). -/
theorem le_innerSize {n : Nat} (h1 : 1 ≤ n) (h : n ≤ Config.nMax) : n ≤ innerSize n := by
  have := two_mul_sub_one_le_innerSize h
  omega

theorem sizeN_le_sizeM {s : State} (h : SizesLegal s) (hs : sized s.phase = true) : s.sizeN ≤ s.sizeM := by
  obtain ⟨h1, hmax, hm, _⟩ := h hs
  exact hm ▸ le_innerSize h1 hmax

/-- No pass writes beyond the length of its space. -/
theorem pass_within {s : State} {p : Phase} {sp : Space} (hnm : s.sizeN ≤ s.sizeM) (hsp : sp ∈ writtenSpaces p) :
    passStart s p + passLength s p ≤ lengthOf s sp := by
  cases p <;> simp only [writtenSpaces, List.mem_cons, List.not_mem_nil, or_false] at hsp
  case cXgen | cWgen => rcases hsp with rfl | rfl <;> simp [passStart, passLength, lengthOf]
  all_goals
    subst hsp
    simp only [passStart, passLength, lengthOf]
    omega

/-! The engine at reset, at a fatal stop, and in states that differ in HOST's fields only. -/

theorem engineInv_initial {s : State} (hph : s.phase = .uncon) (hg : s.guard = false) (hc : s.fcode = .noStop)
    (hcmd : s.fcmd = 0x00#8) (hbuf : s.buf.wf) (hempty : ∀ sp, sp ≠ .buf → s.space sp = []) : EngineInv s := by
  refine ⟨fun sp => ?_, fun _ => by rw [hg, hph]; rfl, ⟨fun _ => ⟨hc, hcmd⟩, fun h => ?_⟩, ?_, ⟨?_, fun _ => ?_⟩, ?_, ?_⟩
  · by_cases h : sp = .buf
    · exact h ▸ hbuf
    · exact hempty sp h ▸ wf_nil
  · simp [hph] at h
  · intro h; simp [hph, sized] at h
  · intro h; simp [hph, sized] at h
  · refine (within_spaces_iff s fun _ => 0).mpr fun sp hsp i hi => ?_
    simp [hempty sp hsp] at hi
  · simp [WrittenBeforeRead, hph, xFilled, wFilled, scrData, scrFull, sized, Phase.transforming]
  · intro h; simp [hph, Phase.transforming] at h

/-- The state the reset input leaves meets the invariant (R33). -/
theorem engineInv_assertReset {s : State} (h : s.buf.wf) : EngineInv (s.assertReset Config.num.zero) :=
  engineInv_initial rfl rfl rfl rfl h fun sp hsp => by
    cases sp
    case buf => exact absurd rfl hsp
    all_goals rfl

/-- Settles O34: resetting the reset state gives it back. -/
theorem resetMeetsTheInvariant : Obligations.ResetMeetsTheInvariant :=
  engineInv_assertReset (s := State.reset) wf_nil

/-- In FATAL the invariant says only that the spaces are canonical and that a cause is recorded. -/
theorem engineInv_of_fatal {s : State} (hph : s.phase = .fatal) (hwf : SpacesWf s) (hc : s.fcode ≠ .noStop) :
    EngineInv s := by
  refine ⟨hwf, fun h => absurd hph h, ⟨fun h => absurd hph h, fun _ => hc⟩, ?_, ⟨?_, ?_⟩, ?_, ?_⟩
  · simp [SizesLegal, hph, sized]
  · simp [hph, sized]
  · simp [hph]
  · simp [WrittenBeforeRead, hph, xFilled, wFilled, scrData, scrFull, sized, Phase.transforming]
  · simp [ScaleLatched, hph, Phase.transforming]

theorem engineInv_raiseFatal {s : State} {code : FatalCode} (hwf : SpacesWf s) (hc : code ≠ .noStop) (cmd : Byte) :
    EngineInv (raiseFatal code cmd s) :=
  engineInv_of_fatal rfl (fun sp => by rw [raiseFatal_space]; exact (s.abandon_space sp).1 (hwf sp)) hc

theorem engineInv_of_sameEngine {s t : State} (h : EngineInv s) (hs : SameEngine s t) (hb : t.buf.wf) : EngineInv t := by
  cases s
  cases t
  obtain ⟨rfl, rfl, rfl, rfl, rfl, rfl, rfl, rfl, rfl, rfl, rfl, rfl, rfl, rfl, rfl, rfl, rfl⟩ := hs
  obtain ⟨hwf, hrest⟩ := h
  refine ⟨fun sp => ?_, hrest⟩
  cases sp
  exacts [hb, hwf .scr, hwf .xf, hwf .xi, hwf .wf, hwf .wi]

/-! The start of a command. -/

/-- An accepted CONSTRUCT: the spaces are empty, and N and M are legal sizes (R131). -/
theorem engineInv_construct {s : State} (h : EngineInv s) (hph : s.phase = .uncon) {n : Word} (h1 : 1 ≤ n.toNat)
    (hmax : n.toNat ≤ Config.nMax) :
    EngineInv ((s.setSizes n (BitVec.ofNat 32 (innerSize n.toNat))).begin .cXgen) := by
  obtain ⟨hwf, _, ⟨hcause, _⟩, _, ⟨_, hempty⟩, _, _⟩ := h
  have hm : (BitVec.ofNat 32 (innerSize n.toNat)).toNat = innerSize n.toNat := by
    rw [BitVec.toNat_ofNat, Nat.mod_eq_of_lt (innerSize_lt hmax)]
  refine ⟨hwf, fun _ => rfl, ⟨fun _ => hcause (by simp [hph]), nofun⟩, fun _ => ⟨h1, hmax, hm, rfl⟩, ⟨fun _ => ?_, nofun⟩,
    ⟨nofun, nofun, nofun, nofun⟩, nofun⟩
  refine (within_spaces_iff _ (lengthOf _)).mpr fun sp hsp i hi => ?_
  exact absurd ((within_spaces_iff s fun _ => 0).mp (hempty hph) sp hsp i hi) (Nat.not_lt_zero i)

/-- Outside a command, UNCON and FATAL the engine is idle. -/
theorem phase_idle_of_guard {s : State} (h : GuardMatchesPhase s) (hu : s.phase ≠ .uncon) (hf : s.phase ≠ .fatal)
    (hg : s.guard = false) : s.phase = .idle := by
  have hrest := (h hf).symm.trans hg
  cases hp : s.phase <;> simp_all [Phase.busy, Phase.constructing, Phase.transforming]

/-- An accepted XFORM: the engine is idle, so the tables are finished (R135). -/
theorem engineInv_xform {s : State} (h : EngineInv s) (hph : s.phase = .idle) (k : Kind) :
    EngineInv ((s.setKind k (scale Config.num k s.sizeN)).begin .tMod) := by
  obtain ⟨hwf, _, ⟨hcause, _⟩, hsizes, ⟨hlen, _⟩, ⟨hx, hw, _, _⟩, _⟩ := h
  exact ⟨hwf, fun _ => rfl, ⟨fun _ => hcause (by simp [hph]), nofun⟩, fun _ => hsizes (by rw [hph]; rfl),
    ⟨fun _ => hlen (by rw [hph]; rfl), nofun⟩,
    ⟨fun _ => hx (by rw [hph]; rfl), fun _ => hw (by rw [hph]; rfl), nofun, nofun⟩, fun _ => ⟨rfl, rfl⟩⟩

theorem engineInv_frame {f : Frame} {s t : State} (h : EngineInv s) (hf : FrameEffect f s t) : EngineInv t := by
  obtain ⟨hwf, hguard, _⟩ := id h
  rcases hf with ⟨_, rfl⟩ | ⟨_, code, hc, rfl⟩ | ⟨_, w, rfl⟩ | ⟨hph, _, n, h1, hmax, rfl⟩ | ⟨hu, hfat, hg, k, rfl⟩
  · exact h
  · exact engineInv_raiseFatal hwf hc f.cmd
  · exact h
  · exact engineInv_construct h hph h1 hmax
  · exact engineInv_xform h (phase_idle_of_guard hguard hu hfat hg) k

theorem engineInv_hostAct {a : HostAction} {s t : State} (h : EngineInv s) (he : hostAct a s = .next t) :
    EngineInv t := by
  rcases hostAct_cases he with ⟨_, rfl⟩ | ⟨f, _, hf⟩ | ⟨_, hs, hb⟩
  · exact engineInv_assertReset (h.1 .buf)
  · exact engineInv_frame h (present_cases hf)
  · refine engineInv_of_sameEngine h hs ?_
    rcases hb with hb | ⟨_, hb⟩
    · exact hb ▸ h.1 .buf
    · exact hb

/-! The micro-operations. -/

/-- Where a phase promises written elements, the phase before it promised them or was the one that writes them. -/
theorem filled_of_advances {p q : Phase} (h : (p, q) ∈ advances) (hb : p.busy = true) :
    (xFilled q = true → xFilled p = true ∨ p = .cXgen) ∧ (wFilled q = true → wFilled p = true ∨ p = .cWgen) ∧
    (scrData q = true → scrData p = true ∨ p = .tMod) ∧ (scrFull q = true → scrFull p = true ∨ p = .tZpad) :=
  (by decide : ∀ m ∈ advances, m.1.busy = true →
    (xFilled m.2 = true → xFilled m.1 = true ∨ m.1 = .cXgen) ∧
    (wFilled m.2 = true → wFilled m.1 = true ∨ m.1 = .cWgen) ∧
    (scrData m.2 = true → scrData m.1 = true ∨ m.1 = .tMod) ∧
    (scrFull m.2 = true → scrFull m.1 = true ∨ m.1 = .tZpad)) (p, q) h hb

/-- A micro-operation leaves neither the constructed phases nor, but by completing it, the transform. -/
theorem sized_of_advances {p q : Phase} (h : (p, q) ∈ advances) (hb : p.busy = true) :
    sized p = true ∧ q ≠ .uncon ∧ q ≠ .fatal ∧ (q.transforming = true → p.transforming = true) :=
  (by decide : ∀ m ∈ advances, m.1.busy = true →
    sized m.1 = true ∧ m.2 ≠ .uncon ∧ m.2 ≠ .fatal ∧ (m.2.transforming = true → m.1.transforming = true)) (p, q) h hb

/-- What is written before it is read stays so: each range a later phase needs is the pass of one phase (R30). -/
theorem writtenBeforeRead_micro {s t : State} {i : Instr} (hm : s.phase.microOp = some i) (he : exec i s = .next t)
    (hnm : s.sizeN ≤ s.sizeM) (h : WrittenBeforeRead s) : WrittenBeforeRead t := by
  have hw : ∀ {p}, s.phase = p → Writes (writtenSpaces p) (passStart s p) (passLength s p) s t := by
    rintro _ rfl
    exact micro_writes hm he
  have hpass : ∀ {p} (sp : Space) {n : Nat}, s.phase = p → sp ∈ writtenSpaces p → holds (s.space sp) (passStart s p) →
      n ≤ passStart s p + passLength s p → holds (t.space sp) n :=
    fun _ _ hp hsp hbelow hn => (hw hp).holds_pass hsp hbelow hn
  obtain ⟨⟨hn, hm', _⟩, hadv, _⟩ := micro_registers hm he
  obtain ⟨fx, fw, fd, ff⟩ := filled_of_advances hadv (microOp_busy hm)
  obtain ⟨hx, hwt, hd, hf⟩ := h
  simp only [WrittenBeforeRead, State.sizeN, State.sizeM, hn, hm']
  refine ⟨fun hp => ?_, fun hp => ?_, fun hp => ?_, fun hp => ?_⟩
  · rcases fx hp with hp | hp
    · exact ⟨(hw rfl).holds_of_holds (sp := .xf) (hx hp).1, (hw rfl).holds_of_holds (sp := .xi) (hx hp).2⟩
    · exact ⟨hpass .xf hp (by decide) (holds_zero _) (by simp [passLength]),
        hpass .xi hp (by decide) (holds_zero _) (by simp [passLength])⟩
  · rcases fw hp with hp | hp
    · exact ⟨(hw rfl).holds_of_holds (sp := .wf) (hwt hp).1, (hw rfl).holds_of_holds (sp := .wi) (hwt hp).2⟩
    · exact ⟨hpass .wf hp (by decide) (holds_zero _) (by simp [passLength]),
        hpass .wi hp (by decide) (holds_zero _) (by simp [passLength])⟩
  · rcases fd hp with hp | hp
    · exact (hw rfl).holds_of_holds (sp := .scr) (hd hp)
    · exact hpass .scr hp (by decide) (holds_zero _) (by simp [passLength])
  · rcases ff hp with hp | hp
    · exact (hw rfl).holds_of_holds (sp := .scr) (hf hp)
    · exact hpass .scr hp (by decide) (hd (by rw [hp]; rfl)) (Nat.add_sub_cancel' hnm).ge

theorem lengthsMatch_micro {s t : State} {i : Instr} (hm : s.phase.microOp = some i) (he : exec i s = .next t)
    (hnm : s.sizeN ≤ s.sizeM) (h : LengthsMatch s) : LengthsMatch t := by
  obtain ⟨⟨hn, hm', _⟩, hadv, _⟩ := micro_registers hm he
  obtain ⟨hsized, hu, _, _⟩ := sized_of_advances hadv (microOp_busy hm)
  refine ⟨fun _ => ?_, fun hp => absurd hp hu⟩
  simp only [State.sizeN, State.sizeM, hn, hm']
  refine (within_spaces_iff t (lengthOf s)).mpr fun sp hsp j hj => ?_
  rcases ((micro_writes hm he).isSome_iff sp j).mp hj with ⟨hw, _, hlt⟩ | hj
  · exact hlt.trans_le (pass_within hnm hw)
  · exact (within_spaces_iff s (lengthOf s)).mp (h.1 hsized) sp hsp j hj

theorem engineInv_micro {s t : State} {i : Instr} (h : EngineInv s) (hm : s.phase.microOp = some i)
    (he : exec i s = .next t) : EngineInv t := by
  obtain ⟨hwf, hguard, ⟨hcause, _⟩, hsizes, hlen, hwritten, hscale⟩ := h
  obtain ⟨⟨hn, hm', hk, hx, _, hc, hcmd, hsh, hkh, _⟩, hadv, hg⟩ := micro_registers hm he
  obtain ⟨hsized, _, hfat, htrans⟩ := sized_of_advances hadv (microOp_busy hm)
  have hlive : s.phase ≠ .fatal := fun hp => by rw [hp] at hsized; cases hsized
  have hnm := sizeN_le_sizeM hsizes hsized
  refine ⟨(micro_writes hm he).spacesWf hwf, fun _ => hg (hguard hlive),
    ⟨fun _ => by rw [hc, hcmd]; exact hcause hlive, fun hp => absurd hp hfat⟩, fun _ => ?_,
    lengthsMatch_micro hm he hnm hlen, writtenBeforeRead_micro hm he hnm hwritten, fun hp => ?_⟩
  · simpa only [State.sizeN, State.sizeM, hn, hm', hsh] using hsizes hsized
  · simpa only [State.sizeN, hn, hk, hx, hkh] using hscale (htrans hp)

/-- Settles O33: the invariant does not see the queues, and each kind of move keeps it. -/
theorem everyStepKeepsTheInvariant : Obligations.EveryStepKeepsTheInvariant := by
  intro s t h hstep
  obtain ⟨_, ⟨arr, scr, rfl⟩, hs⟩ := step_eq_cases s
  have h' : EngineInv ((s.setArrivals arr).setScript scr) := h
  rcases hs with ⟨a, _, he⟩ | ⟨_, i, hm, he⟩ | ⟨_, he⟩ <;> rw [he] at hstep
  · exact engineInv_hostAct h' hstep
  · exact engineInv_micro h' hm hstep
  · cases hstep
    exact h'

/-! What the invariant says of the values the micro-operations read, of STATUS and of the capability. -/

theorem holds_xTable {s : State} (h : WrittenBeforeRead s) (hp : xFilled s.phase = true) :
    holds (s.space s.xTable) s.sizeN := by
  obtain ⟨hxf, hxi⟩ := h.1 hp
  unfold State.xTable
  split <;> assumption

theorem holds_wTable {s : State} (h : WrittenBeforeRead s) (hp : wFilled s.phase = true) :
    holds (s.space s.wTable) s.sizeM := by
  obtain ⟨hwf, hwi⟩ := h.2.1 hp
  unfold State.wTable
  split <;> assumption

/-- Every range a micro-operation reads has been written, but for BUF, which MOD reads. -/
theorem readRanges_hold {s : State} (h : WrittenBeforeRead s) {q : Space × Nat} (hq : q ∈ readRanges s s.phase) :
    holds (s.space q.1) q.2 ∨ (q.1 = .buf ∧ s.phase = .tMod) := by
  obtain ⟨_, hw, hd, hf⟩ := id h
  have hx := holds_xTable h
  have hwt := holds_wTable h
  cases hp : s.phase <;> rw [hp] at hq hw hd hf hx hwt <;>
    simp only [readRanges, List.mem_cons, List.not_mem_nil, or_false] at hq
  case cWfwdF => exact .inl (hq ▸ (hw rfl).1)
  case cWfwdI => exact .inl (hq ▸ (hw rfl).2)
  case tMod =>
    rcases hq with rfl | rfl
    · exact .inl (hx rfl)
    · exact .inr ⟨rfl, rfl⟩
  case tIfwd | tIinv => exact .inl (hq ▸ hf rfl)
  case tFmul =>
    rcases hq with rfl | rfl
    · exact .inl (hf rfl)
    · exact .inl (hwt rfl)
  case tDemod =>
    rcases hq with rfl | rfl
    · exact .inl (hd rfl)
    · exact .inl (hx rfl)

theorem micro_fault {s : State} {i : Instr} {r : Fault} (h : WrittenBeforeRead s) (hm : s.phase.microOp = some i)
    (he : exec i s = .fault r) : s.phase = .tMod ∧ ∃ j, r = .noValue .buf j ∧ s.buf.read j = none := by
  obtain ⟨hnext, hfault⟩ := micro_reads hm s
  have hnot : ∃ q ∈ readRanges s s.phase, ¬ holds (s.space q.1) q.2 := by
    by_contra hall
    obtain ⟨t, ht⟩ := hnext (by simpa using hall)
    rw [ht] at he
    cases he
  obtain ⟨sp, j, k, hr, hmem, hj, hread⟩ := hfault hnot
  rw [hr] at he
  cases he
  rcases readRanges_hold h hmem with hh | ⟨hb, hp⟩
  · have := hh j hj
    simp [hread] at this
  · obtain rfl : sp = .buf := hb
    exact ⟨hp, j, rfl, hread⟩

/-! Host actions and faults. -/

theorem command_not_fault {cmd : Byte} {checks : List (Bool × FatalCode)} {effect : State → Result} {s : State}
    (h : ∀ r, effect s ≠ .fault r) (r : Fault) : command cmd checks effect s ≠ .fault r := by
  rcases command_cases cmd checks effect s with ⟨_, e⟩ | ⟨_, _, _, e⟩ | ⟨_, _, e⟩ <;> rw [e]
  · nofun
  · nofun
  · exact h r

/-- A frame reads no memory space. -/
theorem present_not_fault (f : Frame) (s : State) (r : Fault) : present f s ≠ .fault r := by
  rcases decode_cases f with ⟨i, hi⟩ | hi | hi
  · rw [present_ok hi]
    rcases exec_frame hi with ⟨_, _, _, _, _, _, _, rfl, _⟩ | ⟨rfl, _⟩ | ⟨_, rfl, _⟩ | ⟨_, _, _, _, hx⟩
    · rw [exec_construct_next]; exact command_not_fault (fun _ h => by cases h) r
    · rw [exec_size]; exact command_not_fault (fun _ h => by cases h) r
    · rw [exec_isize]; exact command_not_fault (fun _ h => by cases h) r
    · rw [hx, xform]; exact command_not_fault (fun _ h => by cases h) r
  · rw [present_count hi]
    split <;> nofun
  · rw [present_illegal hi]
    exact command_not_fault (fun _ h => by cases h) r

/-- Of HOST's actions only RDBUF can fault, at an element of BUF that holds no value. -/
theorem hostAct_fault {a : HostAction} {s : State} {r : Fault} (h : hostAct a s = .fault r) :
    a = .readBuf ∧ ∃ i, r = .noValue .buf i ∧ s.buf.read i = none := by
  cases a with
  | frame f => exact absurd h (present_not_fault f s r)
  | reset => cases h
  | writeBuf len vs =>
    rw [hostAct_writeBuf, hostWriteBuf] at h
    (repeat' split at h) <;> cases h
  | readBuf =>
    rw [hostAct_readBuf, hostReadBuf] at h
    split at h
    · cases h
    split at h
    · cases h
    rcases withRange_fault h with ⟨i, _, hr, hf⟩ | ⟨_, _, hk⟩
    · exact ⟨rfl, i, hf, hr⟩
    · cases hk
  | readCsr k => cases h

/-- Settles O35: the ranges a micro-operation reads have been written, but for BUF. -/
theorem onlyBufCanBeUnwritten : Obligations.OnlyBufCanBeUnwritten := by
  intro s r ⟨_, _, _, _, _, hwritten, _⟩ hstep
  obtain ⟨_, ⟨arr, scr, rfl⟩, hs⟩ := step_eq_cases s
  rcases hs with ⟨a, ha, he⟩ | ⟨_, i, hm, he⟩ | ⟨_, he⟩ <;> rw [he] at hstep
  · obtain ⟨rfl, j, hr, hread⟩ := hostAct_fault hstep
    exact ⟨j, hr, hread, .inr ha⟩
  · obtain ⟨hp, j, hr, hread⟩ := micro_fault (s := (s.setArrivals arr).setScript scr) hwritten hm hstep
    exact ⟨j, hr, hread, .inl hp⟩
  · cases hstep

/-- Settles O53: M is `innerSize N`, a power of two. -/
theorem attachedLengthIsM : Obligations.AttachedLengthIsM := by
  refine ⟨fun s ⟨_, _, _, hsizes, _⟩ hp => ?_, fun a1 k => capabilityOf_length⟩
  obtain ⟨_, hmax, hm, _⟩ := hsizes hp
  obtain ⟨k, hk⟩ := innerSize_pow hmax
  exact ⟨capabilityOf_length (hm.trans hk), k, hm.trans hk⟩

/-! STATUS. -/

/-- STATUS is a function of PHASE and GUARD (R19). -/
def statusOf (p : Phase) (g : Bool) : BitVec 8 :=
  0#1 ++ BitVec.ofBool (p == .fatal) ++ BitVec.ofBool (p == .idle) ++ BitVec.ofBool g ++ p.code

theorem status_eq (s : State) : s.status = statusOf s.phase s.guard := rfl

theorem statusOf_fields (p : Phase) (g : Bool) : (statusOf p g).extractLsb' 0 4 = p.code ∧
    (statusOf p g).getLsbD 4 = g ∧ (statusOf p g).getLsbD 5 = decide (p = .idle) ∧
    (statusOf p g).getLsbD 6 = decide (p = .fatal) ∧ (statusOf p g).getLsbD 7 = false := by
  revert g
  cases p <;> decide

/-- Settles O27. -/
theorem statusFields : Obligations.StatusFields := ⟨fun s => statusOf_fields s.phase s.guard, by decide⟩

/-- Settles O28: GUARD is determined by PHASE except in FATAL, where it may have either value. -/
theorem statusValues : Obligations.StatusValues := by
  intro s ⟨_, hguard, _⟩
  rw [status_eq]
  by_cases hf : s.phase = .fatal
  · rw [hf]
    cases s.guard <;> decide
  · rw [hguard hf]
    cases hp : s.phase <;> decide

end Sys2Proof.Proofs
end

section
/-! What HOST's actions and the eight commands leave unchanged (R22, R26, R42, R130, R160), and the moves of PHASE, of the
cause and of the tables in a step (R14, R20, R27). -/

namespace Sys2Proof.Proofs

open Machine Safety

/-! One step. -/

/-- What a frame moves PHASE to, in an engine whose GUARD is 1 in the busy phases. -/
theorem phase_of_frameEffect {f : Frame} {s t : State} (hg : GuardMatchesPhase s) (h : FrameEffect f s t) :
    t.phase = s.phase ∨ t.phase = .fatal ∨ (s.phase, t.phase) ∈ advances := by
  rcases h with ⟨_, rfl⟩ | ⟨_, _, _, rfl⟩ | ⟨_, _, rfl⟩ | ⟨hph, _, _, _, _, rfl⟩ | ⟨hu, hf, hguard, _, rfl⟩
  · exact .inl rfl
  · exact .inr (.inl rfl)
  · exact .inl rfl
  · rw [hph]
    exact .inr (.inr (by decide : (Phase.uncon, Phase.cXgen) ∈ advances))
  · rw [phase_idle_of_guard hg hu hf hguard]
    exact .inr (.inr (by decide : (Phase.idle, Phase.tMod) ∈ advances))

/-- Settles O32. -/
theorem phaseTransitions : Obligations.PhaseTransitions := by
  intro s t hg hstep
  obtain ⟨_, ⟨arr, scr, rfl⟩, hs⟩ := step_eq_cases s
  rcases hs with ⟨a, ha, he⟩ | ⟨ha, i, hm, he⟩ | ⟨ha, he⟩ <;> rw [he] at hstep <;> rw [ha]
  · rcases hostAct_cases hstep with ⟨rfl, rfl⟩ | ⟨f, rfl, hf⟩ | ⟨hne, ⟨_, _, _, _, _, hp, _⟩, _⟩
    · exact .inl ⟨rfl, rfl⟩
    · exact .inr ⟨nofun, phase_of_frameEffect (s := (s.setArrivals arr).setScript scr) hg (present_cases hf)⟩
    · exact .inr ⟨by simpa using hne, .inl hp⟩
  · obtain ⟨_, hadv, _⟩ := micro_registers hm hstep
    exact .inr ⟨nofun, .inr (.inr hadv)⟩
  · cases hstep
    exact .inr ⟨nofun, .inl rfl⟩

/-- A frame writes FCODE and FCMD where it stops the engine, and nowhere else. -/
theorem cause_of_frameEffect {f : Frame} {s t : State} (h : FrameEffect f s t) :
    (t.fcode = s.fcode ∧ t.fcmd = s.fcmd) ∨ (s.phase ≠ .fatal ∧ t.phase = .fatal) := by
  rcases h with ⟨_, rfl⟩ | ⟨hf, _, _, rfl⟩ | ⟨_, _, rfl⟩ | ⟨_, _, _, _, _, rfl⟩ | ⟨_, _, _, _, rfl⟩
  · exact .inl ⟨rfl, rfl⟩
  · exact .inr ⟨hf, rfl⟩
  all_goals exact .inl ⟨rfl, rfl⟩

/-- Settles O37. -/
theorem causeWrittenOnce : Obligations.CauseWrittenOnce := by
  intro s t hstep hne
  obtain ⟨_, ⟨arr, scr, rfl⟩, hs⟩ := step_eq_cases s
  rcases hs with ⟨a, ha, he⟩ | ⟨_, i, hm, he⟩ | ⟨_, he⟩ <;> rw [he] at hstep
  · rcases hostAct_cases hstep with ⟨rfl, _⟩ | ⟨f, _, hf⟩ | ⟨_, ⟨_, _, _, _, _, _, _, hc, hcmd, _⟩, _⟩
    · exact absurd ha hne
    · exact cause_of_frameEffect (s := (s.setArrivals arr).setScript scr) (present_cases hf)
    · exact .inl ⟨hc, hcmd⟩
  · obtain ⟨⟨_, _, _, _, _, hc, hcmd, _⟩, _⟩ := micro_registers hm hstep
    exact .inl ⟨hc, hcmd⟩
  · cases hstep
    exact .inl ⟨rfl, rfl⟩

/-- The tables, N and M are those of `s`. -/
def SameTables (s t : State) : Prop :=
  t.xf = s.xf ∧ t.xi = s.xi ∧ t.wf = s.wf ∧ t.wi = s.wi ∧ t.n = s.n ∧ t.m = s.m

/-- A frame that does not stop a constructed engine writes no table. -/
theorem sameTables_of_frameEffect {f : Frame} {s t : State} (h : FrameEffect f s t) (hu : s.phase ≠ .uncon)
    (ht : t.phase ≠ .fatal) : SameTables s t := by
  rcases h with ⟨_, rfl⟩ | ⟨_, _, _, rfl⟩ | ⟨_, _, rfl⟩ | ⟨hp, _⟩ | ⟨_, _, _, _, rfl⟩
  · exact ⟨rfl, rfl, rfl, rfl, rfl, rfl⟩
  · exact absurd rfl ht
  · exact ⟨rfl, rfl, rfl, rfl, rfl, rfl⟩
  · exact absurd hp hu
  · exact ⟨rfl, rfl, rfl, rfl, rfl, rfl⟩

/-- The micro-operations of a transform write SCR and BUF alone. -/
theorem writtenSpaces_of_transforming {p : Phase} (h : p.transforming = true) {sp : Space}
    (hsp : sp ∈ writtenSpaces p) : sp = .scr ∨ sp = .buf := by
  cases p <;> simp_all [Phase.transforming, writtenSpaces]

theorem micro_sameTables {s t : State} {i : Instr} (hp : s.phase.transforming = true)
    (hm : s.phase.microOp = some i) (he : exec i s = .next t) : SameTables s t := by
  obtain ⟨⟨hn, hm', _⟩, _⟩ := micro_registers hm he
  have hkeep : ∀ sp, sp ≠ .scr → sp ≠ .buf → t.space sp = s.space sp := fun sp h1 h2 =>
    (micro_writes hm he).keeps fun hsp => (writtenSpaces_of_transforming hp hsp).elim h1 h2
  exact ⟨hkeep .xf nofun nofun, hkeep .xi nofun nofun, hkeep .wf nofun nofun, hkeep .wi nofun nofun, hn, hm'⟩

/-- Settles O36: a transform writes SCR and BUF alone, and a frame that does not stop it no space. -/
theorem tablesAreImmutable : Obligations.TablesAreImmutable := by
  refine ⟨fun s t hp hstep ht hne => ?_, fun a s t hf hr he => ?_⟩
  · obtain ⟨_, ⟨arr, scr, rfl⟩, hs⟩ := step_eq_cases s
    have hu : s.phase ≠ .uncon := by rintro h; simp [h, Phase.transforming] at hp
    rcases hs with ⟨a, ha, he⟩ | ⟨_, i, hm, he⟩ | ⟨_, he⟩ <;> rw [he] at hstep
    · rcases hostAct_cases hstep with ⟨rfl, _⟩ | ⟨f, _, hf⟩ | ⟨_, hsame, _⟩
      · exact absurd ha hne
      · exact sameTables_of_frameEffect (s := (s.setArrivals arr).setScript scr) (present_cases hf) hu ht
      · obtain ⟨hn, hm, _, _, _, _, _, _, _, _, _, _, hxf, hxi, hwf, hwi, _⟩ := hsame
        exact ⟨hxf, hxi, hwf, hwi, hn, hm⟩
    · rcases hp with hp | hp
      · simp only [State.phase_setScript, State.phase_setArrivals, hp] at hm
        cases hm
      · exact micro_sameTables (s := (s.setArrivals arr).setScript scr) hp hm hstep
    · cases hstep
      exact ⟨rfl, rfl, rfl, rfl, rfl, rfl⟩
  · rcases hostAct_cases he with ⟨rfl, _⟩ | ⟨f, rfl, _⟩ | ⟨_, hs, _⟩
    · exact absurd rfl hr
    · exact absurd rfl (hf f)
    · exact hs

/-- Settles O31. -/
theorem stepRunsDecoded : Obligations.StepRunsDecoded := by
  refine ⟨fun s i ha hi => ?_, fun s f rest i hb hs hd => ?_, fun s f rest i ha hd => ?_,
    fun s w rest hb hs => step_later hb hs, fun s hb hs => step_rest hb hs⟩
  · have hstep := step_micro ha (microOp_of_decodeMicro hi)
    exact ⟨hstep, fun h => by rw [hstep, passArrivals_nil h]⟩
  · rw [step_host hb hs, hostAct_frame, present_ok hd]
  · rw [step_arrival ha, hostAct_frame, present_ok hd]

/-! HOST's actions. -/

/-- Settles O26. -/
theorem resetValues : Obligations.ResetValues := by
  intro s
  refine ⟨_, hostAct_reset s, rfl, rfl, rfl, rfl, (by decide : statusOf .uncon false = 0x00#8), rfl, rfl, rfl,
    fun sp hsp i => ?_, fun _ => rfl⟩
  cases sp
  case buf => exact absurd rfl hsp
  all_goals rfl

/-- Settles O29. -/
theorem statusPortReads : Obligations.StatusPortReads := by
  intro s k
  refine ⟨_, s.port k, hostAct_readCsr k s, rfl, by simp [SameEngine, hostReadCsr], rfl, rfl, rfl, ?_⟩
  refine ⟨?_, ?_, ?_, ?_, ?_, ?_, ?_⟩ <;> rintro rfl
  · rfl
  · intro hh hp; simp [State.port, State.sizesReadable, State.fatalF, hh, hp]
  · intro hh hp; simp [State.port, State.sizesReadable, State.fatalF, hh, hp]
  · intro hh hp; simp [State.port, State.kindReadable, State.fatalF, hh, hp]
  · rfl
  · rfl
  · intro hh hp; simp [State.port, State.resultReadable, State.fatalF, hh, hp]

theorem read_writeFrom_nil (vs : List C) (i : Nat) : (Memory.writeFrom [] 0 vs).read i = vs[i]? := by
  simp [read_writeFrom]

/-- A list written to an empty space is read back whole. -/
theorem readRange_writeFrom_nil (vs : List C) {n : Nat} (h : vs.length = n) :
    ∃ v : Vector C n, (Memory.writeFrom [] 0 vs).readRange n = .ok v ∧ samples v = vs := by
  subst h
  refine ⟨⟨vs.toArray, rfl⟩, (readRange_ok_iff _ _ _).mpr fun i hi => ?_, List.ext_getElem (by simp) fun i _ _ => by simp⟩
  rw [read_writeFrom_nil, List.getElem?_eq_getElem hi]
  rfl

/-- Settles O30. -/
theorem hostOwnsBuf : Obligations.HostOwnsBuf := by
  intro s len vs hlen
  refine ⟨fun hg => ?_, fun hg => ?_⟩
  · refine ⟨s.replaceBuf len (Memory.writeFrom [] 0 vs), ?_, by simp [SameEngine], read_writeFrom_nil vs, fun hp => ?_⟩
    · simp [hostAct_writeBuf, hostWriteBuf, hg, hlen]
    · obtain ⟨v, hv, hvs⟩ := readRange_writeFrom_nil vs hlen
      refine ⟨(s.replaceBuf len (Memory.writeFrom [] 0 vs)).logRead (.buf vs), ?_, rfl, by simp [SameEngine]⟩
      rw [hostAct_readBuf, hostReadBuf, if_neg (by simp [hg]), if_neg (by simpa using hp), ← hvs]
      exact withRange_ok (sp := .buf) (by simpa [hvs] using hv)
  · simp [hostAct_writeBuf, hostAct_readBuf, hostWriteBuf, hostReadBuf, hg]

/-! The order of the elements of a pass. -/

theorem wf_foldl_write (f : Nat → C) (l : List Nat) {mem : Memory RealScalar} (h : mem.wf) :
    (l.foldl (fun m i => m.write i (f i)) mem).wf := by
  induction l generalizing mem with
  | nil => exact h
  | cons j l ih => exact ih (wf_write h j (f j))

theorem read_foldl_write (f : Nat → C) (l : List Nat) (mem : Memory RealScalar) (i : Nat) :
    (l.foldl (fun m i => m.write i (f i)) mem).read i = if i ∈ l then some (f i) else mem.read i := by
  induction l generalizing mem with
  | nil => simp
  | cons j l ih =>
    rw [List.foldl_cons, ih, read_write]
    by_cases hl : i ∈ l
    · simp [hl]
    · by_cases hj : i = j <;> simp [hl, hj]

/-- Settles O38: both orders leave the same canonical memory, for they read alike at every index. -/
theorem elementOrderIsUnobservable : Obligations.ElementOrderIsUnobservable := by
  intro mem f l l' hwf hl
  refine wf_ext (wf_foldl_write f l hwf) (wf_foldl_write f l' hwf) fun i => ?_
  rw [read_foldl_write, read_foldl_write]
  simp only [hl.mem_iff]

/-! The frames of the eight commands. -/

/-- What any command keeps: HOST's queues, the x-tables, and with GUARD = 0 every space (R130). -/
def KeepsSpaces (s t : State) : Prop :=
  t.script = s.script ∧ t.arrivals = s.arrivals ∧ t.reads = s.reads ∧ t.bufLen = s.bufLen ∧
  (s.guard = false → SameSpacesBut [] s t) ∧ ∀ sp, sp = .xf ∨ sp = .xi → t.space sp = s.space sp

theorem keepsSpaces_raiseFatal (code : FatalCode) (cmd : Byte) (s : State) : KeepsSpaces s (raiseFatal code cmd s) := by
  obtain ⟨_, _, _, _, _, _, _, _, hb, hs, ha, hr⟩ := raiseFatal_keeps code cmd s
  refine ⟨hs, ha, hr, hb, fun hg sp _ i => ?_, fun sp hsp => ?_⟩
  · rw [raiseFatal_space, State.abandon_idle hg]
  · rw [raiseFatal_space, abandon_keeps_xTables s hsp]

theorem command_next {cmd : Byte} {checks : List (Bool × FatalCode)} {effect : State → Result} {s t : State}
    (h : command cmd checks effect s = .next t) :
    t = s ∨ (∃ code, t = raiseFatal code cmd s) ∨ (firstFailing checks = none ∧ effect s = .next t) := by
  rcases command_cases cmd checks effect s with ⟨_, e⟩ | ⟨_, code, _, e⟩ | ⟨_, hc, e⟩ <;> rw [e] at h
  · cases h; exact .inl rfl
  · cases h; exact .inr (.inl ⟨code, rfl⟩)
  · exact .inr (.inr ⟨hc, h⟩)

/-- What a legal frame that answers has done, by its command byte. -/
theorem exec_frame_next {f : Frame} {i : Instr} {s t : State} (hd : decode f = .ok i) (he : exec i s = .next t) :
    t = s ∨ (∃ code, t = raiseFatal code f.cmd s) ∨
    (f.cmd = 0x10#8 ∧ s.phase = .uncon ∧ ∃ n m, t = (s.setSizes n m).begin .cXgen) ∨
    ((f.cmd = 0x20#8 ∨ f.cmd = 0x40#8) ∧ ∃ w, t = s.setResult w) ∨
    (f.cmd ∈ [0x30#8, 0x31#8, 0x32#8, 0x33#8, 0x34#8] ∧ ∃ k x, t = (s.setKind k x).begin .tMod) := by
  rcases exec_frame hd with ⟨n, l, a, b, c, d, e, rfl, hc⟩ | ⟨rfl, hc⟩ | ⟨n, rfl, hc⟩ | ⟨k, w, _, hc, hx⟩
  · rw [exec_construct_next, ← hc] at he
    refine (command_next he).imp_right (Or.imp_right fun ⟨hpass, h⟩ => ?_)
    have hu := (firstFailing_none_iff _).mp hpass (s.phase != .uncon, .alreadyConstructed) (by simp [constructChecks])
    cases h
    exact .inl ⟨hc, by simpa using hu, _, _, rfl⟩
  · rw [exec_size, ← hc] at he
    refine (command_next he).imp_right (Or.imp_right fun ⟨_, h⟩ => ?_)
    cases h
    exact .inr (.inl ⟨.inl hc, _, rfl⟩)
  · rw [exec_isize, ← hc] at he
    refine (command_next he).imp_right (Or.imp_right fun ⟨_, h⟩ => ?_)
    cases h
    exact .inr (.inl ⟨.inr hc, _, rfl⟩)
  · rw [hx] at he
    refine (command_next he).imp_right (Or.imp_right fun ⟨_, h⟩ => ?_)
    cases h
    exact .inr (.inr ⟨hc, _, _, rfl⟩)

theorem keepsSpaces_exec {f : Frame} {i : Instr} {s t : State} (hd : decode f = .ok i) (he : exec i s = .next t) :
    KeepsSpaces s t := by
  have hsame : ∀ u : State, KeepsSpaces u u := fun _ => ⟨rfl, rfl, rfl, rfl, fun _ _ _ _ => rfl, fun _ _ => rfl⟩
  rcases exec_frame_next hd he with rfl | ⟨code, rfl⟩ | ⟨_, _, _, _, rfl⟩ | ⟨_, _, rfl⟩ | ⟨_, _, _, rfl⟩
  · exact hsame _
  · exact keepsSpaces_raiseFatal code f.cmd s
  all_goals exact hsame s

/-- Settles O10: in each outcome of a command the registers that differ are those its state update names. -/
theorem commandFrames : Obligations.CommandFrames := by
  intro f i s t hd he xforms
  obtain ⟨hs, ha, hr, hb, hg, hx⟩ := keepsSpaces_exec hd he
  refine ⟨hs, ha, hr, hb, hg, hx, ?_⟩
  rcases exec_frame_next hd he with rfl | ⟨code, rfl⟩ | ⟨hc, hu, n, m, rfl⟩ | ⟨hc, w, rfl⟩ | ⟨hc, k, x, rfl⟩
  · simp
  · simp [raiseFatal_keeps]
  · simp [State.begin, hc, hu]
  · simp [hc]
  · simp [State.begin, xforms, hc]

end Sys2Proof.Proofs
end

section
/-! The encodings (R60 to R64, R67): the decoders undo the encoder and the encoder undoes them, and the command bytes
that are in no row of the opcode map. -/

namespace Sys2Proof.Proofs

open Machine Safety

/-! The encoder undoes the decoders. -/

/-- A frame of one operand word is the code of `mk` of that word, when `mk` is encoded under the same command byte. -/
theorem encode_of_decodeOne {cmd : Byte} {ops : List Word} {mk : Word → Instr} {i : Instr}
    (hmk : ∀ w, encode (mk w) = .h ⟨cmd, [w]⟩) (h : decodeOne cmd ops mk = .ok i) : encode i = .h ⟨cmd, ops⟩ := by
  unfold decodeOne at h
  split at h
  · cases h
    exact hmk _
  · cases h

/-- Format H (R62, R63): each of the eight command bytes fixes the operands the encoder writes again. -/
theorem encode_of_decode {f : Frame} {i : Instr} (h : decode f = .ok i) : encode i = .h f := by
  obtain ⟨cmd, ops⟩ := f
  simp only [decode] at h
  obtain ⟨rfl, h⟩ | ⟨-, h⟩ := ite_eq_iff.mp h
  · split at h <;> cases h
    rfl
  obtain ⟨rfl, h⟩ | ⟨-, h⟩ := ite_eq_iff.mp h
  · split at h <;> cases h
    rfl
  iterate 6
    obtain ⟨rfl, h⟩ | ⟨-, h⟩ := ite_eq_iff.mp h
    · exact encode_of_decodeOne (fun _ => rfl) h
  cases h

/-- Format U (R64): each of the ten phase codes selects the micro-operation it encodes. -/
theorem encode_of_decodeMicro {c : BitVec 4} {i : Instr} (h : decodeMicro c = .ok i) : encode i = .u c := by
  unfold decodeMicro at h
  iterate 10
    obtain ⟨rfl, ⟨⟩⟩ | ⟨-, h⟩ := ite_eq_iff.mp h
    · rfl
  cases h

theorem encode_of_decodeCode {c : Code} {i : Instr} (h : decodeCode c = .ok i) : encode i = c := by
  cases c with
  | h f => exact encode_of_decode h
  | u c => exact encode_of_decodeMicro h

/-! The decoders undo the encoder. -/

theorem decodeCode_encode (i : Instr) : decodeCode (encode i) = .ok i := by
  cases i <;> rfl

/-- Settles O1. -/
theorem decoderAndEncoderAgree : Obligations.DecoderAndEncoderAgree :=
  ⟨decodeCode_encode, fun _ _ h => (encode_of_decodeCode h).symm⟩

/-- Settles O2: each word is one row of a table. -/
theorem tableWordsDecode : Obligations.TableWordsDecode :=
  ⟨fun _ _ _ _ _ _ _ => rfl, rfl, fun _ => ⟨rfl, rfl⟩, rfl, rfl, fun _ => rfl⟩

/-! The illegal command bytes. -/

/-- R67 over the fields of R61: the bytes in no row of R63 are those of an opcode that has none, with `z` set, or of a
kind their opcode does not have. -/
theorem operandWords_none_iff (cmd : Byte) :
    Cmd.operandWords cmd = none ↔
      (Cmd.op cmd = 0#4 ∨ 5 ≤ (Cmd.op cmd).toNat ∨ Cmd.z cmd = true ∨
        (Cmd.op cmd ∈ [1#4, 2#4, 4#4] ∧ Cmd.kind cmd ≠ 0#3) ∨
        (Cmd.op cmd = 3#4 ∧ 5 ≤ (Cmd.kind cmd).toNat)) := by
  revert cmd
  decide +kernel

/-- A frame whose byte is illegal stops the engine, in every phase but FATAL (R190). -/
theorem present_illegal_stops {f : Frame} {s : State} (hd : decode f = .error (.illegalCmd f.cmd))
    (hs : s.phase ≠ .fatal) : present f s = .next (raiseFatal .illegalCmd f.cmd s) := by
  rw [present_illegal hd]
  exact command_stop hs rfl

/-- Settles O3: the byte alone decides (R63), and the stop is the shared one (R192). -/
theorem illegalCommandBytes : Obligations.IllegalCommandBytes :=
  ⟨fun f => (decode_illegal_iff f).trans (operandWords_none_iff f.cmd), by decide +kernel, fun _ => rfl,
    fun _ _ hd hs => ⟨_, present_illegal_stops hd hs, raiseFatal_stoppedAt _ _ _⟩⟩

end Sys2Proof.Proofs
end

section
/-! The inner size: the least power of two that is at least `2n-1` (R95). -/

namespace Sys2Proof.Proofs

open Machine

/-- `innerSize` is the least power of two that holds the convolution. -/
theorem innerSize_least {n : Nat} (h : n ≤ Config.nMax) :
    ∃ k, innerSize n = 2 ^ k ∧ 2 * n - 1 ≤ 2 ^ k ∧ ∀ j, j < k → 2 ^ j < 2 * n - 1 := by
  have hfuel : 2 * n - 1 ≤ 2 ^ Config.sizeW * 1 := by
    simp only [Config.nMax, Config.sizeW] at h ⊢
    omega
  obtain ⟨hle, k, _, hk, hj⟩ := doubleUntil_spec (2 * n - 1) Config.sizeW 1 hfuel
  simp only [Nat.mul_one] at hk hj
  exact ⟨k, hk, hk ▸ hle, hj⟩

theorem innerSize_one : innerSize 1 = 1 := by decide

/-- From `n = 2` on the inner size is even, and its half does not hold the convolution. -/
theorem innerSize_eq_two_mul {n : Nat} (h2 : 2 ≤ n) (h : n ≤ Config.nMax) :
    ∃ p, innerSize n = 2 * p ∧ p < 2 * n - 1 := by
  obtain ⟨k, hk, hle, hj⟩ := innerSize_least h
  cases k with
  | zero => omega
  | succ k => exact ⟨2 ^ k, by rw [hk, Nat.pow_succ'], hj k (Nat.lt_succ_self k)⟩

theorem innerSize_le_two_pow {n : Nat} (h : n ≤ Config.nMax) : innerSize n ≤ 2 ^ (Config.sizeW - 1) := by
  obtain ⟨k, hk⟩ := innerSize_pow h
  have hlt := innerSize_lt h
  rw [hk] at hlt ⊢
  have := (Nat.pow_lt_pow_iff_right (by norm_num : 1 < 2)).mp hlt
  exact Nat.pow_le_pow_right (by norm_num) (by simp only [Config.sizeW]; omega)

/-- Settles O39: `2n-1` is odd, and from `n = 2` on the inner size is even. -/
theorem innerSizeProperties : Obligations.InnerSizeProperties := by
  intro n h1 hmax
  have hle := two_mul_sub_one_le_innerSize hmax
  refine ⟨innerSize_pow hmax, hle, ?_, ?_, by omega, innerSize_le_two_pow hmax⟩
  all_goals
    obtain rfl | h2 : n = 1 ∨ 2 ≤ n := by omega
    · simp [innerSize_one]
    · obtain ⟨p, hp, hlt⟩ := innerSize_eq_two_mul h2 hmax
      omega

end Sys2Proof.Proofs
end

section
/-! The floating-point formats of R81: multiplication and addition are symmetric in operands that are no NaN, and a
product with one is exact, because a number of the format is its own rounding (R82, U3). -/

namespace Sys2Proof.Machine

namespace FloatFmt

variable {f : FloatFmt} {a b : Nat}

/-! Commutativity. -/

theorem mul_comm_of_ne_nan (ha : f.unpack a ≠ .nan) (hb : f.unpack b ≠ .nan) : f.mul a b = f.mul b a := by
  unfold FloatFmt.mul
  cases hva : f.unpack a with
  | nan => exact absurd hva ha
  | inf s =>
    cases hvb : f.unpack b with
    | nan => exact absurd hvb hb
    | inf t => simp only [bne_comm]
    | fin t k d => simp only [bne_comm]
  | fin s m e =>
    cases hvb : f.unpack b with
    | nan => exact absurd hvb hb
    | inf t => simp only [bne_comm]
    | fin t k d => simp only [bne_comm, Nat.mul_comm, Int.add_comm]

theorem add_comm_of_ne_nan (ha : f.unpack a ≠ .nan) (hb : f.unpack b ≠ .nan) : f.add a b = f.add b a := by
  unfold FloatFmt.add
  cases hva : f.unpack a with
  | nan => exact absurd hva ha
  | inf s =>
    cases hvb : f.unpack b with
    | nan => exact absurd hvb hb
    | inf t => by_cases h : s = t <;> simp [h, eq_comm]
    | fin t k d => rfl
  | fin s m e =>
    cases hvb : f.unpack b with
    | nan => exact absurd hvb hb
    | inf t => rfl
    | fin t k d => simp only [min_comm, Int.add_comm, Bool.and_comm]

/-! What a pattern stands for, as an equation about its sign and its magnitude. -/

theorem unpack_inf {s : Bool} (h : f.unpack a = .inf s) :
    s = decide (f.signBit ≤ a) ∧ a % f.signBit = f.infBits := by
  simp only [unpack] at h
  split_ifs at h
  simp_all

/-- A finite pattern's magnitude is `x * 2^fracBits + man`, where `x` is the exponent counted from the subnormals' one
and `man` has its leading bit unless `x = 0`. -/
theorem unpack_fin {s : Bool} {m : Nat} {e : Int} (h : f.unpack a = .fin s m e) :
    s = decide (f.signBit ≤ a) ∧ ∃ x : Nat, e = f.minExp + x ∧ x * 2 ^ f.fracBits + m = a % f.signBit ∧
      a % f.signBit < f.infBits ∧ m < 2 ^ (f.fracBits + 1) ∧ (x = 0 ∨ 2 ^ f.fracBits ≤ m) := by
  have hfrac : a % f.signBit % 2 ^ f.fracBits < 2 ^ f.fracBits := Nat.mod_lt _ (by positivity)
  have hmag := Nat.div_add_mod' (a % f.signBit) (2 ^ f.fracBits)
  simp only [unpack] at h
  split_ifs at h with hnan hinf hsub
  all_goals
    simp only [FloatVal.fin.injEq] at h
    obtain ⟨rfl, rfl, rfl⟩ := h
  · rw [hsub] at hmag
    exact ⟨rfl, 0, by simp, by omega, by omega, by omega, .inl rfl⟩
  · obtain ⟨x, hx⟩ := Nat.exists_eq_succ_of_ne_zero hsub
    rw [hx, Nat.succ_mul] at hmag
    exact ⟨rfl, x, by rw [hx]; rfl, by omega, by omega, by omega, .inr (by omega)⟩

theorem withSign_mod_signBit (h : a < 2 * f.signBit) :
    f.withSign (decide (f.signBit ≤ a)) (a % f.signBit) = a := by
  unfold withSign
  by_cases hs : f.signBit ≤ a
  · have hmod : a % f.signBit = a - f.signBit := by rw [Nat.mod_eq_sub_mod hs, Nat.mod_eq_of_lt (by omega)]
    simp only [hs, hmod, decide_true, if_true]
    omega
  · simp [hs, Nat.mod_eq_of_lt (Nat.lt_of_not_le hs)]

/-! Rounding. -/

/-- An exact quotient is not rounded. -/
theorem roundQuotient_mul_two_pow (m j : Nat) : roundQuotient (m * 2 ^ j) 1 (-j) = m := by
  have hpos : 0 < 2 ^ j := by positivity
  simp [roundQuotient, hpos.ne]

theorem log2_mul_two_pow {m : Nat} (hm : m ≠ 0) (j : Nat) : Nat.log2 (m * 2 ^ j) = Nat.log2 m + j := by
  induction j with
  | zero => simp
  | succ j ih =>
    rw [Nat.pow_succ, ← Nat.mul_assoc, Nat.log2_eq_log_two, Nat.log_mul_base (by norm_num) (by positivity),
      ← Nat.log2_eq_log_two, ih, Nat.add_assoc]

/-- A number of the format, written with `j` more bits, is rounded to itself. -/
theorem round_exact (s : Bool) {m x : Nat} (j : Nat) (hm : m < 2 ^ (f.fracBits + 1))
    (hx : x = 0 ∨ 2 ^ f.fracBits ≤ m) :
    f.round s (m * 2 ^ j) 1 (f.minExp + x - j) =
      f.withSign s (min (x * 2 ^ f.fracBits + m) f.infBits) := by
  have hpow : 0 < 2 ^ f.fracBits := by positivity
  by_cases h0 : m = 0
  · have : x = 0 := by omega
    simp [FloatFmt.round, h0, this]
  have hnum : m * 2 ^ j ≠ 0 := by positivity
  have hle : 2 ^ Nat.log2 (m * 2 ^ j) ≤ m * 2 ^ j := Nat.log2_self_le hnum
  have hlog : Nat.log2 m ≤ f.fracBits := Nat.lt_succ_iff.mp ((Nat.log2_lt h0).mpr hm)
  have hexp : max ((Nat.log2 (m * 2 ^ j) : Int) + (f.minExp + x - j) - f.fracBits) f.minExp = f.minExp + x := by
    rw [log2_mul_two_pow h0]
    rcases hx with rfl | hx
    · omega
    · have : f.fracBits ≤ Nat.log2 m := (Nat.le_log2 h0).mpr hx
      omega
  have hshift : f.minExp + x - j - (f.minExp + x) = -(j : Int) := by omega
  have hx' : (f.minExp + x - f.minExp).toNat = x := by omega
  have hone : Nat.log2 1 = 0 := by decide
  simp only [FloatFmt.round, hnum, if_false, hone, Nat.cast_zero, sub_zero, Int.toNat_natCast, one_mul]
  simp only [Int.toNat_neg_natCast, pow_zero, mul_one, hle, if_true, hexp, hshift, hx', roundQuotient_mul_two_pow]

/-! A product with one. -/

theorem mul_one_of_not_signalling (ha : a < 2 * f.signBit) (hb : f.unpack b = .fin false (2 ^ f.fracBits) (-f.fracBits))
    (hs : f.signalling a = false) : f.mul a b = a := by
  unfold FloatFmt.mul
  rw [hb]
  cases hva : f.unpack a with
  | nan => simpa [signalling, hva] using hs
  | inf s =>
    obtain ⟨rfl, hmag⟩ := unpack_inf hva
    simpa [← hmag] using withSign_mod_signBit ha
  | fin s m e =>
    obtain ⟨rfl, x, rfl, hmag, hlt, hm, hx⟩ := unpack_fin hva
    have hround := round_exact (f := f) (decide (f.signBit ≤ a)) f.fracBits hm hx
    rw [hmag, min_eq_left hlt.le, withSign_mod_signBit ha] at hround
    simpa [← sub_eq_add_neg] using hround

end FloatFmt

end Sys2Proof.Machine

namespace Sys2Proof.Proofs

open Machine

theorem unpack_numF64_one : binary64.unpack numF64.one.toNat = .fin false (2 ^ 52) (-52) := by decide +kernel

theorem unpack_numF32_one : binary32.unpack numF32.one.toNat = .fin false (2 ^ 23) (-23) := by decide +kernel

/-- Settles O56: each operation is that of the format on the patterns. -/
theorem roundedInstanceProperties : Obligations.RoundedInstanceProperties := by
  refine ⟨fun a b ha hb => ⟨?_, ?_⟩, fun a ha => ?_, fun a b ha hb => ⟨?_, ?_⟩, fun a ha => ?_⟩
  · exact congrArg (BitVec.ofNat _) (FloatFmt.mul_comm_of_ne_nan ha hb)
  · exact congrArg (BitVec.ofNat _) (FloatFmt.add_comm_of_ne_nan ha hb)
  · exact (congrArg (BitVec.ofNat 64) (FloatFmt.mul_one_of_not_signalling a.isLt unpack_numF64_one ha)).trans
      (by simp)
  · exact congrArg (BitVec.ofNat _) (FloatFmt.mul_comm_of_ne_nan ha hb)
  · exact congrArg (BitVec.ofNat _) (FloatFmt.add_comm_of_ne_nan ha hb)
  · exact (congrArg (BitVec.ofNat 32) (FloatFmt.mul_one_of_not_signalling a.isLt unpack_numF32_one ha)).trans
      (by simp)

end Sys2Proof.Proofs
end

section
/-! The real numbers: the number system and multiplier, the twiddles, and that the exact DFT is inverted by the exact
inverse DFT, so that a transform over the real numbers makes no error (R82, R87, R91, R97, R162). -/

namespace Sys2Proof.Ideal

open Machine

/-! The DFT is inverted by the one of the other kernel sign. -/

/-- The sequence of a DFT's entries. -/
noncomputable def dft (sigma : ℝ) {n : Nat} (u : Vector (Sample ℝ) n) : Vector (Sample ℝ) n :=
  Vector.ofFn fun k => ofComplex (dftEntry sigma u k)

theorem exactDft_eq_dft (n : Nat) (u : Vector (Sample ℝ) n) : exactDft n u = dft (-1) u := rfl

@[simp] theorem toComplex_dft (sigma : ℝ) {n : Nat} (u : Vector (Sample ℝ) n) (k : Fin n) :
    toComplex (dft sigma u)[k] = dftEntry sigma u k := by
  simp [dft]

/-- The powers of a root of unity sum to 0, but for the root 1. -/
theorem sum_cis {n : Nat} (hn : 1 ≤ n) (d : Int) :
    ∑ j : Fin n, cis (2 * Real.pi * d * j.val / n) = if (n : Int) ∣ d then (n : ℂ) else 0 := by
  have hroot := Complex.isPrimitiveRoot_exp n (by omega)
  set z := Complex.exp (2 * Real.pi * Complex.I / n) with hz
  have hterm : ∀ j : Nat, cis (2 * Real.pi * d * j / n) = (z ^ d) ^ j := fun j => by
    rw [cis, hz, ← Complex.exp_int_mul, ← Complex.exp_nat_mul]
    congr 1
    push_cast
    ring
  simp only [hterm]
  rw [Fin.sum_univ_eq_sum_range (fun j => (z ^ d) ^ j) n]
  split_ifs with hd
  · simp [(hroot.zpow_eq_one_iff_dvd d).mpr hd]
  · have hone : (z ^ d) ^ n = 1 := by rw [← zpow_natCast, zpow_comm, zpow_natCast, hroot.pow_eq_one, one_zpow]
    rw [geom_sum_eq (mt (hroot.zpow_eq_one_iff_dvd d).mp hd), hone, sub_self, zero_div]

theorem natCast_dvd_sub_iff_eq {n : Nat} (i k : Fin n) : (n : Int) ∣ (i.val : Int) - k.val ↔ i = k := by
  rw [← Nat.modEq_iff_dvd, Fin.ext_iff]
  exact ⟨fun h => (h.eq_of_lt_of_lt k.isLt i.isLt).symm, fun h => h ▸ rfl⟩

/-- The kernels of two indices are orthogonal. -/
theorem sum_cis_mul_cis {n : Nat} {sigma : ℝ} (hs : sigma = 1 ∨ sigma = -1) (i k : Fin n) :
    ∑ j : Fin n, cis (sigma * (2 * Real.pi * i.val * j.val / n)) * cis (-sigma * (2 * Real.pi * j.val * k.val / n)) =
      if i = k then (n : ℂ) else 0 := by
  obtain ⟨σ, hσ, hσu⟩ : ∃ σ : Int, sigma = σ ∧ IsUnit σ := by
    rcases hs with rfl | rfl
    · exact ⟨1, by simp, isUnit_one⟩
    · exact ⟨-1, by simp, isUnit_one.neg⟩
  have hterm : ∀ j : Fin n, cis (sigma * (2 * Real.pi * i.val * j.val / n)) *
      cis (-sigma * (2 * Real.pi * j.val * k.val / n)) =
        cis (2 * Real.pi * (σ * ((i.val : Int) - k.val) : Int) * j.val / n) := fun j => by
    rw [← cis_add, hσ]
    congr 1
    push_cast
    ring
  rw [Finset.sum_congr rfl fun j _ => hterm j, sum_cis (by have := i.isLt; omega)]
  simp only [hσu.dvd_mul_left, natCast_dvd_sub_iff_eq]

theorem dftEntry_neg_dft {n : Nat} {sigma : ℝ} (hs : sigma = 1 ∨ sigma = -1) (u : Vector (Sample ℝ) n) (k : Fin n) :
    dftEntry (-sigma) (dft sigma u) k = n * toComplex u[k] := by
  calc dftEntry (-sigma) (dft sigma u) k
      = ∑ j : Fin n, ∑ i : Fin n, toComplex u[i] * (cis (sigma * (2 * Real.pi * i.val * j.val / n)) *
          cis (-sigma * (2 * Real.pi * j.val * k.val / n))) := by
        simp only [dftEntry, toComplex_dft, Finset.sum_mul, mul_assoc]
    _ = ∑ i : Fin n, toComplex u[i] * if i = k then (n : ℂ) else 0 := by
        rw [Finset.sum_comm]
        simp only [← Finset.mul_sum, sum_cis_mul_cis hs]
    _ = n * toComplex u[k] := by simp [mul_comm]

/-! The transforms FFT and IFFT over the real numbers, with an exact inner capability (R144, R145). -/

section
variable {n m : Nat} {inner : InnerOps ℝ m} (hle : n ≤ m) (u : Vector (Sample ℝ) n) (hm : 2 * n - 1 ≤ m)
  (hconv : ConvThm inner) (hinv : InvFwd inner 1)
include hm hconv hinv

theorem bluestein_fft_eq_dft : bluestein numReal trigReal inner .fft hle u = dft (-1) u :=
  vector_ext fun i => by
    have hn : 1 ≤ n := by have := i.isLt; omega
    rw [toComplex_bluestein .fft hle u i hm hconv hinv, scale_numReal hn, kernelSign_of_forward rfl, toComplex_dft]
    simp

theorem bluestein_ifft_fft :
    bluestein numReal trigReal inner .ifft hle (bluestein numReal trigReal inner .fft hle u) = u :=
  vector_ext fun i => by
    have hn : 1 ≤ n := by have := i.isLt; omega
    have hn' : (n : ℂ) ≠ 0 := by exact_mod_cast (by omega : n ≠ 0)
    have hinverse := dftEntry_neg_dft (.inr rfl) u i
    rw [neg_neg] at hinverse
    rw [toComplex_bluestein .ifft hle _ i hm hconv hinv, bluestein_fft_eq_dft hle u hm hconv hinv, scale_numReal hn,
      kernelSign_of_inverse (by decide), hinverse]
    push_cast
    field_simp
end

end Sys2Proof.Ideal

namespace Sys2Proof.Proofs

open Machine Sys2Proof.Ideal

/-- Settles O57: an exact transform makes no error, and an exact inverse returns the input. -/
theorem idealMeetsTheBounds : Obligations.IdealMeetsTheBounds := by
  intro inner tol hconv hinv htol
  refine ⟨fun prec n hle u hn hsize => ?_, fun n hle u _ hmax hsize => ?_⟩
  · have hmax : n ≤ Config.nMax := by
      simp only [Config.nMax, Config.sizeW]
      simp only [List.mem_cons, List.not_mem_nil, or_false] at hn
      omega
    have hm : 2 * n - 1 ≤ inner.L := (two_mul_sub_one_le_innerSize hmax).trans_eq hsize
    have hbound : 0 < prec.bound := by cases prec <;> norm_num [Precision.bound]
    have hfft : bluestein numReal trigReal inner.ops .fft hle u = exactDft n u :=
      bluestein_fft_eq_dft hle u hm hconv hinv
    simp only [idealParams, hfft]
    exact (htol _ _ hbound).1
  · have hm : 2 * n - 1 ≤ inner.L := (two_mul_sub_one_le_innerSize hmax).trans_eq hsize
    have hround : bluestein numReal trigReal inner.ops .ifft hle
        (bluestein numReal trigReal inner.ops .fft hle u) = u :=
      bluestein_ifft_fft hle u hm hconv hinv
    simp only [idealParams, hround]
    exact (htol 1 _ one_pos).2

/-- Settles O43. -/
theorem idealTwiddles : Obligations.IdealTwiddles := by
  refine ⟨fun k n h => toComplex_halfTwiddle k h, fun k n h => ?_, fun k n h => ?_, fun k n h => ?_, fun n h => ?_⟩
  · simp [halfTwiddle_trigReal k h]
  · simp [halfTwiddle_trigReal _ h, conj, numReal, neg_div]
  · have hn : (n : ℝ) ≠ 0 := by positivity
    have hangle : ((k + 2 * n : Int) : ℝ) * Real.pi / n = k * Real.pi / n + 2 * Real.pi := by
      push_cast
      field_simp
    rw [halfTwiddle_trigReal _ h, halfTwiddle_trigReal _ h, hangle, Real.cos_add_two_pi, Real.sin_add_two_pi]
  · simp [halfTwiddle_trigReal 0 h]

/-- Settles O44: samples are equal when they are equal as complex numbers, where the multiplier is the product. -/
theorem idealMultiplier : Obligations.IdealMultiplier := by
  refine ⟨toComplex_cmul, fun a b c => ⟨?_, ?_⟩, fun a b c => ?_, fun a b => ?_, fun z => ?_⟩
  · exact toComplex_injective (by simp only [toComplex_cmul, mul_assoc])
  · exact toComplex_injective (by simp only [toComplex_cmul, mul_comm])
  · have hadd : ∀ x y : Sample ℝ, toComplex ⟨x.re + y.re, x.im + y.im⟩ = toComplex x + toComplex y := fun _ _ => rfl
    exact toComplex_injective (by simp only [hadd, toComplex_cmul, mul_add])
  · rw [toComplex_cmul, norm_mul]
  · refine toComplex_injective ?_
    rw [toComplex_cmul, toComplex_conj, Complex.mul_conj']
    apply Complex.ext <;> simp [toComplex, ← Complex.ofReal_pow]

/-- Settles O42. -/
theorem scaleFactors : Obligations.ScaleFactors := by
  refine fun R num => ⟨fun n => ⟨rfl, rfl, rfl, rfl, rfl⟩, fun ⟨hof, hsqrt, hdiv⟩ k => ?_⟩
  cases k <;> simp [scale, hof, hsqrt, hdiv]

/-- Settles O55: the field is that of the real numbers. -/
theorem numRealProperties : Obligations.NumRealProperties := by
  refine ⟨mul_comm, add_comm, mul_one, mul_zero, inferInstance, inferInstance, inferInstance, rfl, rfl,
    fun _ _ => ⟨rfl, rfl, rfl⟩, fun _ => rfl, fun _ _ => numReal_div, fun _ => rfl, fun a ha => ?_⟩
  rw [numReal_sqrt ha]
  exact ⟨Real.sqrt_nonneg a, Real.mul_self_sqrt ha⟩

end Sys2Proof.Proofs
end

section
/-! The index partition of the w-tables: what each range gives (R112), and that reflecting an index modulo `M` exchanges
the two outer ranges and keeps the middle one, so that the time-domain w-tables are even (R116). -/

namespace Sys2Proof.Proofs

open Machine

section
variable {n m i : Nat}

theorem widx_low (h : i < n) : widx n m i = some ((i : Int) ^ 2) := by
  rw [widx, if_pos h, sq]

theorem widx_high (hn : n ≤ i) (h : m - n < i) : widx n m i = some (((i : Int) - m) ^ 2) := by
  rw [widx, if_neg hn.not_gt, if_pos h, sq]

theorem widx_middle (hn : n ≤ i) (h : i ≤ m - n) : widx n m i = none := by
  rw [widx, if_neg hn.not_gt, if_neg h.not_gt]

/-- The partition is even modulo `m`: `(m-i) - m = -i` has the square of `i` (R116 (d)). -/
theorem widx_sub (hm : 2 * n - 1 ≤ m) (hi : i < m) : widx n m (m - i) = widx n m i := by
  obtain hlow | hhigh | hmid : i < n ∨ (n ≤ i ∧ m - n < i) ∨ (n ≤ i ∧ i ≤ m - n) := by omega
  · rw [widx_low hlow, widx_high (by omega) (by omega), Nat.cast_sub hi.le]
    congr 1
    ring
  · obtain ⟨hn, hh⟩ := hhigh
    rw [widx_high hn hh, widx_low (by omega), Nat.cast_sub hi.le]
    congr 1
    ring
  · obtain ⟨hn, hh⟩ := hmid
    rw [widx_middle hn hh, widx_middle (by omega) (by omega)]

end

/-- Settles O40. -/
theorem indexPartition : Obligations.IndexPartition := by
  intro n m i _ hm _
  exact ⟨fun h => ⟨widx_low h, by omega⟩, fun h => ⟨widx_high (by omega) h, by omega⟩, widx_middle⟩

/-- Settles O41: `M = 2p` with `n ≤ p ≤ M - n`; elsewhere the partition is even, and a table entry depends on it alone. -/
theorem wTablesAreEven : Obligations.WTablesAreEven := by
  intro n h2 hmax
  have hm := two_mul_sub_one_le_innerSize hmax
  refine ⟨?_, fun i h1 hi => ?_, fun i _ hi => ?_⟩
  · obtain ⟨p, hp, _⟩ := innerSize_eq_two_mul h2 hmax
    exact widx_middle (by omega) (by omega)
  · have hlow : i < n := by omega
    rw [widx_sub hm (by omega), widx_low hlow]
    exact ⟨rfl, rfl⟩
  · have heven := widx_sub hm hi
    exact ⟨heven, by rw [wfEntry, heven, wfEntry], by rw [wiEntry, heven, wiEntry]⟩

end Sys2Proof.Proofs
end

section
/-! The micro-operations of the ROM generator: two that fill a pair of tables from their formulas (R110, R113), and two
that put a table through INNER (R114, R115). -/

namespace Sys2Proof.Proofs

open Machine Safety

/-- Filling two spaces with `f` and `g` of the index, over `[0, k)`, and going on to phase `p`. -/
theorem fill_pair (s : State) {a b : Space} (hab : a ≠ b) (k : Nat) (f g : Nat → C) (p : Phase) :
    let t := ((s.store a 0 ((List.range k).map f)).store b 0 ((List.range k).map g)).setPhase p
    MicroFrame [a, b] p s.guard s t ∧
    ∀ i, (t.space a).read i = (if i < k then some (f i) else (s.space a).read i) ∧
      (t.space b).read i = (if i < k then some (g i) else (s.space b).read i) := by
  refine ⟨⟨rfl, by simp, by simp [SameRegisters, State.store], by simp [SameQueues, State.store], ?_⟩, fun i => ⟨?_, ?_⟩⟩
  · intro sp hsp i
    obtain ⟨ha, hb⟩ : sp ≠ a ∧ sp ≠ b := by simpa using hsp
    simp [State.space_store, ha, hb]
  · simp [State.space_store, hab, read_writeFrom_map]
  · simp [State.space_store, hab.symm, read_writeFrom_map]

/-- Settles O11. -/
theorem xgenFillsTables : Obligations.XgenFillsTables := by
  intro s
  obtain ⟨hframe, hread⟩ := fill_pair s (a := .xf) (b := .xi) (by decide) s.sizeN
    (xfEntry Config.num Config.trig s.sizeN) (xiEntry Config.trig s.sizeN) .cWgen
  refine ⟨_, exec_xgen s, hframe, fun i => ?_⟩
  obtain ⟨hxf, hxi⟩ := hread i
  exact ⟨fun h => ⟨hxi.trans (if_pos h), hxf.trans (if_pos h)⟩,
    fun h => ⟨hxi.trans (if_neg h.not_gt), hxf.trans (if_neg h.not_gt)⟩⟩

/-- Settles O12: each range of the partition gives its index, and the entries are those of the index. -/
theorem wgenFillsTables : Obligations.WgenFillsTables := by
  intro s hm
  obtain ⟨hframe, hread⟩ := fill_pair s (a := .wf) (b := .wi) (by decide) s.sizeM
    (wfEntry Config.num Config.trig s.sizeN s.sizeM) (wiEntry Config.num Config.trig s.sizeN s.sizeM) .cWfwdF
  refine ⟨_, exec_wgen s, hframe, fun i => ?_⟩
  obtain ⟨hwf, hwi⟩ := hread i
  refine ⟨fun ⟨hn, h⟩ => ?_, fun ⟨hn, h⟩ => ?_, fun ⟨hn, hmid, h⟩ => ?_, fun h => ?_⟩
  · simp only [if_pos h, wfEntry, wiEntry, widx_low hn] at hwf hwi
    exact ⟨hwi, hwf⟩
  · simp only [if_pos h, wfEntry, wiEntry, widx_high (i := i) (by omega) hn] at hwf hwi
    exact ⟨hwi, hwf⟩
  · simp only [if_pos h, wfEntry, wiEntry, widx_middle hn hmid] at hwf hwi
    exact ⟨hwi, hwf⟩
  · exact ⟨hwi.trans (if_neg h.not_gt), hwf.trans (if_neg h.not_gt)⟩

/-- INNER's operation on a space that holds `z` over its `M = L` elements, when the sequencer then sets PHASE to `p` and
GUARD to `g`. -/
theorem invoke_microFrame {inner : Inner RealScalar} {op : Vector C inner.L → Vector C inner.L} {sp : Space}
    {k : State → State} {s : State} {z : Vector C inner.L} {p : Phase} {g : Bool} (hm : s.m.toNat = inner.L)
    (hk : ∀ x : State, x.guard = s.guard → k x = (x.setPhase p).setGuard g)
    (hz : ∀ i (h : i < inner.L), (s.space sp).read i = some z[i]) :
    ∃ t, invoke inner op sp k s = .next t ∧ MicroFrame [sp] p g s t ∧
      (∀ i (h : i < inner.L), (t.space sp).read i = some (op z)[i]) ∧
      ∀ i, s.m.toNat ≤ i → (t.space sp).read i = (s.space sp).read i := by
  obtain ⟨hregs, hqueues, hspaces, hread, hrest⟩ := store_samples s sp (op z)
  refine ⟨_, invoke_ok hm ((readRange_ok_iff _ _ _).mpr hz), ?_⟩
  rw [hk _ (State.store_guard ..)]
  simp only [MicroFrame, SameSpacesBut, State.space_setGuard, State.space_setPhase]
  exact ⟨⟨rfl, rfl, hregs, hqueues, hspaces⟩, hread, fun i h => hrest i (hm ▸ h)⟩

/-- Settles O13: both are INNER's forward operation on a table; they differ in how the sequencer goes on. -/
theorem tableTransforms : Obligations.TableTransforms := by
  intro s z hm
  rw [exec_wfwdF, exec_wfwdI]
  exact ⟨invoke_microFrame (sp := .wf) hm fun x hx => by rw [← hx]; rfl,
    invoke_microFrame (sp := .wi) hm fun _ _ => rfl⟩

end Sys2Proof.Proofs
end

section
/-! The x-tables with an ideal evaluator (R111). -/

namespace Sys2Proof.Ideal

open Machine

theorem norm_cis (t : ℝ) : ‖cis t‖ = 1 := Complex.norm_exp_ofReal_mul_I t

/-- With `HT_Ideal` the x-inverse table is the chirp. -/
theorem toComplex_xiEntry {T : Type} {trig : Trig T ℝ} (h : HtIdeal trig) {n : Nat} (hn : 1 ≤ n) (i : Nat) :
    toComplex (xiEntry trig n i) = cis (Real.pi * (i : ℝ) ^ 2 / n) := by
  rw [xiEntry, h _ n hn]
  congr 1
  push_cast
  ring

end Sys2Proof.Ideal

namespace Sys2Proof.Proofs

open Machine Sys2Proof.Ideal

theorem tableXf_getElem {R T : Type} (num : Num R) (trig : Trig T R) {n : Nat} (i : Fin n) :
    (tableXf num trig n)[i] = conj num (tableXi trig n)[i] := by
  simp [tableXf, tableXi, xfEntry]

/-- Settles O45. -/
theorem idealXTables : Obligations.IdealXTables := by
  refine ⟨fun T trig n i h => ?_, fun R T num trig n i => tableXf_getElem num trig i⟩
  have hxi : toComplex (tableXi trig n)[i] = cis (Real.pi * (i.val : ℝ) ^ 2 / n) := by
    simpa [tableXi] using toComplex_xiEntry h (show 1 ≤ n by have := i.isLt; omega) i
  rw [tableXf_getElem, toComplex_conj, hxi, conj_cis, norm_cis, norm_cis]
  exact ⟨rfl, rfl, rfl, rfl⟩

end Sys2Proof.Proofs
end

section
/-! The eight host commands at rest: which check stops them, and what an accepted one writes (R130 to R135, R171,
R196). -/

namespace Sys2Proof.Machine

variable {R : Type}

/-! The checks, in their order. -/

/-- The cause of the first check of CONSTRUCT that fails (R131, R196). -/
theorem firstFailing_constructChecks (n l a b c d e : Word) (s : State R) :
    firstFailing (constructChecks n l a b c d e s) =
      if s.guard = true then some .reentrant
      else if s.phase ≠ .uncon then some .alreadyConstructed
      else if n.toNat = 0 ∨ Config.nMax < n.toNat then some .badSize
      else if l.toNat ≠ innerSize n.toNat then some .innerSizeMismatch
      else if a ≠ l ∨ b ≠ l ∨ c ≠ n ∨ d ≠ n ∨ e ≠ l then some .lengthMismatch
      else none := by
  simp only [constructChecks, firstFailing_cons, firstFailing_nil, badSize_iff, bne_iff_ne]
  by_cases hl : l.toNat = innerSize n.toNat
  · simp [← hl, BitVec.toNat_inj, or_assoc]
  · simp [hl]

/-- The cause of the first check of XFORM that fails (R135, R196). -/
theorem firstFailing_xformChecks (w : Word) (s : State R) :
    firstFailing (xformChecks w s) =
      if s.guard = true then some .reentrant
      else if s.phase = .uncon then some .notConstructed
      else if w ≠ s.n then some .lengthMismatch
      else none := by
  simp only [xformChecks, firstFailing_cons, firstFailing_nil, bne_iff_ne, beq_iff_eq]

end Sys2Proof.Machine

namespace Sys2Proof.Proofs

open Machine Safety

section
variable {i : Instr} {cmd : Byte} {checks : List (Bool × FatalCode)} {effect : State → Result} {s : State}

/-- A command whose checks fail stops the engine (R192). -/
theorem stopsWith_of_firstFailing {code : FatalCode} (he : exec i s = command cmd checks effect s)
    (hph : s.phase ≠ .fatal) (hc : firstFailing checks = some code) : StopsWith i code cmd s :=
  ⟨_, he.trans (command_stop hph hc), raiseFatal_stoppedAt code cmd s⟩

/-- A command whose checks pass, and whose effect is to write RESULT. -/
theorem onlyResult_of_pass {w : Word} (he : exec i s = command cmd checks (fun s => .next (s.setResult w)) s)
    (hph : s.phase ≠ .fatal) (hc : firstFailing checks = none) : OnlyResult i w s :=
  ⟨s.setResult w, he.trans (command_accept hph hc), by simp [ResultWritten, SameQueues, SameSpacesBut]⟩

/-- An XFORM with `A0 = N`, presented at rest, is accepted (R135). -/
theorem acceptedXform_of_idle {k : Kind} (he : exec i s = xform Config.num cmd k s.n s) (hph : s.phase = .idle)
    (hg : s.guard = false) : AcceptedXform i k (scale Config.num k s.n.toNat) s := by
  refine ⟨_, he.trans (xform_accepted hph hg rfl), ?_⟩
  simp [State.begin, SameQueues, SameSpacesBut]

end

/-! CONSTRUCT. -/

theorem toNat_ofNat_innerSize {n : Word} (h : n.toNat ≤ Config.nMax) :
    (BitVec.ofNat 32 (innerSize n.toNat)).toNat = innerSize n.toNat := by
  rw [BitVec.toNat_ofNat, Nat.mod_eq_of_lt (innerSize_lt h)]

/-- Settles O4. -/
theorem constructAccepted : Obligations.ConstructAccepted := by
  rintro n l _ _ _ _ _ s hph hg h1 hmax hl rfl rfl rfl rfl rfl
  refine ⟨_, construct_accepted hph hg h1 hmax hl (capabilityOf_innerSize hmax hl).symm, ?_⟩
  simp [State.begin, toNat_ofNat_innerSize hmax, SameQueues, SameSpacesBut]

/-- Settles O5: the branches are those of `firstFailing_constructChecks`. -/
theorem constructStopsInOrder : Obligations.ConstructStopsInOrder := by
  intro n l a b c d e s hph stops
  have hexec := exec_construct_next s n l a b c d e
  have hchecks := firstFailing_constructChecks n l a b c d e s
  split_ifs at hchecks ⊢
  case neg => exact ⟨_, hexec.trans (command_accept hph hchecks), rfl⟩
  all_goals exact stopsWith_of_firstFailing hexec hph hchecks

/-- Settles O51: the checks pass either way, and the effect compares `A1` with the capability's length. -/
theorem constructTakesTheCapabilitysLength : Obligations.ConstructTakesTheCapabilitysLength := by
  intro p n l s hph hg h1 hmax hl
  refine ⟨fun hL => ?_, fun hL => ?_⟩
  · refine ⟨_, construct_accepted hph hg h1 hmax hl hL, rfl, rfl, rfl, ?_⟩
    exact (toNat_ofNat_innerSize hmax).trans (hl.symm.trans hL)
  · have hpass : firstFailing (constructChecks n l l l n n l s) = none := by
      have hsize : ¬ (n.toNat = 0 ∨ Config.nMax < n.toNat) := by omega
      simp [firstFailing_constructChecks, hg, hph, hsize, hl]
    rw [execOn, construct, command_accept (by simp [hph]) hpass, if_neg hL]

/-! SIZE and ISIZE. -/

/-- Settles O6. -/
theorem sizeReturnsN : Obligations.SizeReturnsN := by
  intro s
  refine ⟨fun hu => ?_, fun hu hf => ?_, fun hf => (exec_size s).trans (command_fatal hf)⟩
  · exact stopsWith_of_firstFailing (exec_size s) (by simp [hu]) (by simp [firstFailing_cons, hu])
  · exact onlyResult_of_pass (exec_size s) hf (by simp [firstFailing_cons, hu])

/-- Settles O7: on the domain `innerSize` is the least power of two that holds the convolution (R94). -/
theorem isizeReturnsInnerSize : Obligations.IsizeReturnsInnerSize := by
  intro n s hf
  refine ⟨fun ⟨h1, hmax⟩ => ?_, fun hbad => ?_⟩
  · have hgood : badSize n.toNat = false := by
      rw [← Bool.not_eq_true, badSize_iff]
      simp only [Config.nMax, Config.sizeW]
      omega
    obtain ⟨k, hk, hle, hleast⟩ := innerSize_least (n := n.toNat) hmax
    refine ⟨_, onlyResult_of_pass (exec_isize s n) hf (by simp [firstFailing_cons, hgood]), k,
      (toNat_ofNat_innerSize hmax).trans hk, hle, fun j hj => ?_⟩
    by_contra hlt
    exact absurd (hleast j (by omega)) (by omega)
  · have hbad' : badSize n.toNat = true := (badSize_iff _).mpr hbad
    exact stopsWith_of_firstFailing (exec_isize s n) hf (by simp [firstFailing_cons, hbad'])

/-! The five XFORM commands. -/

/-- Settles O8. -/
theorem xformAccepted : Obligations.XformAccepted := fun s hph hg =>
  ⟨acceptedXform_of_idle (exec_xformFft s s.n) hph hg, acceptedXform_of_idle (exec_xformIfft s s.n) hph hg,
    acceptedXform_of_idle (exec_xformUifft s s.n) hph hg, acceptedXform_of_idle (exec_xformSfft s s.n) hph hg,
    acceptedXform_of_idle (exec_xformSifft s s.n) hph hg⟩

/-- Settles O9: the branches are those of `firstFailing_xformChecks`, for each command byte and kind. -/
theorem xformStopsInOrder : Obligations.XformStopsInOrder := by
  intro w s p hp hph
  have hexec : ∃ k, exec p.1 s = xform Config.num p.2 k w s := by
    simp only [List.mem_cons, List.not_mem_nil, or_false] at hp
    rcases hp with rfl | rfl | rfl | rfl | rfl <;> exact ⟨_, rfl⟩
  obtain ⟨k, hexec⟩ := hexec
  have hchecks := firstFailing_xformChecks w s
  split_ifs at hchecks ⊢
  case neg => exact ⟨_, hexec.trans (command_accept hph hchecks), rfl⟩
  all_goals exact stopsWith_of_firstFailing hexec hph hchecks

end Sys2Proof.Proofs
end

section
/-! The two long commands of the fixed machine as undisturbed runs (R131, R132, R135, R143, R146): CONSTRUCT writes
the four tables, an XFORM writes SCR and BUF, and what it leaves in BUF depends on N, the tables, BUF and the kind alone
(R136). -/

namespace Sys2Proof.Proofs

open Machine Safety

/-! Steps of the fixed machine as those of the generic one with the attached capability (R6). -/

/-- One undisturbed micro-operation of the fixed machine, as the generic one with the attached capability has it. -/
theorem run_micro_attached {s t : State} {i : Instr} (k : Nat) (ha : s.arrivals = []) (hi : s.phase.microOp = some i)
    (he : execOn (paramsOf s.m) i s = .next t) :
    Host.Core.run Sys2Proof.core (k + 1) s = Host.Core.run Sys2Proof.core k t := by
  have hu : s.phase ≠ .uncon := fun h => by rw [h] at hi; cases hi
  exact run_micro k ha hi ((exec_eq_execOn_sizeM hu i).trans he)

theorem run_withTables_attached {s t : State} {xf xi wf wi : Memory RealScalar} {ph : Phase} {i : Instr} (k : Nat)
    (ha : s.arrivals = []) (he : execOn (paramsOf s.m) i (s.withTables xf xi wf wi ph) = .next t)
    (hi : ph.microOp = some i) :
    Host.Core.run Sys2Proof.core (k + 1) (s.withTables xf xi wf wi ph) = Host.Core.run Sys2Proof.core k t :=
  run_micro_attached k ha hi he

theorem run_withScr_attached {s t : State} {scr : Memory RealScalar} {ph : Phase} {i : Instr} (k : Nat)
    (ha : s.arrivals = []) (he : execOn (paramsOf s.m) i (s.withScr scr ph) = .next t) (hi : ph.microOp = some i) :
    Host.Core.run Sys2Proof.core (k + 1) (s.withScr scr ph) = Host.Core.run Sys2Proof.core k t :=
  run_micro_attached k ha hi he

/-- One line of HOST's script, taken at rest. -/
theorem run_act {s t : State} {a : HostAction} {rest : List ScriptLine} (k : Nat) (hrest : s.phase.busy = false)
    (hs : s.script = .act a :: rest) (he : hostAct a (s.setScript rest) = .next t) :
    Host.Core.run Sys2Proof.core (k + 1) s = Host.Core.run Sys2Proof.core k t :=
  run_succ k ((step_host hrest hs).trans he)

/-! CONSTRUCT. -/

/-- The four micro-operations of CONSTRUCT write the four tables, set PHASE and clear GUARD, and nothing else: the state
`run_construct_microOps` leaves open for the generic machine is here given whole, for the frame of R132. -/
theorem run_construct_attached {s : State} (k : Nat) (hph : s.phase = .cXgen) (ha : s.arrivals = [])
    (hL : s.sizeM = s.attached.L) :
    ∃ xf xi wf wi, Host.Core.run Sys2Proof.core (k + 4) s =
        Host.Core.run Sys2Proof.core k ((s.withTables xf xi wf wi .idle).setGuard false) ∧
      TablesReady (paramsOf s.m) s.n ((s.withTables xf xi wf wi .idle).setGuard false) := by
  have htime : ∀ (mem : Memory RealScalar) (f : Nat → Nat → Nat → C),
      (mem.writeFrom 0 ((List.range s.sizeM).map (f s.sizeN s.sizeM))).readRange s.attached.L =
        .ok (Vector.ofFn fun i => f s.sizeN s.attached.L i) := by
    intro mem f
    rw [hL]
    exact readRange_writeFrom_map mem _ _
  have hrun :=
    (run_micro_attached (k + 3) ha (by rw [hph]; rfl) execOn_xgen).trans <|
    (run_withTables_attached (k + 2) ha execOn_wgen_withTables rfl).trans <|
    (run_withTables_attached (k + 1) ha
      (execOn_wfwdF_withTables hL (htime s.wf (wfEntry Config.num Config.trig))) rfl).trans <|
    run_withTables_attached k ha (execOn_wfwdI_withTables hL (htime s.wi (wiEntry Config.num Config.trig))) rfl
  exact ⟨_, _, _, _, hrun, rfl, rfl, ha, rfl, hL, readRange_writeFrom_map _ _ _, readRange_writeFrom_map _ _ _,
    readRange_writeFrom_samples _ _, readRange_writeFrom_samples _ _⟩

/-- Settles O14: the frame is accepted with `M = A1`, and the four micro-operations finish the tables. -/
theorem constructBuildsTables : Obligations.ConstructBuildsTables := by
  intro s n l rest hph hg ha h1 hmax hl hs inner
  have hL : inner.L = l.toNat := capabilityOf_innerSize hmax hl
  have hm : BitVec.ofNat 32 (innerSize n.toNat) = l :=
    BitVec.eq_of_toNat_eq ((toNat_ofNat_innerSize hmax).trans hl.symm)
  have haccept : hostAct (.frame ⟨0x10#8, [n, l, l, l, n, n, l]⟩) (s.setScript rest) =
      .next (((s.setScript rest).setSizes n l).begin .cXgen) := by
    rw [← hm]
    exact construct_accepted hph hg h1 hmax (toNat_ofNat_innerSize hmax) (by rw [hm]; exact hL.symm)
  obtain ⟨xf, xi, wf, wi, hrun, hready⟩ :=
    run_construct_attached (s := ((s.setScript rest).setSizes n l).begin .cXgen) 0 rfl ha hL.symm
  refine ⟨_, (run_act 4 (by rw [hph]; rfl) hs haccept).trans hrun, rfl, rfl, rfl, rfl, hL, fun i hi => ⟨?_, ?_⟩,
    fun i hi => ⟨?_, ?_⟩, rfl, rfl, rfl, rfl, rfl, rfl⟩
  · exact (readRange_ok_iff _ _ _).mp hready.xi i hi
  · exact (readRange_ok_iff _ _ _).mp hready.xf i hi
  · exact (readRange_ok_iff _ _ _).mp hready.wi i hi
  · exact (readRange_ok_iff _ _ _).mp hready.wf i hi

/-! XFORM. -/

theorem store_buf (s : State) (vs : List C) : s.store .buf 0 vs = { s with buf := s.buf.writeFrom 0 vs } := rfl

/-- The six micro-operations of an XFORM leave `e` of R143 in SCR and `v` in BUF, set PHASE and clear GUARD, and write
nothing else: the state `run_xform_microOps` leaves open for the generic machine is here given whole, for the frame of
R143. -/
theorem run_xform_attached {s : State} {x u : Vector C s.sizeN} {w : Vector C s.attached.L} (k : Nat)
    (hle : s.sizeN ≤ s.attached.L) (hL : s.sizeM = s.attached.L) (hx : (s.space s.xTable).readRange s.sizeN = .ok x)
    (hw : (s.space s.wTable).readRange s.attached.L = .ok w) (hu : s.buf.readRange s.sizeN = .ok u)
    (hph : s.phase = .tMod) (ha : s.arrivals = []) :
    ∃ scr, scr.readRange s.attached.L = .ok (convolved Config.num s.attached.ops x w u) ∧
      Host.Core.run Sys2Proof.core (k + 6) s = Host.Core.run Sys2Proof.core k
        { s with
          scr := scr, phase := .idle, guard := false,
          buf := s.buf.writeFrom 0 (samples (transformed Config.num s.attached.ops hle x w s.scale u)) } := by
  have hpad : ((s.scr.writeFrom 0 (samples (modulate Config.num x u))).writeFrom s.sizeN
      (List.replicate (s.sizeM - s.sizeN) (czero Config.num))).readRange s.attached.L =
        .ok (padded Config.num s.attached.L x u) := by
    rw [hL]
    exact readRange_padded Config.num s.scr hle x u
  have hres : transformed Config.num s.attached.ops hle x w s.scale u = demodulate Config.num
      (Vector.ofFn fun i : Fin s.sizeN => (convolved Config.num s.attached.ops x w u)[i.val]) x s.scale := by
    simp [transformed, demodulate]
  have hrun :=
    (run_micro_attached (k + 5) ha (by rw [hph]; rfl) (execOn_mod rfl hx hu)).trans <|
    (run_withScr_attached (k + 4) ha execOn_zpad_withScr rfl).trans <|
    (run_withScr_attached (k + 3) ha (execOn_ifwd_withScr hL hpad) rfl).trans <|
    (run_withScr_attached (k + 2) ha (execOn_fmul_withScr hL (readRange_writeFrom_samples _ _) hw) rfl).trans <|
    (run_withScr_attached (k + 1) ha (execOn_iinv_withScr hL (readRange_writeFrom_samples _ _)) rfl).trans <|
    run_withScr_attached k ha
      (execOn_demod_withScr rfl (readRange_ofFn_of_le hle (readRange_writeFrom_samples _ _)) hx) rfl
  rw [store_buf] at hrun
  rw [hres]
  exact ⟨_, readRange_writeFrom_samples _ _, hrun⟩

/-- What the big-step meaning of an XFORM reads: `u` in BUF and `x`, `w` in the tables of the kind, in an engine of sizes
`n` and `m` whose capability has length `m` (R137, R143). -/
structure XformReads (s : State) (k : Kind) (n m : Word) (u x : Vector C n.toNat) (w : Vector C (capabilityOf m).L) :
    Prop where
  n_eq : s.n = n
  m_eq : s.m = m
  length : m.toNat = (capabilityOf m).L
  le : n.toNat ≤ (capabilityOf m).L
  buf : s.buf.readRange n.toNat = .ok u
  xTable : (if isForward k then s.xf else s.xi).readRange n.toNat = .ok x
  wTable : (if isForward k then s.wf else s.wi).readRange (capabilityOf m).L = .ok w

/-- The engine an XFORM of kind `k` leaves, with `scr` in SCR and `v` written to BUF. -/
def afterXform (s : State) (rest : List ScriptLine) (k : Kind) (scr : Memory RealScalar) (v : List C) : State :=
  { s with
    script := rest, kind := k, scale := scale Config.num k s.sizeN, kindHeld := true, scr := scr,
    buf := s.buf.writeFrom 0 v, phase := .idle, guard := false }

theorem buf_afterXform (s : State) (rest : List ScriptLine) (k : Kind) (scr : Memory RealScalar) (v : List C) :
    (afterXform s rest k scr v).buf = s.buf.writeFrom 0 v := rfl

/-- An XFORM as one run, from the moment HOST presents it (R135, R143, R146). -/
theorem run_xform_next {s : State} {kind : Kind} {cmd : Byte} {rest : List ScriptLine} {n m : Word}
    {u x : Vector C n.toNat} {w : Vector C (capabilityOf m).L} (h : XformReads s kind n m u x w)
    (hkind : (kind, cmd) ∈ [(Kind.fft, 0x30#8), (.ifft, 0x31#8), (.uifft, 0x32#8), (.sfft, 0x33#8), (.sifft, 0x34#8)])
    (hph : s.phase = .idle) (hg : s.guard = false) (ha : s.arrivals = []) :
    ∃ scr, scr.readRange (capabilityOf m).L = .ok (convolved Config.num (capabilityOf m).ops x w u) ∧
      Host.Core.run Sys2Proof.core 7 (s.setScript (.act (.frame ⟨cmd, [n]⟩) :: rest)) =
        .next (afterXform s rest kind scr (samples (transformed Config.num (capabilityOf m).ops h.le x w
          (scale Config.num kind n.toNat) u))) := by
  obtain ⟨rfl, rfl, hL, hle, hu, hx, hw⟩ := h
  obtain ⟨i, hdecode, hexec⟩ := decode_xform (R := RealScalar) (T := TrigScalar) hkind s.n
  have haccept : hostAct (.frame ⟨cmd, [s.n]⟩) (s.setScript rest) =
      .next (((s.setScript rest).setKind kind (scale Config.num kind s.sizeN)).begin .tMod) :=
    (present_ok hdecode _).trans <| (exec_eq_execOn i _).trans <| (hexec _ _).trans (xform_accepted hph hg rfl)
  obtain ⟨scr, hscr, hrun⟩ := run_xform_attached (x := x) (u := u) (w := w)
    (s := ((s.setScript rest).setKind kind (scale Config.num kind s.sizeN)).begin .tMod) 0 hle hL
    (by cases kind <;> exact hx) (by cases kind <;> exact hw) hu rfl ha
  exact ⟨scr, hscr,
    (run_act (s := s.setScript _) 6 (by rw [State.phase_setScript, hph]; rfl) rfl haccept).trans hrun⟩

theorem setScript_eq_self {s : State} {l : List ScriptLine} (h : s.script = l) : s.setScript l = s := by
  subst h
  rfl

/-- Settles O21: the engine holds what the XFORM reads, and is left as the run leaves it. -/
theorem xformBigStep : Obligations.XformBigStep := by
  intro s k cmd rest u x w hle hL hkind hph hg ha hs hu hx hw
  have hreads : XformReads s k s.n s.m u x w := ⟨rfl, rfl, hL, hle, (readRange_ok_iff _ _ _).mpr hu,
    (readRange_ok_iff _ _ _).mpr hx, (readRange_ok_iff _ _ _).mpr hw⟩
  obtain ⟨scr, hscr, hrun⟩ := run_xform_next (rest := rest) hreads hkind hph hg ha
  rw [setScript_eq_self hs] at hrun
  refine ⟨_, hrun, fun i hi => ?_, fun i hi => ?_, (readRange_ok_iff _ _ _).mp hscr,
    rfl, rfl, rfl, rfl, rfl, rfl, rfl, rfl, rfl, rfl, rfl, rfl, rfl, rfl⟩
  · rw [buf_afterXform, read_writeFrom_samples, dif_pos hi]
  · rw [buf_afterXform, read_writeFrom_samples, dif_neg hi.not_gt]

/-- An idle engine that meets the invariant has GUARD = 0 and, with N elements in BUF, what an XFORM of any kind reads. -/
theorem xformReads_of_engineInv {s : State} (h : EngineInv s) (hph : s.phase = .idle) (hbuf : holds s.buf s.n.toNat)
    (k : Kind) : s.guard = false ∧ ∃ u x w, XformReads s k s.n s.m u x w := by
  have hL := (attachedLengthIsM.1 s h (by rw [hph]; rfl)).1
  obtain ⟨_, hguard, _, hsizes, _, ⟨hxs, hws, _⟩, _⟩ := h
  obtain ⟨hxf, hxi⟩ := hxs (by rw [hph]; rfl)
  obtain ⟨hwf, hwi⟩ := hws (by rw [hph]; rfl)
  obtain ⟨u, hu⟩ := readRange_total hbuf
  obtain ⟨x, hx⟩ := readRange_total (mem := if isForward k then s.xf else s.xi) (n := s.sizeN)
    (by split <;> assumption)
  obtain ⟨w, hw⟩ := readRange_total (mem := if isForward k then s.wf else s.wi) (n := s.attached.L)
    (by rw [hL]; split <;> assumption)
  exact ⟨(hguard (by simp [hph])).trans (by rw [hph]; rfl), u, x, w, rfl, rfl, hL.symm,
    (sizeN_le_sizeM hsizes (by rw [hph]; rfl)).trans_eq hL.symm, hu, hx, hw⟩

/-- Settles O22: both engines hold what the XFORM reads, so they write the same to BUF. -/
theorem transformsAreIndependent : Obligations.TransformsAreIndependent := by
  intro s s' f h h' hph hph' ha ha' hn hxf hxi hwf hwi hbuf hheld hf
  obtain ⟨⟨k, cmd⟩, hkind, rfl⟩ := List.mem_map.mp (show f ∈ List.map (fun p : Kind × Byte => ⟨p.2, [s.n]⟩)
    [(Kind.fft, 0x30#8), (.ifft, 0x31#8), (.uifft, 0x32#8), (.sfft, 0x33#8), (.sifft, 0x34#8)] from hf)
  obtain ⟨hg, u, x, w, hreads⟩ := xformReads_of_engineInv h hph hheld k
  obtain ⟨hg', _⟩ := xformReads_of_engineInv h' hph' (by rwa [← hbuf, ← hn]) k
  have hm : s'.m = s.m := by
    obtain ⟨_, _, _, hsizes, _⟩ := h
    obtain ⟨_, _, _, hsizes', _⟩ := h'
    obtain ⟨_, _, hM, _⟩ := hsizes (by rw [hph]; rfl)
    obtain ⟨_, _, hM', _⟩ := hsizes' (by rw [hph']; rfl)
    exact BitVec.eq_of_toNat_eq (hM'.trans ((congrArg (fun n : Word => innerSize n.toNat) hn.symm).trans hM.symm))
  have hreads' : XformReads s' k s.n s.m u x w :=
    ⟨hn.symm, hm, hreads.length, hreads.le, hbuf ▸ hreads.buf, by rw [← hxf, ← hxi]; exact hreads.xTable,
      by rw [← hwf, ← hwi]; exact hreads.wTable⟩
  obtain ⟨_, _, hrun⟩ := run_xform_next (rest := []) hreads hkind hph hg ha
  obtain ⟨_, _, hrun'⟩ := run_xform_next (rest := []) hreads' hkind hph' hg' ha'
  exact ⟨_, _, hrun, hrun', fun i => by rw [buf_afterXform, buf_afterXform, hbuf], rfl, rfl, rfl, rfl⟩

end Sys2Proof.Proofs
end

section
/-! What the transforms compute over the real numbers with an exact inner capability (R144), and what follows from it: the
relations between the kinds (R145) and that the square-root-scaled kinds preserve energy (R141, R142). -/

namespace Sys2Proof.Ideal

open Machine

/-! The DFT is linear, and the DFT of the other kernel sign is its adjoint. -/

theorem toComplex_combine (p q : ℂ) {n : Nat} (u v : Vector (Sample ℝ) n) (i : Fin n) :
    toComplex (combine p q u v)[i] = p * toComplex u[i] + q * toComplex v[i] := by
  simp [combine]

theorem dftEntry_combine (sigma : ℝ) (p q : ℂ) {n : Nat} (u v : Vector (Sample ℝ) n) (k : Nat) :
    dftEntry sigma (combine p q u v) k = p * dftEntry sigma u k + q * dftEntry sigma v k := by
  simp only [dftEntry, toComplex_combine, add_mul, Finset.sum_add_distrib, Finset.mul_sum, mul_assoc]

theorem dftEntry_of_mul (sigma : ℝ) {a : ℂ} {n : Nat} {u v : Vector (Sample ℝ) n}
    (h : ∀ i : Fin n, toComplex v[i] = a * toComplex u[i]) (k : Nat) : dftEntry sigma v k = a * dftEntry sigma u k := by
  simp only [dftEntry, h, Finset.mul_sum, mul_assoc]

theorem sum_conj_dftEntry_mul (sigma : ℝ) {n : Nat} (u y : Vector (Sample ℝ) n) :
    ∑ k : Fin n, (starRingEnd ℂ) (dftEntry sigma u k) * toComplex y[k] =
      ∑ i : Fin n, (starRingEnd ℂ) (toComplex u[i]) * dftEntry (-sigma) y i := by
  have hkernel : ∀ i k : Fin n, (starRingEnd ℂ) (cis (sigma * (2 * Real.pi * i.val * k.val / n))) =
      cis (-sigma * (2 * Real.pi * k.val * i.val / n)) := fun i k => by
    rw [conj_cis]
    congr 1
    ring
  simp only [dftEntry, map_sum, map_mul, hkernel, Finset.sum_mul, Finset.mul_sum]
  rw [Finset.sum_comm]
  exact Finset.sum_congr rfl fun i _ => Finset.sum_congr rfl fun k _ => by ring

theorem energy_eq_sum_conj_mul {n : Nat} (u : Vector (Sample ℝ) n) :
    (energy u : ℂ) = ∑ i : Fin n, (starRingEnd ℂ) (toComplex u[i]) * toComplex u[i] := by
  rw [energy, Complex.ofReal_sum]
  refine Finset.sum_congr rfl fun i _ => ?_
  rw [← Complex.normSq_eq_conj_mul_self, Complex.normSq_apply, sq, sq]
  rfl

/-- Parseval's equation: the DFT multiplies the energy by `n`. -/
theorem energy_dft {sigma : ℝ} (hs : sigma = 1 ∨ sigma = -1) {n : Nat} (u : Vector (Sample ℝ) n) :
    energy (dft sigma u) = n * energy u := by
  have h : (energy (dft sigma u) : ℂ) = n * energy u := by
    calc (energy (dft sigma u) : ℂ)
        = ∑ i : Fin n, (starRingEnd ℂ) (dftEntry sigma u i) * toComplex (dft sigma u)[i] := by
          simp only [energy_eq_sum_conj_mul, toComplex_dft]
      _ = ∑ i : Fin n, (starRingEnd ℂ) (toComplex u[i]) * (n * toComplex u[i]) := by
          simp only [sum_conj_dftEntry_mul, dftEntry_neg_dft hs]
      _ = n * energy u := by
          rw [energy_eq_sum_conj_mul, Finset.mul_sum]
          exact Finset.sum_congr rfl fun i _ => mul_left_comm _ _ _
  exact_mod_cast h

theorem energy_of_mul {a : ℝ} {n : Nat} {u v : Vector (Sample ℝ) n}
    (h : ∀ i : Fin n, toComplex v[i] = a * toComplex u[i]) : energy v = a ^ 2 * energy u := by
  rw [energy, energy, Finset.mul_sum]
  refine Finset.sum_congr rfl fun i _ => ?_
  have hre : v[i].re = a * u[i].re := by simpa [toComplex] using congrArg Complex.re (h i)
  have him : v[i].im = a * u[i].im := by simpa [toComplex] using congrArg Complex.im (h i)
  rw [hre, him]
  ring

/-! The transforms for `c = 1`. -/

theorem kernelSign_cases (k : Kind) : kernelSign k = 1 ∨ kernelSign k = -1 := by
  by_cases h : isForward k = true
  · exact .inr (kernelSign_of_forward h)
  · exact .inl (kernelSign_of_inverse h)

theorem kernelSign_opposite {k k' : Kind} (h : isForward k' = !isForward k) : kernelSign k' = -kernelSign k := by
  rw [kernelSign, kernelSign, h]
  cases isForward k <;> simp

section
variable {n m : Nat} {inner : InnerOps ℝ m} (hle : n ≤ m) (hm : 2 * n - 1 ≤ m) (hconv : ConvThm inner)
  (hinv : InvFwd inner 1)
include hm hconv hinv

theorem toComplex_bluestein_one (k : Kind) (u : Vector (Sample ℝ) n) (i : Fin n) :
    toComplex (bluestein numReal trigReal inner k hle u)[i] = scale numReal k n * dftEntry (kernelSign k) u i := by
  simpa using toComplex_bluestein k hle u i hm hconv hinv

theorem toComplex_bluestein_dft (k : Kind) (u : Vector (Sample ℝ) n) (i : Fin n) :
    toComplex (bluestein numReal trigReal inner k hle u)[i] =
      scale numReal k n * toComplex (dft (kernelSign k) u)[i] := by
  rw [toComplex_bluestein_one hle hm hconv hinv, toComplex_dft]

/-- Two kinds of opposite kernel sign, one after the other, multiply by `n` and by both scale factors. -/
theorem toComplex_bluestein_bluestein {k k' : Kind} (hk : kernelSign k' = -kernelSign k) (u : Vector (Sample ℝ) n)
    (i : Fin n) :
    toComplex (bluestein numReal trigReal inner k' hle (bluestein numReal trigReal inner k hle u))[i] =
      (scale numReal k' n * scale numReal k n * n : ℝ) * toComplex u[i] := by
  rw [toComplex_bluestein_one hle hm hconv hinv, hk, dftEntry_of_mul _ (toComplex_bluestein_dft hle hm hconv hinv k u),
    dftEntry_neg_dft (kernelSign_cases k)]
  push_cast
  ring

/-- Two kinds of opposite kernel sign undo each other when their scale factors make up for the `n`. -/
theorem bluestein_bluestein_eq_self {k k' : Kind} (hk : kernelSign k' = -kernelSign k)
    (hs : scale numReal k' n * scale numReal k n * n = 1) (u : Vector (Sample ℝ) n) :
    bluestein numReal trigReal inner k' hle (bluestein numReal trigReal inner k hle u) = u :=
  vector_ext fun i => by
    rw [toComplex_bluestein_bluestein hle hm hconv hinv hk, hs, Complex.ofReal_one, one_mul]

theorem bluestein_combine (k : Kind) (p q : ℂ) (u v : Vector (Sample ℝ) n) :
    bluestein numReal trigReal inner k hle (combine p q u v) =
      combine p q (bluestein numReal trigReal inner k hle u) (bluestein numReal trigReal inner k hle v) :=
  vector_ext fun i => by
    have hentry := toComplex_bluestein_one hle hm hconv hinv k
    rw [toComplex_combine, hentry, hentry, hentry, dftEntry_combine]
    ring

/-- A transform preserves energy when its scale factor makes up for the `n`. -/
theorem energy_bluestein {k : Kind} (hs : scale numReal k n ^ 2 * n = 1) (u : Vector (Sample ℝ) n) :
    energy (bluestein numReal trigReal inner k hle u) = energy u := by
  rw [energy_of_mul (toComplex_bluestein_dft hle hm hconv hinv k u), energy_dft (kernelSign_cases k), ← mul_assoc, hs,
    one_mul]
end

/-- The factor of the square-root-scaled kinds, twice, makes up for the `n`. -/
theorem sq_one_div_sqrt_mul {n : Nat} (hn : 1 ≤ n) : (1 / Real.sqrt n) ^ 2 * n = 1 := by
  have hn' : (n : ℝ) ≠ 0 := by positivity
  rw [div_pow, Real.sq_sqrt (Nat.cast_nonneg n)]
  field_simp

end Sys2Proof.Ideal

namespace Sys2Proof.Proofs

open Machine Sys2Proof.Ideal

/-- Settles O47. -/
theorem transformIsTheDFT : Obligations.TransformIsTheDFT := fun _ _ _ _ k hle u i hm hconv hinv =>
  toComplex_bluestein k hle u i hm hconv hinv

/-- Settles O48: each relation is one between kernel signs and scale factors. -/
theorem relationsBetweenKinds : Obligations.RelationsBetweenKinds := by
  intro n m inner hle hn hm hconv hinv run u
  have hsqrt := sq_one_div_sqrt_mul hn
  have hentry := toComplex_bluestein_one hle hm hconv hinv
  refine ⟨?_, ?_, ?_, ?_, ?_, fun k v p q => bluestein_combine hle hm hconv hinv k p q u v⟩
  · exact bluestein_ifft_fft hle u hm hconv hinv
  · exact bluestein_bluestein_eq_self hle hm hconv hinv (kernelSign_opposite rfl)
      (by simpa [scale_numReal hn, sq] using hsqrt) u
  · exact bluestein_bluestein_eq_self hle hm hconv hinv (kernelSign_opposite rfl)
      (by simpa [scale_numReal hn, sq] using hsqrt) u
  · refine vector_ext fun i => ?_
    rw [toComplex_bluestein_bluestein hle hm hconv hinv (kernelSign_opposite rfl)]
    simp [scale_numReal hn, toComplex_rscale, mul_comm]
  · refine vector_ext fun i => ?_
    have hmap : toComplex ((run .fft u).map fun z => rscale numReal z (1 / Real.sqrt n))[i] =
        toComplex (run .fft u)[i] * (1 / Real.sqrt n : ℝ) := by
      simp [toComplex_rscale]
    rw [hmap, hentry, hentry, kernelSign_of_forward rfl, kernelSign_of_forward rfl, scale_numReal hn, scale_numReal hn]
    push_cast
    ring

/-- Settles O49. -/
theorem unitaryKindsPreserveEnergy : Obligations.UnitaryKindsPreserveEnergy := by
  intro n m inner hle u hn hm hconv hinv
  have hsqrt := sq_one_div_sqrt_mul hn
  exact ⟨energy_bluestein hle hm hconv hinv (by rwa [scale_numReal hn]) u,
    energy_bluestein hle hm hconv hinv (by rwa [scale_numReal hn]) u⟩

end Sys2Proof.Proofs
end

section
/-! The micro-operations of the executor: three that write the products of the ranges they read (R151, R154, R156), the
zero-padder (R152), and two that put SCR through INNER (R153, R155). -/

namespace Sys2Proof.Machine

/-- A read of a range stops at the first element of it that holds no value (R30, R44). -/
theorem readRange_eq_error {R : Type} {mem : Memory R} {n i : Nat} (hi : i < n) (hread : mem.read i = none)
    (hbelow : ∀ j, j < i → (mem.read j).isSome) : mem.readRange n = .error i := by
  induction n with
  | zero => exact absurd hi (Nat.not_lt_zero i)
  | succ n ih =>
    rw [Memory.readRange]
    rcases Nat.lt_succ_iff_lt_or_eq.mp hi with h | rfl
    · rw [ih h]
    · obtain ⟨vs, hvs⟩ := readRange_total hbelow
      rw [hvs, hread]

theorem withRange_error {R : Type} {s : State R} {sp : Space} {n i : Nat} {k : Vector (Sample R) n → Result R}
    (h : (s.space sp).readRange n = .error i) : withRange s sp n k = .fault (.noValue sp i) := by
  rw [withRange, h]

end Sys2Proof.Machine

namespace Sys2Proof.Proofs

open Machine Safety

/-- The frame of a micro-operation that stores to one space, then sets PHASE to `p` and GUARD to `g`; one
that leaves GUARD alone is the case `g = s.guard`. -/
theorem store_microFrame (s : State) (sp : Space) (lo : Nat) (vs : List C) (p : Phase) (g : Bool) :
    MicroFrame [sp] p g s (((s.store sp lo vs).setPhase p).setGuard g) := by
  refine ⟨rfl, rfl, by simp [SameRegisters, State.store], by simp [SameQueues, State.store], fun tp htp i => ?_⟩
  simp [State.space_store, List.ne_of_not_mem_cons htp]

/-- What such a micro-operation leaves when it stores the array `v` from index 0. -/
theorem store_samples_microFrame (s : State) (sp : Space) {n : Nat} (v : Vector C n) (p : Phase) (g : Bool) :
    let t := ((s.store sp 0 (samples v)).setPhase p).setGuard g
    MicroFrame [sp] p g s t ∧ (∀ i (h : i < n), (t.space sp).read i = some v[i]) ∧
      ∀ i, n ≤ i → (t.space sp).read i = (s.space sp).read i := by
  obtain ⟨_, _, _, hread, hrest⟩ := store_samples s sp v
  exact ⟨store_microFrame s sp 0 _ p g, by simpa using hread, by simpa using hrest⟩

/-- Settles O15: MOD reads the x-table and then BUF, and stops at the first element of BUF that holds no value. -/
theorem modulatorProducts : Obligations.ModulatorProducts := by
  refine ⟨fun s x u hx hu => ?_, fun s i hx hi hread hbelow => ?_⟩
  · rw [← space_xTable] at hx
    obtain ⟨hframe, hprod, hrest⟩ := store_samples_microFrame s .scr (modulate Config.num x u) .tZpad s.guard
    exact ⟨_, modulateBuf_ok rfl ((readRange_ok_iff _ _ _).mpr hx) ((readRange_ok_iff _ _ _).mpr hu), hframe,
      fun i hi => (hprod i hi).trans (by simp [modulate]), hrest⟩
  · rw [← space_xTable] at hx
    obtain ⟨x, hx⟩ := readRange_total hx
    rw [exec_mod, modulateBuf, withRange_ok hx, withRange_error (sp := .buf) (readRange_eq_error hi hread hbelow)]

/-- Settles O16: ZPAD stores `M - N` zero samples from index `N` on, none where `M ≤ N`. -/
theorem zeroPadding : Obligations.ZeroPadding := by
  intro s
  refine ⟨_, exec_zpad s, store_microFrame s .scr s.sizeN _ .tIfwd s.guard, fun i => ?_⟩
  have hread := read_writeFrom_replicate s.scr s.n.toNat (s.m.toNat - s.n.toNat) (czero Config.num) i
  exact ⟨fun h => hread.trans (if_pos (by omega)), fun h => hread.trans (if_neg (by omega))⟩

/-- Settles O17: INNER's forward and its inverse operation on SCR. -/
theorem scratchTransforms : Obligations.ScratchTransforms := by
  intro s z hm hz
  have hkeep : ∀ (p : Phase) (t : State), t.guard = s.guard → t.setPhase p = (t.setPhase p).setGuard s.guard :=
    fun _ _ ht => by rw [← ht]; rfl
  rw [exec_ifwd, exec_iinv]
  exact ⟨invoke_microFrame (sp := .scr) hm (hkeep .tFmul) hz, invoke_microFrame (sp := .scr) hm (hkeep .tDemod) hz⟩

/-- Settles O18: the product array has length M and goes back to SCR. -/
theorem frequencyMultiplier : Obligations.FrequencyMultiplier := by
  intro s b w hb hw
  rw [← space_wTable] at hw
  obtain ⟨hframe, hprod, hrest⟩ := store_samples_microFrame s .scr (freqMultiply Config.num b w) .tIinv s.guard
  exact ⟨_, multiplyScr_ok rfl ((readRange_ok_iff _ _ _).mpr hb) ((readRange_ok_iff _ _ _).mpr hw), hframe,
    fun i hi => (hprod i hi).trans (by simp [freqMultiply]), hrest⟩

/-- Settles O19: the scaled products go to BUF, and completing the command clears GUARD. -/
theorem demodulatorAndScaler : Obligations.DemodulatorAndScaler := by
  intro s e x he hx
  rw [← space_xTable] at hx
  obtain ⟨hframe, hprod, hrest⟩ :=
    store_samples_microFrame s .buf (demodulate Config.num e x s.scale) .idle false
  exact ⟨_, demodulateScr_ok rfl ((readRange_ok_iff _ _ _).mpr he) ((readRange_ok_iff _ _ _).mpr hx), hframe,
    fun i hi => (hprod i hi).trans (by simp [demodulate]), hrest⟩

end Sys2Proof.Proofs
end

section
/-! The transform of length one (R163): with an identity capability it is the DFT of one sample. -/

namespace Sys2Proof.Ideal

open Machine

/-- At length 1 a cyclic convolution is one product. -/
theorem toComplex_cyclicConv_one (a b : Vector (Sample ℝ) 1) (k : Fin 1) :
    toComplex (cyclicConv a b)[k] = toComplex a[k] * toComplex b[k] := by
  obtain rfl := Subsingleton.elim k 0
  simp [cyclicConv]

theorem convThm_of_fwd_eq_self {inner : InnerOps ℝ 1} (h : ∀ z, inner.fwd z = z) : ConvThm inner := fun a b k => by
  rw [h, h, h, toComplex_cyclicConv_one]

theorem invFwd_one_of_eq_self {L : Nat} {inner : InnerOps ℝ L} (hfwd : ∀ z, inner.fwd z = z)
    (hinv : ∀ z, inner.inv z = z) : InvFwd inner 1 := fun z k => by
  rw [hfwd, hinv, Complex.ofReal_one, one_mul]

/-- The DFT of one sample is the sample, with either kernel sign. -/
theorem dftEntry_one (sigma : ℝ) (u : Vector (Sample ℝ) 1) (k : Fin 1) : dftEntry sigma u k = toComplex u[k] := by
  obtain rfl := Subsingleton.elim k 0
  simp [dftEntry, cis_zero]

/-- At `N = 1` no kind scales (R93). -/
theorem scale_numReal_one (k : Kind) : scale numReal k 1 = 1 := by
  rw [scale_numReal le_rfl]
  cases k <;> simp

end Sys2Proof.Ideal

namespace Sys2Proof.Proofs

open Machine Sys2Proof.Ideal

/-- Settles O50: an identity capability has `ConvThm` and `InvFwd(1)`, so the transform is the DFT, and that of one
sample is the sample. -/
theorem lengthOneIsIdentity : Obligations.LengthOneIsIdentity := fun inner k u hfwd hinv => vector_ext fun i => by
  rw [toComplex_bluestein_one (le_refl 1) le_rfl (convThm_of_fwd_eq_self hfwd) (invFwd_one_of_eq_self hfwd hinv),
    scale_numReal_one, dftEntry_one, Complex.ofReal_one, one_mul]

end Sys2Proof.Proofs
end

section
/-! The reference inner capability (R180): the DFT is multiplicative on cyclic convolutions, so `InnerDFT` has the
properties of R175. -/

namespace Sys2Proof.Ideal

open Machine

/-! The convolution theorem: for an integer kernel sign the kernel is a character of the cyclic group of indices. -/

theorem cis_add_int_mul_two_pi (t : ℝ) (d : Int) : cis (t + d * (2 * Real.pi)) = cis t := by
  have hturn : cis (d * (2 * Real.pi)) = 1 := by
    rw [cis, ← Complex.exp_int_mul_two_pi_mul_I d]
    congr 1
    push_cast
    ring
  rw [cis_add, hturn, mul_one]

/-- The factor of sample `i` in entry `k` of a DFT of length `n`. -/
noncomputable def dftKernel (sigma : ℝ) (n k i : Nat) : ℂ := cis (sigma * (2 * Real.pi * i * k / n))

theorem dftEntry_eq_sum_dftKernel (sigma : ℝ) {n : Nat} (u : Vector (Sample ℝ) n) (k : Nat) :
    dftEntry sigma u k = ∑ i : Fin n, toComplex u[i] * dftKernel sigma n k i := rfl

/-- The kernel turns a sum of indices modulo `n` into a product: the quotient by `n` is a number of whole turns. -/
theorem dftKernel_add (sigma : Int) {n : Nat} (k : Nat) (i j : Fin n) :
    dftKernel sigma n k (i + j : Fin n) = dftKernel sigma n k i * dftKernel sigma n k j := by
  have hn : (n : ℝ) ≠ 0 := by exact_mod_cast (Fin.pos i).ne'
  obtain ⟨q, hq⟩ : ∃ q : Nat, (n : ℝ) * q + (i + j : Fin n).val = i.val + j.val :=
    ⟨(i.val + j.val) / n, by rw [Fin.val_add]; exact_mod_cast Nat.div_add_mod (i.val + j.val) n⟩
  rw [dftKernel, dftKernel, dftKernel, ← cis_add, ← cis_add_int_mul_two_pi _ (sigma * q * k)]
  congr 1
  push_cast
  field_simp
  linear_combination (sigma : ℝ) * k * hq

/-- The convolution theorem (R175). -/
theorem dftEntry_cyclicConv (sigma : Int) {n : Nat} (a b : Vector (Sample ℝ) n) (k : Fin n) :
    dftEntry sigma (cyclicConv a b) k = dftEntry sigma a k * dftEntry sigma b k := by
  have : NeZero n := ⟨(Fin.pos k).ne'⟩
  simp only [dftEntry_eq_sum_dftKernel]
  calc ∑ j : Fin n, toComplex (cyclicConv a b)[j] * dftKernel sigma n k j
      = ∑ i : Fin n, ∑ j : Fin n, toComplex a[i] * toComplex b[(j - i : Fin n)] * dftKernel sigma n k j := by
        rw [Finset.sum_comm]
        simp [cyclicConv, Finset.sum_mul]
    _ = ∑ i : Fin n, ∑ l : Fin n, toComplex a[i] * toComplex b[l] * dftKernel sigma n k (l + i : Fin n) :=
        Finset.sum_congr rfl fun i _ => Fintype.sum_equiv (Equiv.subRight i) _ _ fun j => by
          rw [Equiv.subRight_apply, sub_add_cancel]
    _ = (∑ i : Fin n, toComplex a[i] * dftKernel sigma n k i) *
          ∑ l : Fin n, toComplex b[l] * dftKernel sigma n k l := by
        rw [Finset.sum_mul_sum]
        exact Finset.sum_congr rfl fun i _ => Finset.sum_congr rfl fun l _ => by rw [dftKernel_add]; ring

/-! The operations of `InnerDFT`. -/

theorem innerDFT_fwd {L : Nat} (z : Vector (Sample ℝ) L) : (innerDFT L).fwd z = dft (-1) z := rfl

theorem toComplex_innerDFT_inv {L : Nat} (z : Vector (Sample ℝ) L) (k : Fin L) :
    toComplex ((innerDFT L).inv z)[k] = dftEntry 1 z k / L := by
  simp [innerDFT]

theorem invFwd_innerDFT (L : Nat) : InvFwd (innerDFT L) 1 := fun z k => by
  have hL : (L : ℂ) ≠ 0 := by exact_mod_cast (Fin.pos k).ne'
  have hinverse : dftEntry 1 (dft (-1) z) k = L * toComplex z[k] := by
    simpa using dftEntry_neg_dft (.inr rfl) z k
  rw [toComplex_innerDFT_inv, innerDFT_fwd, hinverse, mul_div_cancel_left₀ _ hL, Complex.ofReal_one, one_mul]

theorem convThm_innerDFT (L : Nat) : ConvThm (innerDFT L) := fun a b k => by
  simp only [innerDFT_fwd, toComplex_dft]
  exact_mod_cast dftEntry_cyclicConv (-1) a b k

theorem linear_dft (sigma : ℝ) (n : Nat) : Linear (dft sigma (n := n)) := fun p q a b => vector_ext fun k => by
  simp only [toComplex_combine, toComplex_dft, dftEntry_combine]

theorem linear_innerDFT_inv (L : Nat) : Linear (innerDFT L).inv := fun p q a b => vector_ext fun k => by
  simp only [toComplex_combine, toComplex_innerDFT_inv, dftEntry_combine]
  ring

end Sys2Proof.Ideal

namespace Sys2Proof.Proofs

open Machine Sys2Proof.Ideal

/-- Settles O46: the convolution theorem, the inversion of the DFT, and that both operations are DFTs up to a factor. -/
theorem referenceCapability : Obligations.ReferenceCapability := fun L _ =>
  ⟨invFwd_innerDFT L, convThm_innerDFT L, linear_dft (-1) L, linear_innerDFT_inv L, fun z k => toComplex_dft (-1) z k,
    toComplex_innerDFT_inv, rfl⟩

end Sys2Proof.Proofs
end

section
/-! Exceptions: frames presented while a command is in progress (R191), what a fatal stop leaves alone (R192, R198), and
that FATAL is left by reset alone (R194). -/

namespace Sys2Proof.Proofs

open Machine Safety

/-! Frames while a command is in progress. -/

/-- A CONSTRUCT or an XFORM presented while GUARD = 1 stops the engine, whatever its operands (R191, R196). -/
theorem stopsWith_reentrant {f : Frame} {i : Instr} {s : State} (hd : decode f = .ok i)
    (hcmd : f.cmd ∈ [0x10#8, 0x30#8, 0x31#8, 0x32#8, 0x33#8, 0x34#8]) (hf : s.phase ≠ .fatal) (hg : s.guard = true) :
    StopsWith i .reentrant f.cmd s := by
  rcases exec_frame hd with ⟨n, l, a, b, c, d, e, rfl, hc⟩ | ⟨_, hc⟩ | ⟨_, _, hc⟩ | ⟨k, w, _, _, hx⟩
  · rw [hc]
    exact stopsWith_of_firstFailing (exec_construct_next s n l a b c d e) hf
      (by rw [firstFailing_constructChecks, if_pos hg])
  · exact absurd (hc ▸ hcmd) (by decide)
  · exact absurd (hc ▸ hcmd) (by decide)
  · exact stopsWith_of_firstFailing (hx s) hf (by rw [firstFailing_xformChecks, if_pos hg])

/-- ISIZE on its domain leaves the inner size in RESULT (R134). -/
theorem onlyResult_isize {n : Word} {s : State} (hf : s.phase ≠ .fatal) (h1 : 1 ≤ n.toNat)
    (hmax : n.toNat ≤ Config.nMax) : OnlyResult (.isize n) (BitVec.ofNat 32 (innerSize n.toNat)) s := by
  have hgood : badSize n.toNat = false := by
    rw [← Bool.not_eq_true, badSize_iff]
    omega
  exact onlyResult_of_pass (exec_isize s n) hf (by simp [firstFailing_cons, hgood])

/-- Settles O23: a busy phase is neither UNCON nor FATAL, so SIZE and ISIZE meet their own checks alone, and GUARD stops
a CONSTRUCT or an XFORM before any other check. -/
theorem nestedFrames : Obligations.NestedFrames := by
  intro f s hbusy hg
  have hu : s.phase ≠ .uncon := fun h => by rw [h] at hbusy; cases hbusy
  have hf : s.phase ≠ .fatal := fun h => by rw [h] at hbusy; cases hbusy
  refine ⟨fun i hd hcmd => ?_, ?_, ?_, ?_, fun hd => ?_⟩
  · rw [present_ok hd]
    exact stopsWith_reentrant hd hcmd hf hg
  · rintro rfl
    exact (sizeReturnsN s).2.1 hu hf
  · rintro n rfl h1 hmax
    obtain ⟨t, he, ht⟩ := onlyResult_isize hf h1 hmax
    exact ⟨t, _, he, toNat_ofNat_innerSize hmax, ht⟩
  · rintro n rfl hbad
    exact (isizeReturnsInnerSize n s hf).2 hbad
  · exact ⟨_, present_illegal_stops hd hf, raiseFatal_stoppedAt _ _ _⟩

/-! What a fatal stop leaves alone. -/

/-- Abandoning a command writes the spoiled spaces alone (log 7). -/
theorem abandon_keeps_unspoiled {s : State} {sp : Space} (h : sp ∉ spoiled s) : s.abandon.space sp = s.space sp := by
  unfold spoiled at h
  unfold State.abandon
  by_cases hg : s.guard = true
  · rw [if_pos hg] at h ⊢
    split at h <;> simp_all [State.space_forget]
  · rw [if_neg hg]

/-- A frame that takes the engine to FATAL has raised a fatal stop with a cause. -/
theorem eq_raiseFatal_of_present {f : Frame} {s t : State} (he : present f s = .next t) (hs : s.phase ≠ .fatal)
    (ht : t.phase = .fatal) : ∃ code, code ≠ .noStop ∧ t = raiseFatal code f.cmd s := by
  rcases present_cases he with ⟨h, _⟩ | ⟨_, hstop⟩ | ⟨_, _, rfl⟩ | ⟨_, _, _, _, _, rfl⟩ | ⟨_, _, _, _, rfl⟩
  · exact absurd h hs
  · exact hstop
  · exact absurd ht hs
  · cases ht
  · cases ht

/-- Settles O24. -/
theorem fatalStopFrame : Obligations.FatalStopFrame := by
  intro f s t he hs ht
  obtain ⟨code, hcode, rfl⟩ := eq_raiseFatal_of_present he hs ht
  obtain ⟨hn, hm, hkind, hscale, hresult, hsh, hkh, hrh, hbuf, hscript, harr, hreads⟩ := raiseFatal_keeps code f.cmd s
  refine ⟨hcode, rfl, raiseFatal_guard _ _ _, hn, hm, hkind, hscale, hresult, hsh, hkh, hrh, hbuf, hscript, harr, hreads,
    fun sp hsp i => ?_, fun sp i => ?_⟩
  · rw [raiseFatal_space, abandon_keeps_unspoiled hsp]
  · rw [raiseFatal_space]
    exact (s.abandon_space sp).2 i

/-! FATAL. -/

/-- In FATAL every frame is ignored: a legal one, one with the wrong number of operand words, and an illegal one. -/
theorem present_of_fatal {s : State} (h : s.phase = .fatal) (f : Frame) : present f s = .next s := by
  rcases decode_cases f with ⟨i, hd⟩ | hd | hd
  · rw [present_ok hd]
    rcases exec_frame hd with ⟨n, l, a, b, c, d, e, rfl, _⟩ | ⟨rfl, _⟩ | ⟨n, rfl, _⟩ | ⟨_, _, _, _, hx⟩
    · exact (exec_construct_next s n l a b c d e).trans (command_fatal h)
    · exact (exec_size s).trans (command_fatal h)
    · exact (exec_isize s n).trans (command_fatal h)
    · exact (hx s).trans (command_fatal h)
  · rw [present_count hd, if_pos h]
  · rw [present_illegal hd, command_fatal h]

/-- A host action in FATAL keeps PHASE and the cause unless it is reset. -/
theorem hostAct_of_fatal {a : HostAction} {s t : State} (h : s.phase = .fatal) (he : hostAct a s = .next t) :
    t.phase = .fatal ∧ t.fcode = s.fcode ∧ t.fcmd = s.fcmd ∨ a = .reset ∧ t.phase = .uncon := by
  rcases hostAct_cases he with ⟨ha, rfl⟩ | ⟨f, _, hf⟩ | ⟨_, ⟨_, _, _, _, _, hph, _, hcode, hcmd, _⟩, _⟩
  · exact .inr ⟨ha, rfl⟩
  · rw [present_of_fatal h] at hf
    cases hf
    exact .inl ⟨h, rfl, rfl⟩
  · exact .inl ⟨hph.trans h, hcode, hcmd⟩

/-- Settles O25: FATAL selects no micro-operation, so a step is a host action or takes a line from the queues. -/
theorem fatalIsSticky : Obligations.FatalIsSticky := by
  intro s h
  refine ⟨present_of_fatal h, fun t hstep => ?_, fun k => ⟨_, hostAct_readCsr k s, rfl⟩, _, hostAct_reset s, rfl, rfl⟩
  obtain ⟨_, ⟨arr, scr, rfl⟩, hs⟩ := step_eq_cases s
  rcases hs with ⟨a, ha, he⟩ | ⟨_, i, hm, _⟩ | ⟨_, he⟩
  · rw [he] at hstep
    rw [ha, Option.some_inj]
    exact hostAct_of_fatal (s := (s.setArrivals arr).setScript scr) h hstep
  · have hbusy : s.phase.busy = true := microOp_busy hm
    rw [h] at hbusy
    cases hbusy
  · rw [he] at hstep
    cases hstep
    exact .inl ⟨h, rfl, rfl⟩

end Sys2Proof.Proofs
end
